-- ==== Sys2Proof/Word.lean ====
section
/-!
DEFINITION. The word types of the LANjam sound-engine core (spec/00_scope.md R9 to R11).

What the spec calls a 32-bit pattern, a byte, a 64-bit command word or a 16-bit register address is a bit
vector. What it calls a `real` is a `Rat` or an
`Exact` (Machine/Exact.lean; notes/assumptions/1.md, DEDUCED, safe).
-/

namespace Sys2Proof

/-- The 32-bit pattern a control register or a sample holds (R9, R35). -/
abbrev Word := BitVec 32

/-- One byte of a network payload (R74). -/
abbrev Byte := BitVec 8

/-- One 64-bit command word (R100). -/
abbrev Command := BitVec 64

/-- A 16-bit register word address (R71). -/
abbrev Addr := BitVec 16

/-- A scale degree, the note identifier 0 to 11 (R11, R170). -/
abbrev Degree := Fin 12

end Sys2Proof
end

