-- ==== Sys2Proof/Syntax.lean ====
section
/-!
DEFINITION. The eight host commands (spec/30_encoding.md R103) and the three ports that carry them (20_memory.md
R73, 30_encoding.md R112).
-/

namespace Sys2Proof

/-- The command ports, one per host agent (R73, R247). -/
inductive Port where
  /-- CTRL.cmd, the control surface. -/
  | ctrl
  /-- AUDIO.cmd, the audio device wrapper. -/
  | audio
  /-- NET.cmd, the network receiver. -/
  | net
  deriving DecidableEq, Repr

/-- The eight commands, one constructor per row of the opcode table (R103). -/
inductive Instr where
  /-- NOP (R216); `addr` and `data` are free: non-zero ones are hints (R109). -/
  | nop (addr : Addr) (data : Word)
  /-- RESET (R217). -/
  | reset
  /-- WR addr, data (R218). -/
  | wr (addr : Addr) (data : Word)
  /-- RD addr (R219). -/
  | rd (addr : Addr)
  /-- NOTEON mask (R223). -/
  | noteon (mask : BitVec 12)
  /-- NOTEOFF mask (R224). -/
  | noteoff (mask : BitVec 12)
  /-- CALLBACK n, `n` the frame count (R200). -/
  | callback (n : Word)
  /-- JBPUSH nbytes, `nbytes` the byte length of the payload (R190). -/
  | jbpush (nbytes : Word)
  deriving DecidableEq, Repr

/-- The one port on which a command is accepted (R112). -/
def Instr.port : Instr → Port
  | .nop _ _ => .ctrl
  | .reset => .ctrl
  | .wr _ _ => .ctrl
  | .rd _ => .ctrl
  | .noteon _ => .ctrl
  | .noteoff _ => .ctrl
  | .callback _ => .audio
  | .jbpush _ => .net

end Sys2Proof
end

