-- ==== Sys2Proof/Decode.lean ====
section
/-!
DEFINITION. The decoder of 64-bit command words, total and rejecting by name, then the encoder, both from
spec/30_encoding.md: format C (R101), the opcode map (R103), the illegal words (R110, R111), the port rights (R112).
-/

namespace Sys2Proof

/-- Why a word is illegal (R110 to R112). All of them are reported by the one flag ILLCMD (R113). -/
inductive DecodeError where
  /-- `op` is none of the eight opcodes (R110). -/
  | reservedOpcode
  /-- `rsv` is not 0 (R111). -/
  | reservedField
  /-- `addr` is not 0 in RESET, NOTEON, NOTEOFF, CALLBACK or JBPUSH (R111). -/
  | addrNotZero
  /-- `data` is not 0 in RESET or RD (R111). -/
  | dataNotZero
  /-- `data[31:12]` is not 0 in NOTEON or NOTEOFF (R111). -/
  | maskTooWide
  /-- A legal word on another port than its own (R112). -/
  | wrongPort
  deriving DecidableEq, Repr

/-- `op`, bits 63:56 (R101). -/
def opField (w : Command) : BitVec 8 := w.extractLsb' 56 8

/-- `rsv`, bits 55:48 (R101). -/
def rsvField (w : Command) : BitVec 8 := w.extractLsb' 48 8

/-- `addr`, bits 47:32 (R101). -/
def addrField (w : Command) : Addr := w.extractLsb' 32 16

/-- `data`, bits 31:0 (R101). -/
def dataField (w : Command) : Word := w.extractLsb' 0 32

/-- `data[11:0]`, the request mask of NOTEON and NOTEOFF (R102). -/
def maskField (w : Command) : BitVec 12 := w.extractLsb' 0 12

/-- `data[31:12]`, which NOTEON and NOTEOFF require to be 0 (R101, R111). -/
def maskHighField (w : Command) : BitVec 20 := w.extractLsb' 12 20

/-- The opcodes of R103. -/
inductive Opcode where
  | nop | reset | wr | rd | noteon | noteoff | callback | jbpush
  deriving DecidableEq, Repr

/-- The `op` byte of each opcode (R103). -/
def Opcode.byte : Opcode → BitVec 8
  | .nop => 0x00
  | .reset => 0x01
  | .wr => 0x10
  | .rd => 0x11
  | .noteon => 0x12
  | .noteoff => 0x13
  | .callback => 0x20
  | .jbpush => 0x30

/-- The opcode an `op` byte stands for; every other byte is reserved (R110). -/
def opcodeOf (b : BitVec 8) : Option Opcode :=
  if b = 0x00 then some .nop
  else if b = 0x01 then some .reset
  else if b = 0x10 then some .wr
  else if b = 0x11 then some .rd
  else if b = 0x12 then some .noteon
  else if b = 0x13 then some .noteoff
  else if b = 0x20 then some .callback
  else if b = 0x30 then some .jbpush
  else none

/-- The command a 64-bit word stands for, or why it is illegal whatever its port (R101 to R103, R109 to R111). -/
def decode (w : Command) : Except DecodeError Instr :=
  if rsvField w ≠ 0 then .error .reservedField
  else
    match opcodeOf (opField w) with
    | none => .error .reservedOpcode
    | some .nop => .ok (.nop (addrField w) (dataField w))
    | some .reset =>
      if addrField w ≠ 0 then .error .addrNotZero
      else if dataField w ≠ 0 then .error .dataNotZero
      else .ok .reset
    | some .wr => .ok (.wr (addrField w) (dataField w))
    | some .rd => if dataField w ≠ 0 then .error .dataNotZero else .ok (.rd (addrField w))
    | some .noteon =>
      if addrField w ≠ 0 then .error .addrNotZero
      else if maskHighField w ≠ 0 then .error .maskTooWide
      else .ok (.noteon (maskField w))
    | some .noteoff =>
      if addrField w ≠ 0 then .error .addrNotZero
      else if maskHighField w ≠ 0 then .error .maskTooWide
      else .ok (.noteoff (maskField w))
    | some .callback =>
      if addrField w ≠ 0 then .error .addrNotZero else .ok (.callback (dataField w))
    | some .jbpush =>
      if addrField w ≠ 0 then .error .addrNotZero else .ok (.jbpush (dataField w))

/-- A word arriving on a port: legal only on its own port (R112). -/
def decodeOn (p : Port) (w : Command) : Except DecodeError Instr :=
  match decode w with
  | .ok i => if i.port = p then .ok i else .error .wrongPort
  | .error e => .error e

/-- A word of format C with `rsv` = 0 (R101). -/
def formatC (op : Opcode) (addr : Addr) (data : Word) : Command :=
  op.byte ++ (0#8 ++ (addr ++ data))

/-- The word of a command, every unused field 0 (R101, R103, R114). -/
def encode : Instr → Command
  | .nop addr data => formatC .nop addr data
  | .reset => formatC .reset 0 0
  | .wr addr data => formatC .wr addr data
  | .rd addr => formatC .rd addr 0
  | .noteon mask => formatC .noteon 0 (mask.setWidth 32)
  | .noteoff mask => formatC .noteoff 0 (mask.setWidth 32)
  | .callback n => formatC .callback 0 n
  | .jbpush nbytes => formatC .jbpush 0 nbytes

/-- One row of the opcode map: a word `w` selects the command when `w AND mask = match` (R103). -/
structure TableRow where
  opcode : Opcode
  port : Port
  bits : Command
  mask : Command
  deriving DecidableEq, Repr

/-- The opcode map of R103, as the spec prints it. -/
def opcodeTable : List TableRow :=
  [⟨.nop, .ctrl, 0x0000000000000000, 0xFFFF000000000000⟩,
   ⟨.reset, .ctrl, 0x0100000000000000, 0xFFFFFFFFFFFFFFFF⟩,
   ⟨.wr, .ctrl, 0x1000000000000000, 0xFFFF000000000000⟩,
   ⟨.rd, .ctrl, 0x1100000000000000, 0xFFFF0000FFFFFFFF⟩,
   ⟨.noteon, .ctrl, 0x1200000000000000, 0xFFFFFFFFFFFFF000⟩,
   ⟨.noteoff, .ctrl, 0x1300000000000000, 0xFFFFFFFFFFFFF000⟩,
   ⟨.callback, .audio, 0x2000000000000000, 0xFFFFFFFF00000000⟩,
   ⟨.jbpush, .net, 0x3000000000000000, 0xFFFFFFFF00000000⟩]

/-- The opcode of a command. -/
def Instr.opcode : Instr → Opcode
  | .nop _ _ => .nop
  | .reset => .reset
  | .wr _ _ => .wr
  | .rd _ => .rd
  | .noteon _ => .noteon
  | .noteoff _ => .noteoff
  | .callback _ => .callback
  | .jbpush _ => .jbpush

/-- The host's view of the decoder: the instruction whose `nbits` bits are `w`, bit 0 the least significant bit of
the one 64-bit command word; bits above `nbits` are 0. No command has more than one word (R100). -/
def decodeTableWord (nbits w : Nat) : Option Instr :=
  if 64 < nbits then none
  else
    match decode (BitVec.ofNat 64 (w % 2 ^ nbits)) with
    | .ok i => some i
    | .error _ => none

end Sys2Proof
end

