-- ==== Sys2Proof/Config.lean ====
section
/-!
DEFINITION. What a deployment of the block fixes (spec/00_scope.md section 4, R8) and what stays uninterpreted.

The OPEN parameters are plain data: every state carries the record it was made with, no command changes it
(R8), and a statement over all states is a statement over all parameter values. The numerics record NUM (R15) is the
reference one, the exact real functions (Machine/Exact.lean), so nothing of it is left open here.
-/

namespace Sys2Proof

/-- The OPEN parameters of 00_scope.md section 4 (R8). -/
structure Params where
  /-- FS, the sample rate in Hz, a positive rational. -/
  fs : Rat
  /-- BLOCK_FRAMES, the nominal frames per callback; no rule reads it. -/
  blockFrames : Nat
  /-- MAX_VOICES, the most voices the pool can be resized to. -/
  maxVoices : Nat
  /-- NV_RESET, the pool size after reset. -/
  nvReset : Nat
  /-- MAX_FRAMES, the largest frame count of one CALLBACK. -/
  maxFrames : Nat
  /-- JB_BLK_MAX, the most samples of one stored PCM block. -/
  jbBlkMax : Nat
  /-- EPS, the epsilon of the activity test (R164). -/
  eps : Rat
  deriving DecidableEq, Repr

/-- The bounds 00_scope.md section 4 puts on the OPEN parameters. `400/9 ≤ fs` is R141's condition for the cutoff
clamp to be well formed. `maxVoices < 2^31` is DEDUCED: a voice count must be writable to the s32 register
POLY_TARGET (notes/assumptions/14.md). -/
abbrev Params.WF (p : Params) : Prop :=
  400 / 9 ≤ p.fs ∧ 1 ≤ p.nvReset ∧ p.nvReset ≤ p.maxVoices ∧ p.maxVoices < 2 ^ 31 ∧
  1 ≤ p.maxFrames ∧ p.maxFrames < 2 ^ 32 ∧ 1 ≤ p.jbBlkMax ∧ 0 ≤ p.eps

namespace Config

/-- The parameters `State.reset` is made with. DESIGN CHOICE, unsafe for a statement that rests on them
(notes/assumptions/3.md): the spec leaves them OPEN, and its examples use FS = 48000, MAX_VOICES = 4 and
NV_RESET = 2. -/
def params : Params where
  fs := 48000
  blockFrames := 128
  maxVoices := 4
  nvReset := 2
  maxFrames := 4096
  jbBlkMax := 4096
  eps := 0

/-- JB_CAP, the most blocks the jitter buffer holds (00_scope.md section 4). -/
def jbCap : Nat := 64

/-- GATE, the auto-release point as a fraction of a step (00_scope.md section 4). -/
def gate : Rat := 4 / 5

/-- A4_HZ, the frequency of MIDI note 69 (00_scope.md section 4). -/
def a4Hz : Rat := 440

/-- FREE VALUE: `f32val` of a non-finite pattern, which R12 calls undefined. No reachable state meets one
(notes/assumptions/11.md). -/
opaque nonFiniteValue : Word → Rat

/-- FREE VALUE: the enumeration member a reserved enum code stands for. No reachable state meets one (R108;
notes/assumptions/12.md). -/
opaque reservedCode : Word → Fin 3

end Config

end Sys2Proof
end

