-- ==== Sys2Proof/Machine/Operands.lean ====
section
/-!
DEFINITION. The operand readings every rule uses: clamps and wraps of rationals (spec/00_scope.md R10), binary32 decode
and the rounding of a rational (R12, R13), the enumerations and their codes (30_encoding.md R108), degree masks, and the
little-endian payload order (20_memory.md R74). The reals that can be irrational are in Machine/Exact.lean.
-/

namespace Sys2Proof.Machine

/-! ### Clamps and wraps (R10) -/

/-- `clamp(x, lo, hi)`: `lo` if x < lo, `hi` if x > hi, else x (R10). -/
def clamp (x lo hi : Rat) : Rat := if x < lo then lo else if hi < x then hi else x

/-- `clamp` on integers (R10). -/
def clampInt (x lo hi : Int) : Int := if x < lo then lo else if hi < x then hi else x

/-- `wrap1(x) = x - floor(x)`, in [0,1) (R10). -/
def wrap1 (x : Rat) : Rat := x - x.floor

/-- `wrap360(d) = d - 360*floor(d/360)`, in [0,360) (R10). -/
def wrap360 (d : Rat) : Rat := d - 360 * (d / 360).floor

/-! ### Powers of two and binary32 (R12, R13) -/

/-- 2^k for an integer k. -/
def pow2 : Int → Rat
  | .ofNat n => ((2 ^ n : Nat) : Rat)
  | .negSucc n => 1 / ((2 ^ (n + 1) : Nat) : Rat)

/-- The exponent field `w[30:23]` (R12). -/
def f32Exp (w : Word) : Nat := (w.extractLsb' 23 8).toNat

/-- The fraction field `w[22:0]` (R12). -/
def f32Frac (w : Word) : Nat := (w.extractLsb' 0 23).toNat

/-- A pattern with exponent field 255: an infinity or a NaN (R12). -/
def f32NonFinite (w : Word) : Bool := f32Exp w == 255

/-- The real number a finite binary32 pattern denotes (R12); a free value for a non-finite one, which R12 leaves
undefined (notes/assumptions/11.md). -/
def f32val (w : Word) : Rat :=
  if f32Exp w = 255 then Config.nonFiniteValue w
  else
    let magnitude : Rat :=
      if f32Exp w = 0 then (f32Frac w : Rat) * pow2 (-149)
      else (1 + (f32Frac w : Rat) / (2 ^ 23 : Nat)) * pow2 ((f32Exp w : Int) - 127)
    if w.getLsbD 31 then -magnitude else magnitude

/-- The natural number nearest a non-negative rational, ties to even. -/
def roundHalfEven (x : Rat) : Nat :=
  let f := x.floor.toNat
  let r := x - (f : Rat)
  if r < 1 / 2 then f else if 1 / 2 < r then f + 1 else if f % 2 = 0 then f else f + 1

/-- floor(log2 a) for a positive rational a. -/
def floorLog2 (a : Rat) : Int :=
  let k : Int := (Nat.log2 a.num.natAbs : Int) - (Nat.log2 a.den : Int)
  if pow2 k ≤ a then k else k - 1

/-- The magnitude bits of the binary32 pattern nearest a positive rational `a` below the overflow bound (R13):
the quantum is 2^(e-23) with e the exponent, at least -126, and a significand that rounds up to 2^24 carries into
the exponent field. -/
def f32Magnitude (a : Rat) : Nat :=
  let e : Int := max (-126) (floorLog2 a)
  (e + 126).toNat * 2 ^ 23 + roundHalfEven (a / pow2 (e - 23))

/-- The binary32 pattern nearest the rational `x`, ties to even; infinity of x's sign from 2^128 - 2^103 on (R13).
`f32rndReal` of Machine/Exact.lean says the same of a real.
A negative `x` too small to reach a non-zero pattern keeps its sign bit, as IEEE 754 does (DEDUCED,
notes/assumptions/10.md). -/
def f32rnd (x : Rat) : Word :=
  if x = 0 then 0#32
  else
    let sign : Word := if x < 0 then 0x80000000#32 else 0#32
    let a : Rat := if x < 0 then -x else x
    if pow2 128 - pow2 103 ≤ a then sign ||| 0x7F800000#32
    else sign ||| BitVec.ofNat 32 (f32Magnitude a)

/-! ### Enumerations (R108) -/

/-- Waveforms (R24, R108). -/
inductive Wave where
  | saw | square | sine
  deriving DecidableEq, Repr

/-- Filter types (R25, R108). -/
inductive FilterType where
  | low | band | high
  deriving DecidableEq, Repr

/-- Envelope stages (R27, R108). -/
inductive Stage where
  | idle | attack | decay | sustain | release
  deriving DecidableEq, Repr

/-- A 32-bit enum pattern as one of three codes: 0, 1, 2; a reserved code, which no reachable register holds (R108),
gives a free one (notes/assumptions/12.md). -/
def enumCode (w : Word) : Fin 3 :=
  if w = 0 then 0 else if w = 1 then 1 else if w = 2 then 2 else Config.reservedCode w

/-- The waveform of a code: Saw 0, Square 1, Sine 2 (R108). -/
def waveOf (w : Word) : Wave :=
  match enumCode w with
  | 0 => .saw
  | 1 => .square
  | 2 => .sine

/-- The filter type of a code: Low 0, Band 1, High 2 (R108). -/
def filterTypeOf (w : Word) : FilterType :=
  match enumCode w with
  | 0 => .low
  | 1 => .band
  | 2 => .high

/-- The trace code of an envelope stage (R108); no command carries it. -/
def stageCode : Stage → Nat
  | .idle => 0
  | .attack => 1
  | .decay => 2
  | .sustain => 3
  | .release => 4

/-! ### Integer readings and degree masks (R102) -/

/-- `s32(w)` (R9). -/
abbrev s32 (w : Word) : Int := w.toInt

/-- `u32(w)` (R9). -/
abbrev u32 (w : Word) : Nat := w.toNat

/-- The twelve degrees in ascending order (R10 "for d ascending", R170). -/
def degrees : List Degree := [0, 1, 2, 3, 4, 5, 6, 7, 8, 9, 10, 11]

/-- The degrees whose bit is set in `w[11:0]`, ascending (R45: "bit i = scale degree i"). -/
def degreesIn (w : Word) : List Degree := degrees.filter fun d => w.getLsbD d.val

/-! ### Payload byte order (R74): little-endian both ways -/

/-- The four bytes of a word as they are sent: least significant first (R74). -/
def wordBytes (w : Word) : List Byte :=
  [w.extractLsb' 0 8, w.extractLsb' 8 8, w.extractLsb' 16 8, w.extractLsb' 24 8]

/-- The word four received bytes make: `b0 + 256*b1 + 65536*b2 + 16777216*b3` (R74, R190). -/
def bytesWord (b0 b1 b2 b3 : Byte) : Word := b3 ++ (b2 ++ (b1 ++ b0))

/-- The samples of a payload whose length is a multiple of 4 (R190). -/
def payloadWords : List Byte → List Word
  | b0 :: b1 :: b2 :: b3 :: rest => bytesWord b0 b1 b2 b3 :: payloadWords rest
  | _ => []

end Sys2Proof.Machine
end

