-- ==== Sys2Proof/Machine/Exact.lean ====
section
/-!
DEFINITION. The exact reals of the datapath as plain data (spec/00_scope.md R11, R14, R15), and the words a real is emitted
as (R13, 20_memory.md R76).

A sample, a phase, a frequency or a filter coefficient is in general irrational: FREQ(4, 0) = 440 * 2^(-9/12). An `Exact` is
how the rules made the number, written down: a rational, a rational times a power of two, or an operation of the rules on
such numbers. `Exact.value` is the real it denotes, with the numerics record NUM at its reference, the exact real functions
(R15). Each operation below denotes the mathematical one (Laws/Exact.lean), with no rounding, overflow or NaN (R14); where
the result is a known rational it is that rational, so a datapath of rationals computes.
-/

namespace Sys2Proof.Machine

/-- A real number the rules can make out of rationals (R11, R14). -/
inductive Exact where
  /-- A rational. -/
  | rat (q : Rat)
  /-- `q * 2^x`: EXP2 (R15) and its products. -/
  | pow (q x : Rat)
  /-- `sin(2 pi p)`: SINT (R15). -/
  | sin (p : Exact)
  /-- `cos(2 pi p)`: COST (R15). -/
  | cos (p : Rat)
  /-- A sum. -/
  | add (a b : Exact)
  /-- A product. -/
  | mul (a b : Exact)
  /-- A quotient. -/
  | div (a b : Exact)
  /-- `wrap1` (R10). -/
  | fract (a : Exact)
  /-- The square wave of a phase (R132). -/
  | square (p : Exact)
  deriving DecidableEq, Repr

/-- The real an `Exact` denotes. SINT, COST and EXP2 are the exact real functions, the reference numerics of R15. -/
noncomputable def Exact.value : Exact → ℝ
  | .rat q => (q : ℝ)
  | .pow q x => (q : ℝ) * (2 : ℝ) ^ (x : ℝ)
  | .sin p => Real.sin (2 * Real.pi * p.value)
  | .cos p => Real.cos (2 * Real.pi * (p : ℝ))
  | .add a b => a.value + b.value
  | .mul a b => a.value * b.value
  | .div a b => a.value / b.value
  | .fract a => Int.fract a.value
  | .square p => if p.value < 1 / 2 then 1 else -1

/-- The number 0. -/
def Exact.zero : Exact := .rat 0

/-- `q * 2^x`, a rational where x is an integer or q is 0 (R15: EXP2(k) = 2^k for every integer k). -/
def Exact.scaled (q x : Rat) : Exact := if q = 0 ∨ x.den = 1 then .rat (q * pow2 x.num) else .pow q x

/-- `a + b` (R14). -/
def Exact.plus (a b : Exact) : Exact :=
  match a, b with
  | .rat p, .rat q => .rat (p + q)
  | a, b => if a = Exact.zero then b else if b = Exact.zero then a else .add a b

/-- `a * b` (R14). -/
def Exact.times (a b : Exact) : Exact :=
  match a, b with
  | .rat p, .rat q => .rat (p * q)
  | .rat p, .pow q x => Exact.scaled (p * q) x
  | .pow q x, .rat p => Exact.scaled (q * p) x
  | .pow p x, .pow q y => Exact.scaled (p * q) (x + y)
  | a, b => if a = Exact.zero ∨ b = Exact.zero then Exact.zero else if a = .rat 1 then b else if b = .rat 1 then a else .mul a b

/-- `-a` (R14). -/
def Exact.neg (a : Exact) : Exact := Exact.times (.rat (-1)) a

/-- `a - b` (R14). -/
def Exact.minus (a b : Exact) : Exact := a.plus b.neg

/-- `a / b` (R14); the rules prove every divisor not 0 (R16). -/
def Exact.over (a b : Exact) : Exact :=
  match b with
  | .rat q => a.times (.rat (1 / q))
  | b => if a = Exact.zero then Exact.zero else .div a b

/-- `wrap1(a) = a - floor(a)` (R10). -/
def Exact.wrap (a : Exact) : Exact :=
  match a with
  | .rat q => .rat (wrap1 q)
  | .fract b => .fract b
  | a => .fract a

/-- `+1` if p < 1/2, else `-1` (R132). -/
def Exact.squareWave (p : Exact) : Exact :=
  match p with
  | .rat q => .rat (if q < 1 / 2 then 1 else -1)
  | p => .square p

/-! ### The numerics record NUM (R15) -/

/-- SINT at a rational: the exact points of R15, elsewhere the sine itself. -/
def sintRat (p : Rat) : Exact :=
  if p = 0 then .rat 0
  else if p = 1 / 12 then .rat (1 / 2)
  else if p = 1 / 4 then .rat 1
  else if p = 5 / 12 then .rat (1 / 2)
  else if p = 1 / 2 then .rat 0
  else if p = 7 / 12 then .rat (-1 / 2)
  else if p = 3 / 4 then .rat (-1)
  else if p = 11 / 12 then .rat (-1 / 2)
  else .sin (.rat p)

/-- SINT(p) = sin(2 pi p) (R15). -/
def sint (p : Exact) : Exact :=
  match p with
  | .rat q => sintRat q
  | p => .sin p

/-- COST(p) = cos(2 pi p) (R15), at its exact points a rational. Its one argument in the rules, cutoff / FS, is
rational (R141). -/
def cost (p : Rat) : Exact :=
  if p = 0 then .rat 1
  else if p = 1 / 6 then .rat (1 / 2)
  else if p = 1 / 4 then .rat 0
  else if p = 1 / 3 then .rat (-1 / 2)
  else if p = 1 / 2 then .rat (-1)
  else if p = 2 / 3 then .rat (-1 / 2)
  else if p = 3 / 4 then .rat 0
  else if p = 5 / 6 then .rat (1 / 2)
  else .cos p

/-- EXP2(x) = 2^x (R15). Its arguments in the rules, oct/12, det/1200 and (midi - 69)/12, are rational (R131, R171). -/
def exp2 (x : Rat) : Exact := Exact.scaled 1 x

/-! ### Where a real leaves the block (R13, R76) -/

/-- The natural number nearest a non-negative real, ties to even. -/
noncomputable def roundHalfEvenReal (x : ℝ) : Nat :=
  let f := ⌊x⌋.toNat
  let r := x - (f : ℝ)
  if r < 1 / 2 then f else if 1 / 2 < r then f + 1 else if f % 2 = 0 then f else f + 1

/-- The magnitude bits of the binary32 pattern nearest a positive real below the overflow bound (R13): `f32Magnitude`
over the reals. -/
noncomputable def f32MagnitudeReal (a : ℝ) : Nat :=
  let e : Int := max (-126) (Int.log 2 a)
  (e + 126).toNat * 2 ^ 23 + roundHalfEvenReal (a / (2 : ℝ) ^ (e - 23))

/-- `f32rnd(x)` for a real x: the binary32 pattern nearest it, ties to even, infinity of x's sign from 2^128 - 2^103 on
(R13); a negative x too small to reach a non-zero pattern keeps its sign bit (DEDUCED, notes/assumptions/10.md). -/
noncomputable def f32rndReal (x : ℝ) : Word :=
  if x = 0 then 0#32
  else
    let sign : Word := if x < 0 then 0x80000000#32 else 0#32
    if (2 : ℝ) ^ 128 - 2 ^ 103 ≤ |x| then sign ||| 0x7F800000#32
    else sign ||| BitVec.ofNat 32 (f32MagnitudeReal |x|)

/-- A 32-bit word on AUDIO.out (R76): its bits, or, for a real not known to be rational, the real it is nearest
(notes/assumptions/20.md). -/
inductive Sample where
  /-- The word itself. -/
  | bits (w : Word)
  /-- The word `f32rnd(x)`. -/
  | nearest (x : Exact)
  deriving DecidableEq, Repr

/-- The word a sample is. -/
noncomputable def Sample.word : Sample → Word
  | .bits w => w
  | .nearest x => f32rndReal x.value

/-- A byte on NET.tx (R76): its bits, or a byte of the word nearest a real. -/
inductive OutByte where
  /-- The byte itself. -/
  | bits (b : Byte)
  /-- Byte k of the word `f32rnd(x)`, byte 0 the least significant. -/
  | ofNearest (x : Exact) (k : Fin 4)
  deriving DecidableEq, Repr

/-- The byte an output byte is. -/
noncomputable def OutByte.byte : OutByte → Byte
  | .bits b => b
  | .ofNearest x k => (f32rndReal x.value).extractLsb' (8 * k.val) 8

/-- `f32rnd(x)` of a sample of OUT, as it is emitted (R13, R209). -/
def Exact.emitted (x : Exact) : Sample :=
  match x with
  | .rat q => .bits (f32rnd q)
  | x => .nearest x

/-- The four bytes of an emitted word, least significant first (R74, R76). -/
def Sample.bytes : Sample → List OutByte
  | .bits w => (wordBytes w).map .bits
  | .nearest x => [.ofNearest x 0, .ofNearest x 1, .ofNearest x 2, .ofNearest x 3]

end Sys2Proof.Machine
end

