-- ==== Sys2Proof/Machine/State.lean ====
section
/-!
DEFINITION. The state of the block as plain data (spec/10_state.md R20 to R64), its value after reset (R62), and the
reasons a step can stop: none but an instruction without a meaning (60_exceptions.md R240).

A `real` of the spec (00_scope.md R11) is an `Exact` where the rules can make it irrational (through SINT, COST and EXP2),
and a `Rat` where every rule that writes it makes a rational of rationals (notes/assumptions/1.md).
-/

namespace Sys2Proof.Machine

/-! ### Control registers (R35 to R59) -/

/-- The 47 control and status registers by name (the table under R35). -/
inductive RegName where
  | status | play | bpm | octave | polyTarget | gain | remoteGain | jbTarget | jbSize | noteOnReq | noteOffReq
  | fltType | fltCutoff | fltQ | fltStages
  | envAttack | envDecay | envSustain | envRelease
  | oscWave (j : Fin 3) | oscOct (j : Fin 3) | oscDetune (j : Fin 3) | oscPhase (j : Fin 3)
  | grid (s : Fin 16)
  deriving DecidableEq, Repr

/-- The stored registers, each the 32-bit pattern it holds (R35). JB_SIZE is not among them: it is computed (R44). -/
structure RegFile where
  /-- STATUS (R36). -/
  status : Word
  /-- PLAY (R37). -/
  play : Word
  /-- BPM (R38). -/
  bpm : Word
  /-- OCTAVE (R39). -/
  octave : Word
  /-- POLY_TARGET (R40). -/
  polyTarget : Word
  /-- GAIN (R41). -/
  gain : Word
  /-- REMOTE_GAIN (R42). -/
  remoteGain : Word
  /-- JB_TARGET (R43). -/
  jbTarget : Word
  /-- NOTE_ON_REQ (R45). -/
  noteOnReq : Word
  /-- NOTE_OFF_REQ (R46). -/
  noteOffReq : Word
  /-- FLT_TYPE (R47). -/
  fltType : Word
  /-- FLT_CUTOFF (R48). -/
  fltCutoff : Word
  /-- FLT_Q (R49). -/
  fltQ : Word
  /-- FLT_STAGES (R50). -/
  fltStages : Word
  /-- ENV_ATTACK (R51). -/
  envAttack : Word
  /-- ENV_DECAY (R52). -/
  envDecay : Word
  /-- ENV_SUSTAIN (R53). -/
  envSustain : Word
  /-- ENV_RELEASE (R54). -/
  envRelease : Word
  /-- OSCj_WAVE (R55). -/
  oscWave : Vector Word 3
  /-- OSCj_OCT (R56). -/
  oscOct : Vector Word 3
  /-- OSCj_DETUNE (R57). -/
  oscDetune : Vector Word 3
  /-- OSCj_PHASE (R58). -/
  oscPhase : Vector Word 3
  /-- GRID[s] (R59). -/
  grid : Vector Word 16
  deriving DecidableEq, Repr

/-- The reset patterns of the table under R35 (R62); POLY_TARGET's is NV_RESET. -/
def RegFile.reset (p : Params) : RegFile where
  status := 0x00000000
  play := 0x00000000
  bpm := 0x00000078
  octave := 0x00000004
  polyTarget := BitVec.ofNat 32 p.nvReset
  gain := 0x00000000
  remoteGain := 0x00000000
  jbTarget := 0x00000002
  noteOnReq := 0x00000000
  noteOffReq := 0x00000000
  fltType := 0x00000000
  fltCutoff := 0x447A0000
  fltQ := 0x3F34FDF4
  fltStages := 0x00000001
  envAttack := 0x3C23D70A
  envDecay := 0x3DCCCCCD
  envSustain := 0x3F333333
  envRelease := 0x3E4CCCCD
  oscWave := Vector.replicate 3 0x00000000
  oscOct := Vector.replicate 3 0x00000000
  oscDetune := Vector.replicate 3 0x00000000
  oscPhase := Vector.replicate 3 0x00000000
  grid := Vector.replicate 16 0x00000000

/-- A register file of zero patterns: what a callback that has read no register yet has seen (the model's own
scratch, notes/assumptions/5.md). -/
def RegFile.blank : RegFile where
  status := 0
  play := 0
  bpm := 0
  octave := 0
  polyTarget := 0
  gain := 0
  remoteGain := 0
  jbTarget := 0
  noteOnReq := 0
  noteOffReq := 0
  fltType := 0
  fltCutoff := 0
  fltQ := 0
  fltStages := 0
  envAttack := 0
  envDecay := 0
  envSustain := 0
  envRelease := 0
  oscWave := Vector.replicate 3 0
  oscOct := Vector.replicate 3 0
  oscDetune := Vector.replicate 3 0
  oscPhase := Vector.replicate 3 0
  grid := Vector.replicate 16 0

/-! ### Voices (R23 to R28) -/

/-- A sub-oscillator record (R24). -/
structure Osc where
  /-- In [0,1). -/
  phase : Exact
  wave : Wave
  /-- Semitones, in [-24, 24]. -/
  oct : Int
  /-- Cents, in [-200, 200]. -/
  det : Rat
  /-- In [0,1). -/
  phoff : Rat
  deriving DecidableEq, Repr

/-- Filter coefficients, normalised by a0 (R25, R146). -/
structure Coeffs where
  b0 : Exact
  b1 : Exact
  b2 : Exact
  a1 : Exact
  a2 : Exact
  deriving DecidableEq, Repr

/-- A filter stage record: the last two inputs and outputs, the more recent first (R26). -/
structure StageState where
  x1 : Exact
  x2 : Exact
  y1 : Exact
  y2 : Exact
  deriving DecidableEq, Repr

/-- An envelope record (R27); `attackT`, `decayT`, `sustainL`, `releaseT` are the spec's A, D, S, R. -/
structure Envelope where
  stage : Stage
  /-- In [0,1]. -/
  level : Rat
  /-- The per-sample increment. -/
  inc : Rat
  /-- A, seconds, unclamped. -/
  attackT : Rat
  /-- D, seconds, unclamped. -/
  decayT : Rat
  /-- S, in [0,1]. -/
  sustainL : Rat
  /-- R, seconds, unclamped. -/
  releaseT : Rat
  deriving DecidableEq, Repr

/-- A voice: three sub-oscillators, the filter record (R25) and four stage records (R26), an envelope (R27), and the
voice-level fields of R28. -/
structure Voice where
  osc : Vector Osc 3
  ftype : FilterType
  /-- Hz, stored unclamped. -/
  cutoff : Rat
  /-- Stored unclamped. -/
  q : Rat
  /-- Stages in use, 0 to 4. -/
  nst : Nat
  dirty : Bool
  coeffs : Coeffs
  st : Vector StageState 4
  env : Envelope
  /-- `none` is the spec's NONE. -/
  note : Option Degree
  released : Bool
  lastUsed : BitVec 64
  /-- Hz. -/
  freq : Exact
  /-- Unclamped. -/
  gain : Rat
  deriving DecidableEq, Repr

/-- The reset column of R24. -/
def Osc.reset : Osc := ⟨.zero, .saw, 0, 0, 0⟩

/-- The reset column of R26; also what a coefficient recomputation leaves (R145). -/
def StageState.zero : StageState := ⟨.zero, .zero, .zero, .zero⟩

/-- The reset column of R27. -/
def Envelope.reset : Envelope where
  stage := .idle
  level := 0
  inc := 0
  attackT := f32val 0x3C23D70A
  decayT := f32val 0x3DCCCCCD
  sustainL := f32val 0x3F333333
  releaseT := f32val 0x3E4CCCCD

/-- A voice at the reset values of R24 to R28, which POOL.RESIZE makes too (R63, R176). -/
def Voice.reset : Voice where
  osc := Vector.replicate 3 Osc.reset
  ftype := .low
  cutoff := 1000
  q := f32val 0x3F34FDF4
  nst := 1
  dirty := true
  coeffs := ⟨.zero, .zero, .zero, .zero, .zero⟩
  st := Vector.replicate 4 StageState.zero
  env := Envelope.reset
  note := none
  released := false
  lastUsed := 0
  freq := .zero
  gain := 0

/-! ### Sequencer (R31, R32) -/

/-- The sequencer's private state and release schedule (R31, R32). -/
structure Sequencer where
  /-- STEP. -/
  step : Fin 16
  /-- ACC, frames. -/
  acc : Rat
  /-- POS. -/
  pos : BitVec 64
  /-- RELP[d]. -/
  relp : Vector Bool 12
  /-- RELT[d], frames on the POS axis. -/
  relt : Vector Rat 12
  deriving DecidableEq, Repr

/-- The reset values of R31 and R32. -/
def Sequencer.reset : Sequencer where
  step := 0
  acc := 0
  pos := 0
  relp := Vector.replicate 12 false
  relt := Vector.replicate 12 0

/-! ### A callback in progress (R80, R81)

A CALLBACK is a sequence of events, and commands of the other ports may fall between any two of them. What a
callback has still to do, and what it has read so far, is therefore state while PH is not 0. -/

/-- One event of a callback. Each holds at most one shared-memory event of R80; what touches audio-owned state only
is put with a neighbour, as R80 allows (DEDUCED, notes/assumptions/7.md). -/
inductive Event where
  /-- Phase 1: zero OUT (R201). -/
  | zero
  /-- Phase 2: the reads of OCTAVE, BPM and PLAY still to be made, in any order (R81, R202). -/
  | readTiming (rs : List RegName)
  /-- Phase 2: add n to ACC, or zero it (R181). -/
  | seqAdvance
  /-- Phase 2: one test of the advance loop; if a step is entered, the read of its GRID register (R181). -/
  | seqStep
  /-- Phase 2: the trigger of one degree of the step entered (R181). -/
  | seqTrigger (d : Degree)
  /-- Phase 2: the release check and the advance of POS (R181). -/
  | seqRelease
  /-- Phase 3: the exchange of NOTE_ON_REQ with 0 (R203). -/
  | drainOn
  /-- Phase 3: the exchange of NOTE_OFF_REQ with 0 (R203). -/
  | drainOff
  /-- Phase 3: the note-on of one requested degree (R203). -/
  | requestOn (d : Degree)
  /-- Phase 3: the note-offs of the requested degrees (R203). -/
  | requestOffs
  /-- Phase 4: the read of POLY_TARGET (R204). -/
  | readPoly (rs : List RegName)
  /-- Phase 4: the resize, if one is pending (R204). -/
  | resize
  /-- Phase 5: the reads of the 21 parameter registers still to be made, in any order (R81, R205). -/
  | readParams (rs : List RegName)
  /-- Phase 5: the setters of every voice (R205). -/
  | latch
  /-- Phase 6: POOL.RENDER_MIXED (R206). -/
  | render
  /-- Phase 7: JB.POP (R192, R208). -/
  | pop
  /-- Phase 7: the flag of a withheld pop (R192). -/
  | underrun
  /-- Phase 7: the read of REMOTE_GAIN (R208). -/
  | readRemote (rs : List RegName)
  /-- Phase 7: the additive mix (R208). -/
  | mix
  /-- Phase 8: the emission on AUDIO.out and NET.tx (R209). -/
  | emit
  deriving DecidableEq, Repr

/-- A callback in progress; `Progress.none` when PH = 0. -/
structure Progress where
  /-- The frame count n of the callback. -/
  n : Word
  /-- The events not yet done, the next first. -/
  todo : List Event
  /-- The patterns this callback has read (R210), each in the place of the register it was read from. -/
  seen : RegFile
  /-- The samples JB.POP returned (R192). -/
  popped : List Word
  deriving DecidableEq, Repr

/-- No callback in progress. -/
def Progress.none : Progress := ⟨0, [], RegFile.blank, []⟩

/-! ### Ports and the order of the agents: inputs and outputs of the block (R64, R73, R81) -/

/-- The data on the ports and channels of R73. The model's own fields (notes/assumptions/4.md). -/
structure Channels where
  /-- Words waiting on CTRL.cmd, the next first. -/
  ctrlCmd : List Command
  /-- Words waiting on AUDIO.cmd. -/
  audioCmd : List Command
  /-- Words waiting on NET.cmd. -/
  netCmd : List Command
  /-- Payload bytes waiting on NET.rx. -/
  netRx : List Byte
  /-- Words sent on CTRL.rsp, oldest first. -/
  ctrlRsp : List Word
  /-- Blocks sent on AUDIO.out, oldest first. -/
  audioOut : List (List Sample)
  /-- Payloads sent on NET.tx, oldest first. -/
  netTx : List (List OutByte)
  deriving DecidableEq, Repr

/-- Nothing waiting and nothing sent. -/
def Channels.empty : Channels := ⟨[], [], [], [], [], [], []⟩

/-- One turn of one agent. The list of turns is the total order of R81 in the making: every interleaving of the three
ports, event by event, is some list of turns. -/
inductive Turn where
  /-- CTRL takes its next command. -/
  | ctrl
  /-- NET takes its next command. -/
  | net
  /-- AUDIO takes its next command and runs a CALLBACK whole; with one in progress, its next event. -/
  | audio
  /-- AUDIO takes its next command and only starts a CALLBACK; with one in progress, its next event. `pick` chooses
  which of the pending reads of an unordered group is made (R81). -/
  | audioEvent (pick : Nat)
  deriving DecidableEq, Repr

/-- How much of a CALLBACK the AUDIO turn being served covers (the model's own, notes/assumptions/5.md). -/
inductive Grain where
  /-- All eight phases, no other agent in between. -/
  | whole
  /-- Its start; the events follow in later turns. -/
  | split
  deriving DecidableEq, Repr

/-! ### The machine -/

/-- The state of the block. -/
structure State where
  /-- The OPEN parameters (R8); no step changes them. -/
  params : Params
  /-- The control registers (R35). -/
  regs : RegFile
  /-- V[0..NV-1]; NV is the length (R30). -/
  voices : List Voice
  /-- TICK (R30). -/
  tick : BitVec 64
  /-- The sequencer (R31, R32). -/
  seq : Sequencer
  /-- Q, head first (R33). -/
  queue : List (List Word)
  /-- OUT[0..MAX_FRAMES-1] (R34). -/
  out : List Exact
  /-- PH (R22). -/
  ph : Fin 9
  /-- The callback in progress. -/
  cb : Progress
  /-- The extent of the AUDIO turn being served. -/
  grain : Grain
  /-- Whose turn it is, the next first (R81). -/
  sched : List Turn
  /-- The ports (R73). -/
  io : Channels
  deriving DecidableEq, Repr

/-- NV (R30). -/
def State.nv (s : State) : Nat := s.voices.length

/-- The block right after reset with given parameters (R62, R260): every piece of state at its reset value, nothing on
the ports and no turn given. -/
def State.resetOf (p : Params) : State where
  params := p
  regs := RegFile.reset p
  voices := List.replicate p.nvReset Voice.reset
  tick := 0
  seq := Sequencer.reset
  queue := []
  out := List.replicate p.maxFrames .zero
  ph := 0
  cb := Progress.none
  grain := .whole
  sched := []
  io := Channels.empty

/-- The block right after reset, with the parameters of `Config.params` (notes/assumptions/3.md). -/
def State.reset : State := State.resetOf Config.params

/-- Why the machine can stop with a fault: never. The block has no trap mechanism and absorbs every abnormal condition
in line (R240), so this type has no constructor. Safe: nothing the hardware does is cut short. -/
inductive Fault where
  deriving DecidableEq, Repr

/-- Why the machine can refuse an instruction. -/
inductive Refusal where
  /-- Raised by `exec` alone, for an instruction that has no meaning yet; no arm raises it now. Safe. -/
  | notModelled (mnemonic : String)
  deriving DecidableEq, Repr

end Sys2Proof.Machine
end

