-- ==== Sys2Proof/Machine/Ops.lean ====
section
/-!
DEFINITION. The named operations over registers and ports: the primitives RegRead, RegWrite, RegXchg and RegOr of
spec/00_scope.md R10, the address map and the register types of 10_state.md R35, the response channel (20_memory.md
R73), and what a port does with a command that cannot start yet (R78).

TAKING AN EXCEPTION, the operation this file would hold on another machine, does not exist here: "The block has no
trap mechanism" (60_exceptions.md R240). What stands in its place is `Flag(b)`, in Machine/Flags.lean.
-/

namespace Sys2Proof.Machine

/-! ### One update per field of State -/

/-- Replace the register file. -/
def State.withRegs (s : State) (x : RegFile) : State := { s with regs := x }

/-- Replace the voices. -/
def State.withVoices (s : State) (x : List Voice) : State := { s with voices := x }

/-- Replace TICK. -/
def State.withTick (s : State) (x : BitVec 64) : State := { s with tick := x }

/-- Replace the sequencer. -/
def State.withSeq (s : State) (x : Sequencer) : State := { s with seq := x }

/-- Replace the jitter-buffer queue. -/
def State.withQueue (s : State) (x : List (List Word)) : State := { s with queue := x }

/-- Replace OUT. -/
def State.withOut (s : State) (x : List Exact) : State := { s with out := x }

/-- Replace PH. -/
def State.withPh (s : State) (x : Fin 9) : State := { s with ph := x }

/-- Replace the callback in progress. -/
def State.withCb (s : State) (x : Progress) : State := { s with cb := x }

/-- Replace the grain. -/
def State.withGrain (s : State) (x : Grain) : State := { s with grain := x }

/-- Replace the list of turns. -/
def State.withSched (s : State) (x : List Turn) : State := { s with sched := x }

/-- Replace the ports. -/
def State.withIo (s : State) (x : Channels) : State := { s with io := x }

/-! ### The register space (R35, R71) -/

/-- The types of control registers (R35). -/
inductive RegType where
  /-- Sticky event flags, write-one-to-clear (R36). -/
  | flags
  /-- Bit 0 used, bits 31:1 stored as 0. -/
  | bit
  /-- A two's-complement integer, stored as written. -/
  | s32
  /-- An unsigned integer, stored as written. -/
  | u32
  /-- Bits 11:0 used, bits 31:12 stored as 0. -/
  | mask12
  /-- A code 0, 1 or 2 (R108). -/
  | enum
  /-- A finite binary32 pattern. -/
  | f32
  deriving DecidableEq, Repr

/-- The type column of the table under R35. -/
def RegName.type : RegName → RegType
  | .status => .flags
  | .play => .bit
  | .bpm => .s32
  | .octave => .s32
  | .polyTarget => .s32
  | .gain => .f32
  | .remoteGain => .f32
  | .jbTarget => .u32
  | .jbSize => .u32
  | .noteOnReq => .mask12
  | .noteOffReq => .mask12
  | .fltType => .enum
  | .fltCutoff => .f32
  | .fltQ => .f32
  | .fltStages => .s32
  | .envAttack => .f32
  | .envDecay => .f32
  | .envSustain => .f32
  | .envRelease => .f32
  | .oscWave _ => .enum
  | .oscOct _ => .s32
  | .oscDetune _ => .f32
  | .oscPhase _ => .f32
  | .grid _ => .mask12

/-- The three registers WR may not name: JB_SIZE, NOTE_ON_REQ, NOTE_OFF_REQ (R218, R222). -/
def RegName.readOnly : RegName → Bool
  | .jbSize => true
  | .noteOnReq => true
  | .noteOffReq => true
  | _ => false

/-- The addr column of the table under R35. -/
def RegName.addr : RegName → Addr
  | .status => 0x0000
  | .play => 0x0001
  | .bpm => 0x0002
  | .octave => 0x0003
  | .polyTarget => 0x0004
  | .gain => 0x0005
  | .remoteGain => 0x0006
  | .jbTarget => 0x0007
  | .jbSize => 0x0008
  | .noteOnReq => 0x0009
  | .noteOffReq => 0x000A
  | .fltType => 0x0010
  | .fltCutoff => 0x0011
  | .fltQ => 0x0012
  | .fltStages => 0x0013
  | .envAttack => 0x0018
  | .envDecay => 0x0019
  | .envSustain => 0x001A
  | .envRelease => 0x001B
  | .oscWave j => BitVec.ofNat 16 (0x0020 + 4 * j.val)
  | .oscOct j => BitVec.ofNat 16 (0x0021 + 4 * j.val)
  | .oscDetune j => BitVec.ofNat 16 (0x0022 + 4 * j.val)
  | .oscPhase j => BitVec.ofNat 16 (0x0023 + 4 * j.val)
  | .grid s => BitVec.ofNat 16 (0x0040 + s.val)

/-- The register at a mapped address; `none` at each of the unmapped ones (R35, R71). -/
def regAt (a : Addr) : Option RegName :=
  if a = 0x0000 then some .status
  else if a = 0x0001 then some .play
  else if a = 0x0002 then some .bpm
  else if a = 0x0003 then some .octave
  else if a = 0x0004 then some .polyTarget
  else if a = 0x0005 then some .gain
  else if a = 0x0006 then some .remoteGain
  else if a = 0x0007 then some .jbTarget
  else if a = 0x0008 then some .jbSize
  else if a = 0x0009 then some .noteOnReq
  else if a = 0x000A then some .noteOffReq
  else if a = 0x0010 then some .fltType
  else if a = 0x0011 then some .fltCutoff
  else if a = 0x0012 then some .fltQ
  else if a = 0x0013 then some .fltStages
  else if a = 0x0018 then some .envAttack
  else if a = 0x0019 then some .envDecay
  else if a = 0x001A then some .envSustain
  else if a = 0x001B then some .envRelease
  else if h : 0x20 ≤ a.toNat ∧ a.toNat < 0x2C then
    let j : Fin 3 := ⟨(a.toNat - 0x20) / 4, by omega⟩
    if (a.toNat - 0x20) % 4 = 0 then some (.oscWave j)
    else if (a.toNat - 0x20) % 4 = 1 then some (.oscOct j)
    else if (a.toNat - 0x20) % 4 = 2 then some (.oscDetune j)
    else some (.oscPhase j)
  else if h : 0x40 ≤ a.toNat ∧ a.toNat < 0x50 then some (.grid ⟨a.toNat - 0x40, by omega⟩)
  else none

/-- `REG[name]` of a stored register (R10). JB_SIZE is not stored (R44) and reads as 0 here; `State.regRead` computes
it. -/
def RegFile.read (r : RegFile) : RegName → Word
  | .status => r.status
  | .play => r.play
  | .bpm => r.bpm
  | .octave => r.octave
  | .polyTarget => r.polyTarget
  | .gain => r.gain
  | .remoteGain => r.remoteGain
  | .jbTarget => r.jbTarget
  | .jbSize => 0
  | .noteOnReq => r.noteOnReq
  | .noteOffReq => r.noteOffReq
  | .fltType => r.fltType
  | .fltCutoff => r.fltCutoff
  | .fltQ => r.fltQ
  | .fltStages => r.fltStages
  | .envAttack => r.envAttack
  | .envDecay => r.envDecay
  | .envSustain => r.envSustain
  | .envRelease => r.envRelease
  | .oscWave j => r.oscWave[j]
  | .oscOct j => r.oscOct[j]
  | .oscDetune j => r.oscDetune[j]
  | .oscPhase j => r.oscPhase[j]
  | .grid s => r.grid[s]

/-- `REG[name] <- w` of a stored register (R10); JB_SIZE is not stored. -/
def RegFile.write (r : RegFile) (name : RegName) (w : Word) : RegFile :=
  match name with
  | .status => { r with status := w }
  | .play => { r with play := w }
  | .bpm => { r with bpm := w }
  | .octave => { r with octave := w }
  | .polyTarget => { r with polyTarget := w }
  | .gain => { r with gain := w }
  | .remoteGain => { r with remoteGain := w }
  | .jbTarget => { r with jbTarget := w }
  | .jbSize => r
  | .noteOnReq => { r with noteOnReq := w }
  | .noteOffReq => { r with noteOffReq := w }
  | .fltType => { r with fltType := w }
  | .fltCutoff => { r with fltCutoff := w }
  | .fltQ => { r with fltQ := w }
  | .fltStages => { r with fltStages := w }
  | .envAttack => { r with envAttack := w }
  | .envDecay => { r with envDecay := w }
  | .envSustain => { r with envSustain := w }
  | .envRelease => { r with envRelease := w }
  | .oscWave j => { r with oscWave := r.oscWave.set j.val w j.isLt }
  | .oscOct j => { r with oscOct := r.oscOct.set j.val w j.isLt }
  | .oscDetune j => { r with oscDetune := r.oscDetune.set j.val w j.isLt }
  | .oscPhase j => { r with oscPhase := r.oscPhase.set j.val w j.isLt }
  | .grid s => { r with grid := r.grid.set s.val w s.isLt }

/-- `RegRead(name)` (R10): the stored pattern, or for JB_SIZE the number of queued blocks at this instant (R44). It
has no side effect (R77). -/
def State.regRead (s : State) (name : RegName) : Word :=
  match name with
  | .jbSize => BitVec.ofNat 32 s.queue.length
  | name => s.regs.read name

/-- `RegWrite(name, w)` (R10). -/
def State.regWrite (s : State) (name : RegName) (w : Word) : State := s.withRegs (s.regs.write name w)

/-- `RegOr(name, w)` (R10, R83). -/
def State.regOr (s : State) (name : RegName) (w : Word) : State := s.regWrite name (s.regs.read name ||| w)

/-! ### Ports (R73, R78) -/

/-- The words waiting on a port. -/
def Channels.pending (c : Channels) : Port → List Command
  | .ctrl => c.ctrlCmd
  | .audio => c.audioCmd
  | .net => c.netCmd

/-- Replace the words waiting on a port. -/
def Channels.setPending (c : Channels) (p : Port) (ws : List Command) : Channels :=
  match p with
  | .ctrl => { c with ctrlCmd := ws }
  | .audio => { c with audioCmd := ws }
  | .net => { c with netCmd := ws }

/-- Send one word on CTRL.rsp (R73, R219). -/
def State.respond (s : State) (w : Word) : State :=
  s.withIo { s.io with ctrlRsp := s.io.ctrlRsp ++ [w] }

/-- The port holds a command that cannot execute yet: it is back at the head of its port, and what stands behind it
waits (R78, R217). Used by RESET while a callback runs (notes/assumptions/8.md), by CALLBACK while one runs (R78), and
by JBPUSH until its payload has arrived (notes/assumptions/9.md). -/
def State.hold (s : State) (i : Instr) : State :=
  s.withIo (s.io.setPending i.port (encode i :: s.io.pending i.port))

end Sys2Proof.Machine
end

