-- ==== Sys2Proof/Machine/Flags.lean ====
section
/-!
DEFINITION. The STATUS register: the only flags of the block (spec/10_state.md R36, R60; 60_exceptions.md R241, R242).
There are no condition codes and no arithmetic flags (R60).
-/

namespace Sys2Proof.Machine

/-- The seven sticky event flags (R36, R242). -/
inductive StatusFlag where
  /-- Bit 0: an illegal word (R113). -/
  | illcmd
  /-- Bit 1: an unmapped address, or a WR to a read-only register (R222). -/
  | badaddr
  /-- Bit 2: a refused WR value (R221). -/
  | badval
  /-- Bit 3: a withheld pop (R192). -/
  | jbUnderrun
  /-- Bit 4: an evicting push (R191). -/
  | jbEvict
  /-- Bit 5: a discarded payload (R190). -/
  | jbMalformed
  /-- Bit 6: a stolen voice (R173). -/
  | steal
  deriving DecidableEq, Repr

/-- The bit of a flag (R36, the code column of R242). -/
def StatusFlag.bit : StatusFlag → Nat
  | .illcmd => 0
  | .badaddr => 1
  | .badval => 2
  | .jbUnderrun => 3
  | .jbEvict => 4
  | .jbMalformed => 5
  | .steal => 6

/-- `1 << b` (R241). -/
def StatusFlag.mask (f : StatusFlag) : Word := 1#32 <<< f.bit

/-- `Flag(b)` = `RegOr(STATUS, 1 << b)` (R10, R241): sticky, records nothing else, steers nothing. -/
def State.flag (s : State) (f : StatusFlag) : State := s.regOr .status f.mask

/-- STATUS after `WR STATUS, data`: every flag whose bit in data[6:0] is 1 is cleared, the others stay (R36, R218). -/
def clearFlags (status data : Word) : Word := status &&& ~~~(data &&& 0x7F#32)

end Sys2Proof.Machine
end

