-- ==== Sys2Proof/Machine/Jitter.lean ====
section
/-!
DEFINITION. The jitter buffer and the JBPUSH command (spec/47_jitter_buffer.md R189 to R196).
-/

namespace Sys2Proof.Machine

/-- JB.PUSH(blk): append at the tail, drop oldest first while over the cap (R191). -/
def State.jbPush (s : State) (blk : List Word) : State :=
  let q := s.queue ++ [blk]
  if q.length ≤ Config.jbCap then s.withQueue q
  else (s.withQueue (q.drop (q.length - Config.jbCap))).flag .jbEvict

/-- JB.POP withholds: the queue is no longer than the target (R192). -/
def popWithheld (target : Word) (q : List (List Word)) : Bool := decide (q.length ≤ u32 target)

/-- The samples a JB.POP(n) that is not withheld returns: the first n of the head block, or all of a shorter one (R192). -/
def popSamples (n : Nat) (q : List (List Word)) : List Word := (q.headD []).take n

/-- A payload JBPUSH discards: its length no multiple of 4, or over the largest block (R190). -/
def malformed (p : Params) (nbytes : Nat) : Bool := decide (nbytes % 4 ≠ 0) || decide (4 * p.jbBlkMax < nbytes)

/-- Take `k` bytes from NET.rx (R190). -/
def State.takeRx (s : State) (k : Nat) : State := s.withIo { s.io with netRx := s.io.netRx.drop k }

/-- JBPUSH nbytes (R190): the payload is taken whether or not it is accepted. While NET.rx does not hold nbytes bytes
the port waits (DEDUCED, notes/assumptions/9.md). -/
def execJbpush (nbytes : Word) (s : State) : Host.Outcome State Fault Refusal :=
  if s.io.netRx.length < u32 nbytes then .next (s.hold (.jbpush nbytes))
  else
    let rx := s.io.netRx.take (u32 nbytes)
    let s := s.takeRx (u32 nbytes)
    if malformed s.params (u32 nbytes) then .next (s.flag .jbMalformed)
    else .next (s.jbPush (payloadWords rx))

end Sys2Proof.Machine
end

