-- ==== Sys2Proof/Machine/Env.lean ====
section
/-!
DEFINITION. The linear envelope generator (spec/43_envelope.md R150 to R157).
-/

namespace Sys2Proof.Machine

/-- samples(t) = max(1, t * FS), a real, not truncated (R153). -/
def samples (fs t : Rat) : Rat := if t * fs < 1 then 1 else t * fs

/-- ENV.NOTE_ON: Attack from any stage, `level` kept (R151). -/
def Envelope.noteOn (fs : Rat) (e : Envelope) : Envelope :=
  { e with stage := .attack, inc := 1 / samples fs e.attackT }

/-- ENV.NOTE_OFF: Release from any stage but Idle, its slope from the level at this moment (R152). -/
def Envelope.noteOff (fs : Rat) (e : Envelope) : Envelope :=
  if e.stage = .idle then e
  else { e with stage := .release, inc := -e.level / samples fs e.releaseT }

/-- ENV.TICK: one sample; at most one transition (R150, R154). -/
def Envelope.tick (fs : Rat) (e : Envelope) : Envelope :=
  match e.stage with
  | .idle => e
  | .attack =>
    if 1 ≤ e.level + e.inc then
      { e with stage := .decay, level := 1, inc := -(1 - e.sustainL) / samples fs e.decayT }
    else { e with level := e.level + e.inc }
  | .decay =>
    if e.level + e.inc ≤ e.sustainL then { e with stage := .sustain, level := e.sustainL, inc := 0 }
    else { e with level := e.level + e.inc }
  | .sustain => e
  | .release =>
    if e.level + e.inc ≤ 0 then { e with stage := .idle, level := 0, inc := 0 }
    else { e with level := e.level + e.inc }

/-- ENV.SET, the patterns of ENV_ATTACK, ENV_DECAY, ENV_SUSTAIN and ENV_RELEASE: stage, level and inc untouched
(R155). -/
def Envelope.set (e : Envelope) (a d s r : Word) : Envelope :=
  { e with attackT := f32val a, decayT := f32val d, sustainL := clamp (f32val s) 0 1, releaseT := f32val r }

end Sys2Proof.Machine
end

