-- ==== Sys2Proof/Machine/Filter.lean ====
section
/-!
DEFINITION. The cascaded biquad filter (spec/42_cascaded_filter.md R140 to R146).
-/

namespace Sys2Proof.Machine

/-- The cutoff FLT.COEF uses: clamped to [20, 0.45*FS]; the stored one keeps its value (R141). -/
def effectiveCutoff (fs cutoff : Rat) : Rat := clamp cutoff 20 (9 / 20 * fs)

/-- The Q FLT.COEF uses: clamped to [0.1, 10] (R141). -/
def effectiveQ (q : Rat) : Rat := clamp q (1 / 10) 10

/-- alpha = sin(omega0) / (2 Q) (R141). -/
def filterAlpha (fs cutoff q : Rat) : Exact :=
  (sint (.rat (effectiveCutoff fs cutoff / fs))).over (.rat (2 * effectiveQ q))

/-- The numerators n0, n1, n2 of each filter type, from cos(omega0) and alpha (R141). -/
def numerators (t : FilterType) (cs al : Exact) : Exact × Exact × Exact :=
  let one : Exact := .rat 1
  let two : Exact := .rat 2
  match t with
  | .low => ((one.minus cs).over two, one.minus cs, (one.minus cs).over two)
  | .band => (al, .zero, al.neg)
  | .high => ((one.plus cs).over two, (one.plus cs).neg, (one.plus cs).over two)

/-- FLT.COEF (R141). -/
def filterCoeffs (fs : Rat) (t : FilterType) (cutoff q : Rat) : Coeffs :=
  let cs := cost (effectiveCutoff fs cutoff / fs)
  let al := filterAlpha fs cutoff q
  let a0 := (Exact.rat 1).plus al
  let n := numerators t cs al
  ⟨n.1.over a0, n.2.1.over a0, n.2.2.over a0, ((Exact.rat (-2)).times cs).over a0, ((Exact.rat 1).minus al).over a0⟩

/-- The difference equation of one section (R142). -/
def sectionOutput (c : Coeffs) (h : StageState) (x : Exact) : Exact :=
  ((((c.b0.times x).plus (c.b1.times h.x1)).plus (c.b2.times h.x2)).minus (c.a1.times h.y1)).minus (c.a2.times h.y2)

/-- The history of a section shifted by one sample, the old x1 and y1 moved down first (R142). -/
def sectionShift (h : StageState) (x y : Exact) : StageState := ⟨x, h.x1, y, h.y1⟩

/-- Section k of a filter with `nst` sections in use: skipped, state untouched, when k >= nst (R142). -/
def sectionStep (c : Coeffs) (nst k : Nat) (h : StageState) (x : Exact) : StageState × Exact :=
  if k < nst then (sectionShift h x (sectionOutput c h x), sectionOutput c h x) else (h, x)

/-- FLT.PROCESS: the sections in use, in series, each fed by the one before it (R142). -/
def filterProcess (c : Coeffs) (nst : Nat) (st : Vector StageState 4) (x : Exact) : Vector StageState 4 × Exact :=
  let r0 := sectionStep c nst 0 st[0] x
  let r1 := sectionStep c nst 1 st[1] r0.2
  let r2 := sectionStep c nst 2 st[2] r1.2
  let r3 := sectionStep c nst 3 st[3] r2.2
  (#v[r0.1, r1.1, r2.1, r3.1], r3.2)

/-- The stage count latched from FLT_STAGES (R144). -/
def stageCount (w : Word) : Nat := (clampInt (s32 w) 0 4).toNat

/-- FLT.SET, the patterns of FLT_TYPE, FLT_CUTOFF, FLT_Q and FLT_STAGES: `dirty` is set only when a stored value
changes, and never cleared here (R144). -/
def Voice.filterSet (v : Voice) (t cu qq ns : Word) : Voice :=
  if v.ftype = filterTypeOf t ∧ v.cutoff = f32val cu ∧ v.q = f32val qq ∧ v.nst = stageCount ns then v
  else { v with ftype := filterTypeOf t, cutoff := f32val cu, q := f32val qq, nst := stageCount ns, dirty := true }

/-- The recomputation of a dirty voice: new coefficients, all four stage records zeroed, `dirty` cleared (R145). -/
def Voice.refreshFilter (fs : Rat) (v : Voice) : Voice :=
  if v.dirty then
    { v with
      coeffs := filterCoeffs fs v.ftype v.cutoff v.q
      st := Vector.replicate 4 StageState.zero
      dirty := false }
  else v

end Sys2Proof.Machine
end

