-- ==== Sys2Proof/Machine/Osc.lean ====
section
/-!
DEFINITION. The oscillator bank (spec/41_oscillator_bank.md R130 to R137).
-/

namespace Sys2Proof.Machine

/-- WAVE(w, p), for p in [0,1) (R132). -/
def waveValue (w : Wave) (p : Exact) : Exact :=
  match w with
  | .saw => ((Exact.rat 2).times p).minus (.rat 1)
  | .square => p.squareWave
  | .sine => sint p

/-- The phase increment of a sub-oscillator at base frequency f (R131). -/
def Osc.increment (fs : Rat) (f : Exact) (o : Osc) : Exact :=
  ((f.over (.rat fs)).times (exp2 ((o.oct : Rat) / 12))).times (exp2 (o.det / 1200))

/-- Advance the phase first, then wrap it into [0,1) (R131). -/
def Osc.advance (fs : Rat) (f : Exact) (o : Osc) : Osc :=
  { o with phase := (o.phase.plus (o.increment fs f)).wrap }

/-- The value read out at the present phase; the offset is never accumulated (R131). -/
def Osc.value (o : Osc) : Exact := waveValue o.wave (o.phase.plus (.rat o.phoff)).wrap

/-- The bank after one advance of each sub-oscillator. -/
def bankAdvance (fs : Rat) (f : Exact) (o : Vector Osc 3) : Vector Osc 3 :=
  #v[o[0].advance fs f, o[1].advance fs f, o[2].advance fs f]

/-- The mean of the three read-outs: always a division by 3 (R131). -/
def bankValue (o : Vector Osc 3) : Exact := ((o[0].value.plus o[1].value).plus o[2].value).over (.rat 3)

/-- OSC.RENDER_SAMPLE: the bank after the advance and its value there (R131). -/
def oscRenderSample (fs : Rat) (f : Exact) (o : Vector Osc 3) : Vector Osc 3 × Exact :=
  (bankAdvance fs f o, bankValue (bankAdvance fs f o))

/-- OSC.SET_WAVE, `w` the pattern read from OSCj_WAVE (R133). -/
def Osc.setWave (o : Osc) (w : Word) : Osc := { o with wave := waveOf w }

/-- OSC.SET_OCT, `w` the pattern read from OSCj_OCT (R134). -/
def Osc.setOct (o : Osc) (w : Word) : Osc := { o with oct := clampInt (s32 w) (-24) 24 }

/-- OSC.SET_DETUNE, `w` the pattern read from OSCj_DETUNE (R135). -/
def Osc.setDetune (o : Osc) (w : Word) : Osc := { o with det := clamp (f32val w) (-200) 200 }

/-- OSC.SET_PHASE, `w` the pattern read from OSCj_PHASE, degrees (R136). -/
def Osc.setPhase (o : Osc) (w : Word) : Osc := { o with phoff := wrap360 (f32val w) / 360 }

end Sys2Proof.Machine
end

