-- ==== Sys2Proof/Machine/Voice.lean ====
section
/-!
DEFINITION. The voice: bank, filter, envelope (spec/44_voice.md R160 to R167), and the latch of the parameter
registers into one voice (48_orchestrator.md R205).
-/

namespace Sys2Proof.Machine

/-- VOICE.IS_ACTIVE, the source's long form with EPS (R164). -/
def Voice.active (eps : Rat) (v : Voice) : Bool := decide (v.env.stage ≠ .idle) || decide (eps < v.env.level)

/-- VOICE.NOTE_ON: the fundamental and the attack, nothing else (R162). -/
def Voice.noteOn (fs : Rat) (f : Exact) (v : Voice) : Voice := { v with freq := f, env := v.env.noteOn fs }

/-- VOICE.NOTE_OFF: the release, nothing else (R163). -/
def Voice.noteOff (fs : Rat) (v : Voice) : Voice := { v with env := v.env.noteOff fs }

/-- VOICE.SET_GAIN, the pattern of GAIN, unclamped (R165). -/
def Voice.setGain (v : Voice) (g : Word) : Voice := { v with gain := f32val g }

/-- One frame of VOICE.RENDER: bank, filter, envelope tick, and the contribution `gain * level * y` with the level
after the tick (R161). -/
def Voice.frame (fs : Rat) (v : Voice) : Voice × Exact :=
  let bank := oscRenderSample fs v.freq v.osc
  let y := filterProcess v.coeffs v.nst v.st bank.2
  let env := v.env.tick fs
  ({ v with osc := bank.1, st := y.1, env := env }, (Exact.rat (v.gain * env.level)).times y.2)

/-- n frames, the contributions in frame order; all n run even past Idle (R161). -/
def Voice.frames (fs : Rat) : Nat → Voice → Voice × List Exact
  | 0, v => (v, [])
  | n + 1, v =>
    let first := v.frame fs
    let rest := Voice.frames fs n first.1
    (rest.1, first.2 :: rest.2)

/-- `OUT[t] <- OUT[t] + x[t]` for the frames of `xs`, the later frames untouched (R161, R166, R208). -/
def addFrames : List Exact → List Exact → List Exact
  | o :: os, x :: xs => o.plus x :: addFrames os xs
  | os, [] => os
  | [], _ => []

/-- VOICE.RENDER(i, n): the dirty step once, before the first frame and also when n = 0, then n frames (R161). -/
def Voice.render (fs : Rat) (n : Nat) (v : Voice) : Voice × List Exact :=
  Voice.frames fs n (v.refreshFilter fs)

/-- The four oscillator setters of sub-oscillator j, from the patterns a callback has read (R205). -/
def Osc.latch (r : RegFile) (j : Fin 3) (o : Osc) : Osc :=
  (((o.setWave r.oscWave[j]).setOct r.oscOct[j]).setDetune r.oscDetune[j]).setPhase r.oscPhase[j]

/-- The setters of phase 5 for one voice, from the patterns a callback has read (R205). -/
def Voice.latch (r : RegFile) (v : Voice) : Voice :=
  let v : Voice := { v with osc := #v[v.osc[0].latch r 0, v.osc[1].latch r 1, v.osc[2].latch r 2] }
  let v := v.filterSet r.fltType r.fltCutoff r.fltQ r.fltStages
  let v : Voice := { v with env := v.env.set r.envAttack r.envDecay r.envSustain r.envRelease }
  v.setGain r.gain

end Sys2Proof.Machine
end

