-- ==== Sys2Proof/Machine/Pool.lean ====
section
/-!
DEFINITION. The voice pool: allocation, stealing, mixing, resize (spec/45_voice_pool.md R170 to R178).
-/

namespace Sys2Proof.Machine

/-- FREQ(oct, d) = 440 * EXP2((midi - 69) / 12), midi = (oct + 1) * 12 + d (R171). -/
def noteFreq (oct : Int) (d : Degree) : Exact :=
  (Exact.rat Config.a4Hz).times (exp2 (((((oct + 1) * 12 + (d.val : Int)) - 69 : Int) : Rat) / 12))

/-- A voice POOL.NOTE_ON may take without stealing: unassigned and not active (R173). -/
def Voice.free (eps : Rat) (v : Voice) : Bool := v.note.isNone && !v.active eps

/-- The lowest index of a free voice (R173). -/
def freeIndex (eps : Rat) : List Voice → Option Nat
  | [] => none
  | v :: vs => if v.free eps then some 0 else (freeIndex eps vs).map (· + 1)

/-- The least `lastUsed` among voices, compared as unsigned numbers (R173, 93_implementation_defined.md U5). -/
def minLastUsed : List Voice → Nat
  | [] => 0
  | [v] => v.lastUsed.toNat
  | v :: w :: vs => min v.lastUsed.toNat (minLastUsed (w :: vs))

/-- The lowest index of a voice with the least `lastUsed` (R173). -/
def lruIndex (vs : List Voice) : Nat := vs.findIdx fun v => v.lastUsed.toNat == minLastUsed vs

/-- The voice POOL.NOTE_ON takes (R173). -/
def victimIndex (eps : Rat) (vs : List Voice) : Nat := (freeIndex eps vs).getD (lruIndex vs)

/-- The voice taken for degree d: bound, unreleased, stamped, started (R173, R162). -/
def Voice.take (fs : Rat) (d : Degree) (oct : Int) (stamp : BitVec 64) (v : Voice) : Voice :=
  Voice.noteOn fs (noteFreq oct d) { v with note := some d, released := false, lastUsed := stamp }

/-- POOL.NOTE_ON(d, oct) (R173). -/
def State.poolNoteOn (s : State) (d : Degree) (oct : Int) : State :=
  let idx := victimIndex s.params.eps s.voices
  let s := if (freeIndex s.params.eps s.voices).isNone then s.flag .steal else s
  (s.withTick (s.tick + 1)).withVoices (s.voices.modify idx (Voice.take s.params.fs d oct (s.tick + 1)))

/-- What POOL.NOTE_OFF(d) does with one voice: an active voice bound to d is released, the binding kept (R174). -/
def Voice.releaseIf (p : Params) (d : Degree) (v : Voice) : Voice :=
  if v.active p.eps ∧ v.note = some d then { v.noteOff p.fs with released := true } else v

/-- POOL.NOTE_OFF(d): every matching voice, not only the first (R174). -/
def State.poolNoteOff (s : State) (d : Degree) : State :=
  s.withVoices (s.voices.map (Voice.releaseIf s.params d))

/-- The reclamation test, made after the render (R175). -/
def Voice.reclaim (eps : Rat) (v : Voice) : Voice :=
  if !v.active eps && v.released then { v with note := none } else v

/-- One voice's turn in POOL.RENDER_MIXED: rendered if active at the start of the block, then tested for reclamation
(R175). -/
def Voice.mixInto (p : Params) (n : Nat) (v : Voice) (out : List Exact) : Voice × List Exact :=
  if v.active p.eps then
    ((v.render p.fs n).1.reclaim p.eps, addFrames out (v.render p.fs n).2)
  else (v.reclaim p.eps, out)

/-- The voices in ascending index order, each adding to the same buffer (R175). -/
def mixVoices (p : Params) (n : Nat) : List Voice → List Exact → List Voice × List Exact
  | [], out => ([], out)
  | v :: vs, out =>
    let r := v.mixInto p n out
    let rest := mixVoices p n vs r.2
    (r.1 :: rest.1, rest.2)

/-- POOL.RENDER_MIXED(n) (R175). -/
def State.poolRenderMixed (s : State) (n : Nat) : State :=
  let r := mixVoices s.params n s.voices s.out
  (s.withVoices r.1).withOut r.2

/-- POOL.RESIZE(k): every voice replaced by a fresh one, TICK zeroed, the release schedule untouched (R176). -/
def State.poolResize (s : State) (k : Nat) : State :=
  (s.withVoices (List.replicate k Voice.reset)).withTick 0

end Sys2Proof.Machine
end

