-- ==== Sys2Proof/Machine/Seq.lean ====
section
/-!
DEFINITION. The step sequencer (spec/46_step_sequencer.md R179 to R184).

The pieces below are shared by the whole CALLBACK and by its event-by-event form (Machine/Callback.lean).
-/

namespace Sys2Proof.Machine

/-- SPS(bpm) = FS * 60 / bpm_eff / 4 with bpm_eff = 120 when bpm <= 0 (R180). -/
def stepLength (fs : Rat) (bpm : Int) : Rat := fs * 60 / ((if bpm ≤ 0 then 120 else bpm : Int) : Rat) / 4

/-- The octave of every note-on of a callback: OCTAVE clamped to [-1, 9] (R202). -/
def clampedOctave (w : Word) : Int := clampInt (s32 w) (-1) 9

/-- PLAY's bit 0 (R181). -/
def isPlaying (w : Word) : Bool := w.getLsbD 0

/-- `ACC <- ACC + n` when playing, `ACC <- 0` when not (R181). -/
def State.seqAdvanceAcc (s : State) (playing : Bool) (n : Nat) : State :=
  s.withSeq { s.seq with acc := if playing then s.seq.acc + (n : Rat) else 0 }

/-- One step entered: `ACC <- ACC - sps`, `STEP <- (STEP + 1) mod 16` (R181). -/
def State.seqEnterStep (s : State) (sps : Rat) : State :=
  s.withSeq { s.seq with acc := s.seq.acc - sps, step := s.seq.step + 1 }

/-- One trigger: POOL.NOTE_ON and the pending release `POS + (4/5) * sps`, POS the position at the block's start; a new
trigger of a degree overwrites its pending time (R181). -/
def State.seqTrigger (s : State) (d : Degree) (oct : Int) (sps : Rat) : State :=
  let s := s.poolNoteOn d oct
  s.withSeq { s.seq with
    relp := s.seq.relp.set d.val true d.isLt
    relt := s.seq.relt.set d.val ((s.seq.pos.toNat : Rat) + Config.gate * sps) d.isLt }

/-- The release check of one degree (R181). -/
def State.seqReleaseOne (s : State) (d : Degree) : State :=
  if s.seq.relp[d] = true ∧ s.seq.relt[d] ≤ (s.seq.pos.toNat : Rat) then
    let s := s.poolNoteOff d
    s.withSeq { s.seq with relp := s.seq.relp.set d.val false d.isLt }
  else s

/-- The release check, ascending degree (R181). -/
def State.seqReleaseAll (s : State) : State := degrees.foldl State.seqReleaseOne s

/-- `POS <- (POS + n) mod 2^64` (R181). -/
def State.seqAdvancePos (s : State) (n : Nat) : State :=
  s.withSeq { s.seq with pos := s.seq.pos + BitVec.ofNat 64 n }

/-- One turn of the advance loop that enters a step: the grid register of the step just entered is read, and each of
its degrees triggers, ascending (R181). -/
def State.seqPlayStep (s : State) (oct : Int) (sps : Rat) : State :=
  let s := s.seqEnterStep sps
  (degreesIn s.regs.grid[s.seq.step]).foldl (fun s d => s.seqTrigger d oct sps) s

/-- `while ACC >= sps`, for at most `fuel` turns (R181). -/
def State.seqLoop (oct : Int) (sps : Rat) : Nat → State → State
  | 0, s => s
  | fuel + 1, s => if sps ≤ s.seq.acc then State.seqLoop oct sps fuel (s.seqPlayStep oct sps) else s

/-- As many turns as the loop can take: floor(ACC / sps) of them enter a step. -/
def loopFuel (acc sps : Rat) : Nat := (acc / sps).floor.toNat

/-- SEQ.ADVANCE(n, oct), the patterns of BPM and PLAY as read (R181). -/
def State.seqAdvance (s : State) (n : Nat) (oct : Int) (bpm play : Word) : State :=
  let sps := stepLength s.params.fs (s32 bpm)
  let s := s.seqAdvanceAcc (isPlaying play) n
  let s := if isPlaying play then State.seqLoop oct sps (loopFuel s.seq.acc sps) s else s
  s.seqReleaseAll.seqAdvancePos n

end Sys2Proof.Machine
end

