-- ==== Sys2Proof/WellFormed.lean ====
section
/-!
DEFINITION. Which commands are well formed under given parameters (spec/30_encoding.md R111).

Every other requirement of R111 (reserved field zero, unused fields zero) is a matter of the word and is checked
by the decoder; an `Instr` cannot break it. The frame bound of CALLBACK depends on the OPEN parameter MAX_FRAMES,
so it is a check on the instruction.
-/

namespace Sys2Proof

/-- R111: a CALLBACK whose frame count exceeds MAX_FRAMES is an illegal word; every other command is well formed
with any operand. A JBPUSH of any length is a legal command, with a malformed payload perhaps (R190). -/
def Instr.wellFormed (p : Params) : Instr → Bool
  | .nop _ _ => true
  | .reset => true
  | .wr _ _ => true
  | .rd _ => true
  | .noteon _ => true
  | .noteoff _ => true
  | .callback n => decide (n.toNat ≤ p.maxFrames)
  | .jbpush _ => true

end Sys2Proof
end

