-- ==== Sys2Proof/Machine/Callback.lean ====
section
/-!
DEFINITION. The callback orchestrator and the CALLBACK command (spec/48_orchestrator.md R200 to R211).

The eight phases stand first, each as its rule gives it. `State.callbackWhole` runs them in order with no other agent
in between. After them stands the same callback as a sequence of events (20_memory.md R80, R81), between which the
other ports' commands may fall; the pieces are the same.
-/

namespace Sys2Proof.Machine

/-! ### The phases -/

/-- OUT with its first n entries 0 (R201). -/
def zeroFirst : Nat → List Exact → List Exact
  | n + 1, _ :: os => .zero :: zeroFirst n os
  | _, os => os

/-- Phase 1 (R201). -/
def State.phaseZero (s : State) (n : Nat) : State := s.withOut (zeroFirst n s.out)

/-- Phase 2: the octave, then SEQ.ADVANCE (R202). -/
def State.phaseSequencer (s : State) (n : Nat) : State :=
  s.seqAdvance n (clampedOctave s.regs.octave) s.regs.bpm s.regs.play

/-- The note-ons of a drained mask, ascending degree (R203). -/
def State.requestOns (s : State) (on : Word) (oct : Int) : State :=
  (degreesIn on).foldl (fun s d => s.poolNoteOn d oct) s

/-- The note-offs of a drained mask, ascending degree (R203). -/
def State.requestOffs (s : State) (off : Word) : State := (degreesIn off).foldl State.poolNoteOff s

/-- Phase 3: both masks exchanged with 0, then all note-ons, then all note-offs; `oct` is the octave phase 2 read
(R203). -/
def State.phaseRequests (s : State) (oct : Int) : State :=
  let on := s.regs.noteOnReq
  let off := s.regs.noteOffReq
  (((s.regWrite .noteOnReq 0).regWrite .noteOffReq 0).requestOns on oct).requestOffs off

/-- The voice count POLY_TARGET asks for, clamped to [1, MAX_VOICES] (R204). -/
def targetVoices (p : Params) (w : Word) : Nat := (clampInt (s32 w) 1 (p.maxVoices : Int)).toNat

/-- Phase 4, the pattern of POLY_TARGET as read: a resize exactly when the clamped target differs from NV (R204). -/
def State.phaseResize (s : State) (poly : Word) : State :=
  if targetVoices s.params poly = s.nv then s else s.poolResize (targetVoices s.params poly)

/-- Phase 5, the patterns as read: every voice latches the same values (R205). -/
def State.phaseLatch (s : State) (r : RegFile) : State := s.withVoices (s.voices.map (Voice.latch r))

/-- Phase 6 (R206). -/
def State.phaseRender (s : State) (n : Nat) : State := s.poolRenderMixed n

/-- A received sample as mixed: a NaN or an infinity counts as 0 (R208). -/
def remoteSample (w : Word) : Rat := if f32NonFinite w then 0 else f32val w

/-- `OUT[t] <- OUT[t] + rg * x` for the samples a pop returned (R208). -/
def State.mixRemote (s : State) (samples : List Word) (remoteGain : Word) : State :=
  s.withOut (addFrames s.out (samples.map fun w => .rat (f32val remoteGain * remoteSample w)))

/-- Phase 7: JB.POP, then the mix at REMOTE_GAIN; a withheld pop leaves queue and OUT as they are (R192, R208). -/
def State.phaseRemote (s : State) (n : Nat) : State :=
  if popWithheld s.regs.jbTarget s.queue then s.flag .jbUnderrun
  else (s.withQueue s.queue.tail).mixRemote (popSamples n s.queue) s.regs.remoteGain

/-- Phase 8: the n words on AUDIO.out and the same words, little-endian, on NET.tx, as one event (R76, R209). -/
def State.phaseEmit (s : State) (n : Nat) : State :=
  let block := (s.out.take n).map Exact.emitted
  s.withIo { s.io with
    audioOut := s.io.audioOut ++ [block]
    netTx := s.io.netTx ++ [block.flatMap Sample.bytes] }

/-- PH back to 0, nothing in progress (R22). -/
def State.callbackDone (s : State) : State := ((s.withPh 0).withCb Progress.none).withGrain .whole

/-- Phases 4 to 7 after the note requests, each reading its registers as they stand (R200). -/
def State.phasesAfterRequests (s : State) (n : Nat) : State :=
  let s := s.phaseResize s.regs.polyTarget
  let s := s.phaseLatch s.regs
  let s := s.phaseRender n
  s.phaseRemote n

/-- CALLBACK n, all eight phases in order, no other agent in between (R200). -/
def State.callbackWhole (s : State) (n : Nat) : State :=
  let oct := clampedOctave s.regs.octave
  let s := s.phaseZero n
  let s := s.phaseSequencer n
  let s := s.phaseRequests oct
  let s := s.phasesAfterRequests n
  (s.phaseEmit n).callbackDone

/-! ### The same callback as a sequence of events (R80, R81) -/

/-- The registers of phase 2's first row (R80). -/
def timingRegs : List RegName := [.octave, .bpm, .play]

/-- The 21 latched registers of phase 5 (R80, R205). -/
def paramRegs : List RegName :=
  [.oscWave 0, .oscOct 0, .oscDetune 0, .oscPhase 0,
   .oscWave 1, .oscOct 1, .oscDetune 1, .oscPhase 1,
   .oscWave 2, .oscOct 2, .oscDetune 2, .oscPhase 2,
   .fltType, .fltCutoff, .fltQ, .fltStages, .envAttack, .envDecay, .envSustain, .envRelease, .gain]

/-- The phase an event belongs to (R22, R80). -/
def Event.phase : Event → Fin 9
  | .zero => 1
  | .readTiming _ => 2
  | .seqAdvance => 2
  | .seqStep => 2
  | .seqTrigger _ => 2
  | .seqRelease => 2
  | .drainOn => 3
  | .drainOff => 3
  | .requestOn _ => 3
  | .requestOffs => 3
  | .readPoly _ => 4
  | .resize => 4
  | .readParams _ => 5
  | .latch => 5
  | .render => 6
  | .pop => 7
  | .underrun => 7
  | .readRemote _ => 7
  | .mix => 7
  | .emit => 8

/-- The events every callback starts with, in phase order; `seqStep`, the triggers, the requests and the underrun flag
are added as they come due (R80, R200). -/
def callbackEvents : List Event :=
  [.zero, .readTiming timingRegs, .seqAdvance, .seqRelease, .drainOn, .drainOff, .requestOffs,
   .readPoly [.polyTarget], .resize, .readParams paramRegs, .latch, .render, .pop,
   .readRemote [.remoteGain], .mix, .emit]

/-- The start of a CALLBACK: PH becomes 1 (R22). -/
def State.callbackBegin (s : State) (n : Word) : State :=
  ((s.withPh 1).withCb ⟨n, callbackEvents, RegFile.blank, []⟩).withGrain .whole

/-- Put events before the ones still to do. -/
def State.pushEvents (s : State) (es : List Event) : State := s.withCb { s.cb with todo := es ++ s.cb.todo }

/-- One RegRead of the callback: the pattern goes where `seen` keeps this register (R80, R210). -/
def State.see (s : State) (r : RegName) : State :=
  s.withCb { s.cb with seen := s.cb.seen.write r (s.regRead r) }

/-- One read out of an unordered group: `pick` chooses which (R81); the rest of the group stays to be done. -/
def State.readOneOf (s : State) (group : List RegName → Event) (pick : Nat) (rs : List RegName) : State :=
  match rs[pick % rs.length]? with
  | none => s
  | some r =>
    let s := s.see r
    if (rs.eraseIdx (pick % rs.length)).isEmpty then s
    else s.pushEvents [group (rs.eraseIdx (pick % rs.length))]

/-- The octave a callback in progress has read, clamped (R202). -/
def Progress.octave (c : Progress) : Int := clampedOctave c.seen.octave

/-- The step length from the BPM a callback in progress has read (R180). -/
def State.progressSps (s : State) : Rat := stepLength s.params.fs (s32 s.cb.seen.bpm)

/-- One event of the callback in progress, already taken off the list (R80, R200). -/
def State.runEvent (s : State) (pick : Nat) (e : Event) : State :=
  match e with
  | .zero => s.phaseZero (u32 s.cb.n)
  | .readTiming rs => s.readOneOf .readTiming pick rs
  | .seqAdvance =>
    let t := s.seqAdvanceAcc (isPlaying s.cb.seen.play) (u32 s.cb.n)
    if isPlaying s.cb.seen.play then t.pushEvents [.seqStep] else t
  | .seqStep =>
    if s.progressSps ≤ s.seq.acc then
      let t := (s.seqEnterStep s.progressSps)
      let t := t.see (.grid t.seq.step)
      t.pushEvents ((degreesIn t.cb.seen.grid[t.seq.step]).map .seqTrigger ++ [.seqStep])
    else s
  | .seqTrigger d => s.seqTrigger d s.cb.octave s.progressSps
  | .seqRelease => s.seqReleaseAll.seqAdvancePos (u32 s.cb.n)
  | .drainOn => (s.see .noteOnReq).regWrite .noteOnReq 0
  | .drainOff =>
    let t := (s.see .noteOffReq).regWrite .noteOffReq 0
    t.pushEvents ((degreesIn t.cb.seen.noteOnReq).map .requestOn)
  | .requestOn d => s.poolNoteOn d s.cb.octave
  | .requestOffs => s.requestOffs s.cb.seen.noteOffReq
  | .readPoly rs => s.readOneOf .readPoly pick rs
  | .resize => s.phaseResize s.cb.seen.polyTarget
  | .readParams rs => s.readOneOf .readParams pick rs
  | .latch => s.phaseLatch s.cb.seen
  | .render => s.phaseRender (u32 s.cb.n)
  | .pop =>
    if popWithheld s.regs.jbTarget s.queue then s.pushEvents [.underrun]
    else
      (s.withCb { s.cb with popped := popSamples (u32 s.cb.n) s.queue }).withQueue s.queue.tail
  | .underrun => s.flag .jbUnderrun
  | .readRemote rs => s.readOneOf .readRemote pick rs
  | .mix => s.mixRemote s.cb.popped s.cb.seen.remoteGain
  | .emit => s.phaseEmit (u32 s.cb.n)

/-- PH after an event: the phase of the next one, 0 when none is left (R22). -/
def State.settlePh (s : State) : State :=
  match s.cb.todo with
  | [] => s.callbackDone
  | e :: _ => s.withPh e.phase

/-- The next event of the callback in progress (R80). -/
def State.audioEvent (s : State) (pick : Nat) : State :=
  match s.cb.todo with
  | [] => s.callbackDone
  | e :: rest => ((s.withCb { s.cb with todo := rest }).runEvent pick e).settlePh

/-! ### The command -/

/-- CALLBACK n (R200). One that arrives while a callback runs waits (R78); one with n > MAX_FRAMES is an illegal word:
ILLCMD and nothing else (R111, R113). Otherwise the turn's grain says whether the whole callback runs now or only starts,
its events falling in later turns (R80, R81; notes/assumptions/5.md). -/
def execCallback (n : Word) (s : State) : Host.Outcome State Fault Refusal :=
  if s.ph ≠ 0 then .next (s.hold (.callback n))
  else if (Instr.callback n).wellFormed s.params then
    match s.grain with
    | .whole => .next (s.callbackWhole (u32 n))
    | .split => .next (s.callbackBegin n)
  else .next ((s.withGrain .whole).flag .illcmd)

end Sys2Proof.Machine
end

