-- ==== Sys2Proof/Machine/Control.lean ====
section
/-!
DEFINITION. The control-port commands NOP, RESET, WR, RD, NOTEON, NOTEOFF (spec/49_host_commands.md R216 to R226).
-/

namespace Sys2Proof.Machine

/-- NOP: nothing; words with non-zero addr or data are hints and behave the same (R216, R109). -/
def execNop (_addr : Addr) (_data : Word) (s : State) : Host.Outcome State Fault Refusal := .next s

/-- Every piece of state at its reset value; the OPEN parameters and what stands on the ports stay (R217, R62). -/
def State.resetCommand (s : State) : State :=
  ((State.resetOf s.params).withIo s.io).withSched s.sched

/-- RESET: held until PH = 0, then every piece of state to its reset value (R217). -/
def execReset (s : State) : Host.Outcome State Fault Refusal :=
  if s.ph ≠ 0 then .next (s.hold .reset) else .next s.resetCommand

/-- The pattern a WR stores in a register of a given type that is not STATUS; `none` where the value is refused: a
non-finite pattern for an f32 register, a code above 2 for an enum register (R218, R221). -/
def storedPattern (t : RegType) (data : Word) : Option Word :=
  match t with
  | .flags => some data
  | .bit => some (data &&& 1#32)
  | .mask12 => some (data &&& 0xFFF#32)
  | .s32 => some data
  | .u32 => some data
  | .enum => if 2 < u32 data then none else some data
  | .f32 => if f32NonFinite data then none else some data

/-- WR to a mapped, writable register (R218): STATUS is write-one-to-clear, a refused value sets BADVAL and changes
nothing else (R221). -/
def State.writeReg (s : State) (name : RegName) (data : Word) : State :=
  if name = .status then s.regWrite .status (clearFlags s.regs.status data)
  else
    match storedPattern name.type data with
    | none => s.flag .badval
    | some w => s.regWrite name w

/-- WR addr, data: the address check before the value check (R218, R222, R243). No response. -/
def execWr (addr : Addr) (data : Word) (s : State) : Host.Outcome State Fault Refusal :=
  match regAt addr with
  | none => .next (s.flag .badaddr)
  | some name => if name.readOnly then .next (s.flag .badaddr) else .next (s.writeReg name data)

/-- RD addr: exactly one response word; 0 and BADADDR for an unmapped address (R219, R222). -/
def execRd (addr : Addr) (s : State) : Host.Outcome State Fault Refusal :=
  match regAt addr with
  | none => .next ((s.flag .badaddr).respond 0)
  | some name => .next (s.respond (s.regRead name))

/-- NOTEON mask: `RegOr(NOTE_ON_REQ, mask)` (R223). -/
def execNoteon (mask : BitVec 12) (s : State) : Host.Outcome State Fault Refusal :=
  .next (s.regOr .noteOnReq (mask.setWidth 32))

/-- NOTEOFF mask: `RegOr(NOTE_OFF_REQ, mask)` (R224). -/
def execNoteoff (mask : BitVec 12) (s : State) : Host.Outcome State Fault Refusal :=
  .next (s.regOr .noteOffReq (mask.setWidth 32))

end Sys2Proof.Machine
end

