-- ==== Sys2Proof/Machine/Fetch.lean ====
section
/-!
DEFINITION. Whose turn it is and what the port brings (spec/20_memory.md R78, R81; 30_encoding.md R112, R113). There is
no instruction fetch (R86): a command word is consumed once from its port.
-/

namespace Sys2Proof.Machine

/-- What a turn comes to before any instruction runs. -/
inductive Fetched where
  /-- The turn is over: nobody's turn, nothing waiting, an illegal word discarded, or an event of a callback. -/
  | over (s : State)
  /-- The command runs in this state, its word already taken off the port. -/
  | run (i : Instr) (s : State)
  deriving DecidableEq, Repr

/-- An illegal word: discarded, STATUS.ILLCMD set, no response and no payload taken (R113). -/
def State.discardIllegal (s : State) : State := s.flag .illcmd

/-- A port takes its next word (R78); legal only on its own port (R112). `g` is the grain of the turn. -/
def takeCommand (p : Port) (g : Grain) (s : State) : Fetched :=
  match s.io.pending p with
  | [] => .over s
  | w :: ws =>
    let t := s.withIo (s.io.setPending p ws)
    match decodeOn p w with
    | .ok i => .run i (t.withGrain g)
    | .error _ => .over t.discardIllegal

/-- AUDIO's turn: the next command when PH = 0, else the next event of the callback in progress (R78, R80). -/
def audioTurn (g : Grain) (pick : Nat) (s : State) : Fetched :=
  if s.ph = 0 then takeCommand .audio g s else .over (s.audioEvent pick)

/-- One turn (R81). -/
def serveTurn (t : Turn) (s : State) : Fetched :=
  match t with
  | .ctrl => takeCommand .ctrl .whole s
  | .net => takeCommand .net .whole s
  | .audio => audioTurn .whole 0 s
  | .audioEvent pick => audioTurn .split pick s

/-- The next turn of the schedule; with none given, no command arrives and all state is held unchanged (R252). -/
def fetch (s : State) : Fetched :=
  match s.sched with
  | [] => .over s
  | t :: rest => serveTurn t (s.withSched rest)

/-- The turn that serves a port. -/
def turnOf : Port → Turn
  | .ctrl => .ctrl
  | .audio => .audio
  | .net => .net

/-- The state in which the very next step takes `w` from port `p`: the port's turn comes next and the word stands at the
head of the port. -/
def State.offer (s : State) (p : Port) (w : Command) : State :=
  (s.withIo (s.io.setPending p (w :: s.io.pending p))).withSched (turnOf p :: s.sched)

/-- What a command needs beside its word to run at once: RESET and CALLBACK need PH = 0 (R217, R78), JBPUSH its payload,
here nbytes zero bytes (R190). -/
def State.ready (s : State) (i : Instr) : State :=
  match i with
  | .reset => s.callbackDone
  | .callback _ => s.callbackDone
  | .jbpush nbytes => s.withIo { s.io with netRx := List.replicate (u32 nbytes) 0 ++ s.io.netRx }
  | .nop _ _ => s
  | .wr _ _ => s
  | .rd _ => s
  | .noteon _ => s
  | .noteoff _ => s

/-- A host agent issues one command word: on the command's own port, or on CTRL if it is illegal (notes/assumptions/13.md). -/
def State.issue (s : State) (w : Command) : State :=
  match decode w with
  | .ok i => (s.ready i).offer i.port w
  | .error _ => s.offer .ctrl w

end Sys2Proof.Machine
end

