-- ==== Sys2Proof/Machine/Dispatch.lean ====
section
/-!
DEFINITION. The meaning of each command, one arm per constructor (spec/30_encoding.md R103).
-/

namespace Sys2Proof.Machine

def exec (i : Instr) (s : State) : Host.Outcome State Fault Refusal :=
  match i with
  | .nop addr data => Sys2Proof.Machine.execNop addr data s
  | .reset => Sys2Proof.Machine.execReset s
  | .wr addr data => Sys2Proof.Machine.execWr addr data s
  | .rd addr => Sys2Proof.Machine.execRd addr s
  | .noteon mask => Sys2Proof.Machine.execNoteon mask s
  | .noteoff mask => Sys2Proof.Machine.execNoteoff mask s
  | .callback n => Sys2Proof.Machine.execCallback n s
  | .jbpush nbytes => Sys2Proof.Machine.execJbpush nbytes s

end Sys2Proof.Machine
end

