-- ==== Sys2Proof/Machine/Step.lean ====
section
/-!
DEFINITION. One step of the block: one turn of one agent (spec/20_memory.md R78 to R81), and the state in which the next
step runs a given word.
-/

namespace Sys2Proof.Machine

/-- One turn: the command a port brings runs by `exec`; a turn that brings none is over by itself (Machine/Fetch.lean). -/
def step (s : State) : Host.Outcome State Fault Refusal :=
  match fetch s with
  | .over t => .next t
  | .run i t => exec i t

/-- `s` with the one 64-bit word `w` issued by the host agent whose command it is, so that the next step runs it
(notes/assumptions/13.md). -/
def State.withFetchWord (s : State) (nbits w : Nat) : State := s.issue (BitVec.ofNat 64 (w % 2 ^ nbits))

end Sys2Proof.Machine
end

