-- ==== Sys2Proof/Machine/Asm.lean ====
section
/-!
DEFINITION. The assembler lines and the pseudo-instructions of the spec (spec/30_encoding.md R114, R115), as data: a line
is given by its operands, not by its characters, and assembles to the port, the command word and the payload it stands
for. They are notation over the eight commands and add nothing to the machine.
-/

namespace Sys2Proof.Machine

/-- The waveform's code (R108). -/
def waveCode : Wave → Word
  | .saw => 0
  | .square => 1
  | .sine => 2

/-- The filter type's code (R108). -/
def filterTypeCode : FilterType → Word
  | .low => 0
  | .band => 1
  | .high => 2

/-- A `<value>` operand (R114). -/
inductive AsmValue where
  /-- A decimal or hexadecimal integer, negative allowed. -/
  | int (i : Int)
  /-- A literal with an `f` suffix, by its decimal value. -/
  | float (x : Rat)
  /-- `saw`, `square`, `sine`. -/
  | wave (w : Wave)
  /-- `low`, `band`, `high`. -/
  | filter (t : FilterType)
  deriving DecidableEq, Repr

/-- The 32-bit pattern of a value: two's complement, or `f32rnd` of a literal (R114). -/
def AsmValue.pattern : AsmValue → Word
  | .int i => BitVec.ofInt 32 i
  | .float x => f32rnd x
  | .wave w => waveCode w
  | .filter t => filterTypeCode t

/-- A `<reg>` operand: a register name or a 16-bit address (R114). -/
inductive AsmReg where
  | name (r : RegName)
  | addr (a : Addr)
  deriving DecidableEq, Repr

/-- The address of a `<reg>` operand. -/
def AsmReg.address : AsmReg → Addr
  | .name r => r.addr
  | .addr a => a

/-- One line (R114). -/
inductive AsmLine where
  | nop
  | reset
  | wr (reg : AsmReg) (value : AsmValue)
  | rd (reg : AsmReg)
  | noteon (mask : BitVec 12)
  | noteoff (mask : BitVec 12)
  | callback (n : Word)
  /-- `jbpush <nbytes> ; bytes <payload>`, the payload's first byte first. -/
  | jbpush (nbytes : Word) (payload : List Byte)
  deriving DecidableEq, Repr

/-- The command of a line (R114). -/
def AsmLine.command : AsmLine → Instr
  | .nop => .nop 0 0
  | .reset => .reset
  | .wr reg value => .wr reg.address value.pattern
  | .rd reg => .rd reg.address
  | .noteon mask => .noteon mask
  | .noteoff mask => .noteoff mask
  | .callback n => .callback n
  | .jbpush nbytes _ => .jbpush nbytes

/-- The bytes a line puts on NET.rx (R114). -/
def AsmLine.payload : AsmLine → List Byte
  | .jbpush _ payload => payload
  | .nop => []
  | .reset => []
  | .wr _ _ => []
  | .rd _ => []
  | .noteon _ => []
  | .noteoff _ => []
  | .callback _ => []

/-- The format-C word of a line, every unused field 0 (R114). -/
def AsmLine.word (l : AsmLine) : Command := encode l.command

/-- A host issues a line on a port, its own unless a leading `ctrl:`, `audio:` or `net:` names another (R114): the word
waits on that port and the payload on NET.rx, both last. -/
def AsmLine.issueOn (l : AsmLine) (p : Port) (c : Channels) : Channels :=
  { c.setPending p (c.pending p ++ [l.word]) with netRx := c.netRx ++ l.payload }

/-- The pseudo-instructions that are one command (R115). -/
inductive Pseudo where
  | settarget (n : Word)
  | size
  | play
  | stop
  | bpm (n : Word)
  | poly (n : Word)
  | clrstatus
  | latch
  deriving DecidableEq, Repr

/-- The expansion column of R115. -/
def Pseudo.expand : Pseudo → Instr
  | .settarget n => .wr RegName.jbTarget.addr n
  | .size => .rd RegName.jbSize.addr
  | .play => .wr RegName.play.addr 1
  | .stop => .wr RegName.play.addr 0
  | .bpm n => .wr RegName.bpm.addr n
  | .poly n => .wr RegName.polyTarget.addr n
  | .clrstatus => .wr RegName.status.addr 0x7F
  | .latch => .callback 0

/-- `cell s, d, v` reads GRID[s] first (R115). -/
def cellRead (s : Fin 16) : Instr := .rd (RegName.grid s).addr

/-- ... and then writes it with bit d replaced: `(old AND NOT (1<<d)) OR (v<<d)`; the read-modify-write is the host's and
is not atomic (R115, R274). -/
def cellWrite (s : Fin 16) (d : Degree) (v : Bool) (old : Word) : Instr :=
  .wr (RegName.grid s).addr
    ((old &&& ~~~(1#32 <<< d.val)) ||| ((if v then 1#32 else 0#32) <<< d.val))

end Sys2Proof.Machine
end

