-- ==== Sys2Proof/Safety.lean ====
section
/-!
DEFINITION. The invariants of the block, in the terms the statements use (spec/10_state.md R29, R33 to R37, R45 to R47,
R55, R59; 44_voice.md R167; 47_jitter_buffer.md R191; 48_orchestrator.md R205).
-/

namespace Sys2Proof.Machine

/-- A pattern a register of a given type may hold (R35, R36, R221). -/
def RegType.admits (t : RegType) (w : Word) : Bool :=
  match t with
  | .flags => decide (w.toNat < 128)
  | .bit => decide (w.toNat < 2)
  | .mask12 => decide (w.toNat < 4096)
  | .s32 => true
  | .u32 => true
  | .enum => decide (w.toNat ≤ 2)
  | .f32 => !f32NonFinite w

/-- Every register holds a pattern of its type: reserved bits 0, codes legal, f32 patterns finite (R35, R36, R221). -/
abbrev RegFile.WF (r : RegFile) : Prop := ∀ name : RegName, name.type.admits (r.read name) = true

/-- R29 (a), (e): phase and offset in [0,1), octave and detune within their clamps. -/
abbrev Osc.WF (o : Osc) : Prop :=
  (0 ≤ o.phase.value ∧ o.phase.value < 1) ∧ (0 ≤ o.phoff ∧ o.phoff < 1) ∧
  (-24 ≤ o.oct ∧ o.oct ≤ 24) ∧ (-200 ≤ o.det ∧ o.det ≤ 200)

/-- R29 (b), (c), (e): level and sustain level in [0,1]; Idle means level 0 and inc 0; and the slope of each stage runs
towards its bound, which is what keeps the level in [0,1]. -/
abbrev Envelope.WF (e : Envelope) : Prop :=
  (0 ≤ e.level ∧ e.level ≤ 1) ∧ (0 ≤ e.sustainL ∧ e.sustainL ≤ 1) ∧
  (e.stage = .idle → e.level = 0 ∧ e.inc = 0) ∧
  (e.stage = .attack → 0 ≤ e.inc) ∧ (e.stage = .decay → e.inc ≤ 0) ∧ (e.stage = .release → e.inc ≤ 0)

/-- A voice of a reachable state: R29, and R167's lifecycle: a voice is bound exactly while it is not Idle, and a bound
voice is in Release exactly when it is marked released. -/
abbrev Voice.WF (v : Voice) : Prop :=
  (v.osc[0].WF ∧ v.osc[1].WF ∧ v.osc[2].WF) ∧ v.env.WF ∧ v.nst ≤ 4 ∧
  (v.note = none ↔ v.env.stage = .idle) ∧
  (v.note ≠ none → (v.released = true ↔ v.env.stage = .release))

/-- The events of a callback after phase `k`, none of them begun (R200). -/
def eventsAfter (k : Nat) : List Event := callbackEvents.filter fun e => k < e.phase.val

/-- The events of the phase in progress. -/
def eventsIn (ph : Fin 9) (todo : List Event) : List Event := todo.filter fun e => e.phase = ph

/-- The registers an event has still to read are stored ones of the callback's own groups (R80). -/
def Event.readsOk : Event → Bool
  | .readTiming rs => !rs.isEmpty && rs.all (timingRegs.contains ·)
  | .readPoly rs => !rs.isEmpty && rs.all ([RegName.polyTarget].contains ·)
  | .readParams rs => !rs.isEmpty && rs.all (paramRegs.contains ·)
  | .readRemote rs => !rs.isEmpty && rs.all ([RegName.remoteGain].contains ·)
  | _ => true

/-- PH and the callback in progress agree (R22): with PH = 0 nothing is in progress; else the events to do are some of
the phase PH, and after them all of the later phases, in order. -/
abbrev progressOk (p : Params) (ph : Fin 9) (c : Progress) : Prop :=
  if ph = 0 then c = Progress.none
  else
    eventsIn ph c.todo ≠ [] ∧ c.todo = eventsIn ph c.todo ++ eventsAfter ph.val ∧
    (c.todo.all Event.readsOk = true) ∧ c.seen.WF ∧ u32 c.n ≤ p.maxFrames

/-- The invariant of the block: what holds of every reachable state (R29, R30, R33, R34, R36, R167, R191, R221). -/
structure State.Inv (s : State) : Prop where
  /-- The OPEN parameters are legal. -/
  params : s.params.WF
  /-- Every register holds a pattern of its type. -/
  regs : s.regs.WF
  /-- 1 <= NV <= MAX_VOICES (R30). -/
  nv : 1 ≤ s.nv ∧ s.nv ≤ s.params.maxVoices
  /-- Every voice is well formed (R29, R167). -/
  voices : ∀ v ∈ s.voices, v.WF
  /-- ACC >= 0 (R31). -/
  acc : 0 ≤ s.seq.acc
  /-- At most 64 blocks (R33, R191). -/
  queue : s.queue.length ≤ Config.jbCap
  /-- Each of at most JB_BLK_MAX samples (R33). -/
  blocks : ∀ b ∈ s.queue, b.length ≤ s.params.jbBlkMax
  /-- OUT has MAX_FRAMES entries (R34). -/
  out : s.out.length = s.params.maxFrames
  /-- PH and the callback in progress agree (R22). -/
  progress : progressOk s.params s.ph s.cb
  /-- Between steps the grain is whole. -/
  grain : s.grain = .whole

/-! ### Frames, turns and stores, as the statements name them -/

/-- The real in frame t of a buffer; 0 past its end. -/
noncomputable def frameValue (l : List Exact) (t : Nat) : ℝ := (l.getD t .zero).value


/-- The port a turn serves (R78, R247). -/
def Turn.port : Turn → Port
  | .ctrl => .ctrl
  | .net => .net
  | .audio => .audio
  | .audioEvent _ => .audio

/-- How much of a CALLBACK taken in this turn the turn covers (notes/assumptions/5.md). -/
def Turn.grain : Turn → Grain
  | .ctrl => .whole
  | .net => .whole
  | .audio => .whole
  | .audioEvent _ => .split

/-- A turn takes the next word of its port; AUDIO takes none while a callback runs (R78). -/
abbrev State.takesWord (s : State) (turn : Turn) : Prop := turn.port = .audio → s.ph = 0

/-- `t` is `s` but for register `r`, which reads as `w` in `t`: every other register reads as before, and everything else
is as before. -/
abbrev State.Stores (s : State) (r : RegName) (w : Word) (t : State) : Prop :=
  t.regRead r = w ∧ (∀ r' : RegName, r' ≠ r → t.regRead r' = s.regRead r') ∧ t = s.withRegs t.regs

/-- `k` AUDIO turns of a callback in progress with no other agent in between, `pick j` the choice at the j-th (R81). -/
def State.audioEvents (pick : Nat → Nat) : Nat → State → State
  | 0, s => s
  | k + 1, s => State.audioEvent (State.audioEvents pick k s) (pick k)

end Sys2Proof.Machine
end

