-- ==== Sys2Proof/Certificates/Slice0/Obligations.lean ====
section
/-!
DEFINITION. The statements for the provers, from the numbered rules of spec/. OBLIGATIONS.json lists them with the rules
they formalise. A statement over all states is a statement over all parameter values (R8) and, the order of the agents
being data in State, over all interleavings (R81).
-/

open Sys2Proof Sys2Proof.Machine

/-! ### Encoding (30_encoding.md) -/

/-- Every command, with every operand, is read back from its own word: by the decoder, on the command's own port, and by
the host's view of the decoder (R101, R103, R112). -/
def Obligations.DecodeEncodeRoundTrip : Prop :=
  ∀ i : Instr, decode (encode i) = .ok i ∧ decodeOn i.port (encode i) = .ok i ∧
    decodeTableWord 64 (encode i).toNat = some i

/-- Every legal word is the encoding of the command it decodes to: no bit of a legal word is dropped (R101, R111). -/
def Obligations.EncodeDecodeRoundTrip : Prop :=
  ∀ (w : Command) (i : Instr), decode w = .ok i → encode i = w

/-- A row of the opcode map selects exactly the words that decode to its command, on its port (R103). -/
def Obligations.DecodeSelectsTableRow : Prop :=
  ∀ (w : Command), ∀ r ∈ opcodeTable,
    (w &&& r.mask = r.bits ↔ ∃ i, decode w = .ok i ∧ i.opcode = r.opcode) ∧
    ∀ i, decode w = .ok i → i.opcode = r.opcode → i.port = r.port

/-- Which words are illegal whatever their port: a reserved opcode (R110), or one of the must-be-zero or frame-bound
violations (R111). -/
def Obligations.IllegalWordsExactly : Prop :=
  ∀ (p : Params) (w : Command),
    (∃ i, decode w = .ok i ∧ i.wellFormed p = true) ↔
      opField w ∈ [0x00#8, 0x01#8, 0x10#8, 0x11#8, 0x12#8, 0x13#8, 0x20#8, 0x30#8] ∧
      rsvField w = 0 ∧
      (opField w ∈ [0x01#8, 0x12#8, 0x13#8, 0x20#8, 0x30#8] → addrField w = 0) ∧
      (opField w ∈ [0x01#8, 0x11#8] → dataField w = 0) ∧
      (opField w ∈ [0x12#8, 0x13#8] → (dataField w).extractLsb' 12 20 = 0) ∧
      (opField w = 0x20#8 → (dataField w).toNat ≤ p.maxFrames)

/-- A legal word is accepted only on its own port, and is illegal on every other (R112). -/
def Obligations.PortRights : Prop :=
  ∀ (w : Command) (p : Port) (i : Instr), decode w = .ok i →
    (decodeOn p w = .ok i ↔
      (p = .ctrl ∧ opField w ∈ [0x00#8, 0x01#8, 0x10#8, 0x11#8, 0x12#8, 0x13#8]) ∨
      (p = .audio ∧ opField w = 0x20#8) ∨ (p = .net ∧ opField w = 0x30#8)) ∧
    (decodeOn p w = .ok i ∨ decodeOn p w = .error .wrongPort)

/-- The words the spec writes out decode to the commands it says they are (49_host_commands.md, 47_jitter_buffer.md R190,
48_orchestrator.md R200, 95_test_vectors.md). -/
def Obligations.SampleWordsDecode : Prop :=
  decode 0x0000000000000000#64 = .ok (.nop 0 0) ∧
  decode 0x0000123400005678#64 = .ok (.nop 0x1234 0x5678) ∧
  decode 0x0100000000000000#64 = .ok .reset ∧
  decode 0x100000053F000000#64 = .ok (.wr 0x0005 0x3F000000) ∧
  decode 0x10000002FFFFFFFB#64 = .ok (.wr 0x0002 0xFFFFFFFB) ∧
  decode 0x1100000800000000#64 = .ok (.rd 0x0008) ∧
  decode 0x1200000000000200#64 = .ok (.noteon 0x200) ∧
  decode 0x1300000000000200#64 = .ok (.noteoff 0x200) ∧
  decode 0x2000000000000004#64 = .ok (.callback 4) ∧
  decode 0x3000000000000008#64 = .ok (.jbpush 8)

/-! ### One step (20_memory.md section 3) -/

/-- When a port's turn comes and its next word decodes there, the step is `exec` of that command, on the state with the
word taken off the port, the turn over, and the turn's grain set. -/
def Obligations.StepRunsDecodedInstruction : Prop :=
  ∀ (s : State) (turn : Turn) (rest : List Turn) (w : Command) (ws : List Command) (i : Instr),
    s.sched = turn :: rest → s.takesWord turn → s.io.pending turn.port = w :: ws → decodeOn turn.port w = .ok i →
    step s = exec i (((s.withSched rest).withIo (s.io.setPending turn.port ws)).withGrain turn.grain)

/-- While a callback runs, AUDIO's turn takes no word: it runs the next event of that callback (R78, R80); and a CALLBACK
whose turn is to run event by event only starts, PH becoming 1. The events and their being turns of their own are the
model's (notes/assumptions/5.md). -/
def Obligations.AudioTurnsRunEvents : Prop :=
  (∀ (s : State) (pick : Nat) (rest : List Turn), s.ph ≠ 0 →
    (s.sched = .audioEvent pick :: rest → step s = .next ((s.withSched rest).audioEvent pick)) ∧
    (s.sched = .audio :: rest → step s = .next ((s.withSched rest).audioEvent 0)) ∧
    (s.audioEvent pick).io.audioCmd = s.io.audioCmd) ∧
  (∀ (s : State) (n : Word), s.ph = 0 → s.grain = .split → n.toNat ≤ s.params.maxFrames →
    exec (.callback n) s =
      .next (((s.withPh 1).withCb ⟨n, callbackEvents, RegFile.blank, []⟩).withGrain .whole)) ∧
  (∀ (s : State) (n : Word), s.ph ≠ 0 →
    exec (.callback n) s = .next (s.withIo { s.io with audioCmd := encode (.callback n) :: s.io.audioCmd }))

/-- With no command, every piece of state is held unchanged (R252): a step with no turn given changes nothing, and a turn
whose port brings no word uses up the turn alone. That a turn may bring no word is the model's (notes/assumptions/15.md). -/
def Obligations.NoCommandHoldsState : Prop :=
  (∀ s : State, s.sched = [] → step s = .next s) ∧
  (∀ (s : State) (turn : Turn) (rest : List Turn), s.sched = turn :: rest → s.takesWord turn →
    s.io.pending turn.port = [] → step s = .next (s.withSched rest))

/-- An illegal word, on any port, is discarded and sets ILLCMD: nothing else changes, no response, no payload byte taken,
no stop (R113). The second clause is the CALLBACK whose frame count is over MAX_FRAMES (R111). -/
def Obligations.IllegalWordOnlySetsIllcmd : Prop :=
  ∀ (s : State) (turn : Turn) (rest : List Turn) (w : Command) (ws : List Command),
    s.sched = turn :: rest → s.takesWord turn → s.io.pending turn.port = w :: ws → s.grain = .whole →
    ((∃ e, decodeOn turn.port w = .error e) ∨
      ∃ n, decodeOn turn.port w = .ok (.callback n) ∧ s.params.maxFrames < n.toNat) →
    step s = .next (((s.withSched rest).withIo (s.io.setPending turn.port ws)).withRegs
      { s.regs with status := s.regs.status ||| 0x00000001#32 })

/-- Nothing in the block traps: every command completes, and every step gives a next state (R240, R244). -/
def Obligations.StepNeverStops : Prop :=
  (∀ (i : Instr) (s : State), ∃ t, exec i s = .next t) ∧ ∀ s : State, ∃ t, step s = .next t

/-! ### Invariants of every step -/

/-- The invariant of the block (R29, R30, R33, R34, R36, R167, R191, R221, and the agreement of PH with the callback in
progress, R22) is kept by every step, whatever the turn. -/
def Obligations.StepKeepsInv : Prop :=
  ∀ s t : State, s.Inv → step s = .next t → t.Inv

/-- The state after reset meets the invariant, for every legal choice of the OPEN parameters; so the state
`State.reset` does. -/
def Obligations.ResetMeetsInv : Prop :=
  (∀ p : Params, p.WF → (State.resetOf p).Inv) ∧ State.reset.Inv

/-- No command, RESET included, changes an OPEN parameter (R8). -/
def Obligations.ParamsNeverChange : Prop :=
  ∀ s t : State, step s = .next t → t.params = s.params

/-- PH walks 1, 2, ..., 8 without skipping or repeating and returns to 0 (R22): a step leaves it, moves it to the next
phase, or takes it from 8 to 0. -/
def Obligations.PhaseWalk : Prop :=
  ∀ s t : State, s.Inv → step s = .next t →
    t.ph = s.ph ∨ t.ph.val = s.ph.val + 1 ∨ (s.ph.val = 8 ∧ t.ph = 0)

/-- A CALLBACK served one event per AUDIO turn, the reads of an unordered group made in any order, with no other agent in
between, ends in the very state that one AUDIO turn serving it whole gives (R80, R81, R200). -/
def Obligations.SplitRunEqualsWholeRun : Prop :=
  ∀ (s : State) (n : Word) (ws : List Command) (pick : Nat → Nat) (rest : List Turn),
    0 < s.params.fs → s.ph = 0 → n.toNat ≤ s.params.maxFrames → s.io.audioCmd = encode (.callback n) :: ws →
    ∃ k : Nat,
      Host.Core.run Sys2Proof.core (k + 1)
          (s.withSched ((List.range (k + 1)).map (fun j => Turn.audioEvent (pick j)) ++ rest)) =
        step (s.withSched (.audio :: rest))

/-- Every callback terminates: from any state of the invariant, AUDIO turns alone bring PH back to 0, whatever the order of
the unordered reads (R200). -/
def Obligations.CallbackAlwaysFinishes : Prop :=
  ∀ (s : State) (pick : Nat → Nat), s.Inv → ∃ k : Nat, (State.audioEvents pick k s).ph = 0

/-! ### Control-port commands (49_host_commands.md) -/

/-- NOP changes nothing, and every word with `op` 0 and `rsv` 0 is a NOP, whatever its other fields (R216, R109). -/
def Obligations.NopDoesNothing : Prop :=
  (∀ (addr : Addr) (data : Word) (s : State), exec (.nop addr data) s = .next s) ∧
  (∀ w : Command, opField w = 0x00#8 → rsvField w = 0 → decode w = .ok (.nop (addrField w) (dataField w)))

/-- RESET with no callback running puts every piece of state at its reset value (R62). THE MODEL'S CHOICE is the rest: what
stands on the ports and the turns not yet taken stay as they are (R64 counts them as no state; notes/assumptions/4.md), and
no callback in progress is a blank record (notes/assumptions/5.md). -/
def Obligations.ResetSetsEverything : Prop :=
  ∀ s : State, s.ph = 0 →
    ∃ t : State, exec .reset s = .next t ∧ t = ((State.resetOf s.params).withIo s.io).withSched s.sched ∧
      (∀ r : RegName, t.regRead r = match r with
        | .bpm => 0x00000078#32
        | .octave => 0x00000004#32
        | .polyTarget => BitVec.ofNat 32 s.params.nvReset
        | .jbTarget => 0x00000002#32
        | .fltCutoff => 0x447A0000#32
        | .fltQ => 0x3F34FDF4#32
        | .fltStages => 0x00000001#32
        | .envAttack => 0x3C23D70A#32
        | .envDecay => 0x3DCCCCCD#32
        | .envSustain => 0x3F333333#32
        | .envRelease => 0x3E4CCCCD#32
        | _ => 0x00000000#32) ∧
      t.voices = List.replicate s.params.nvReset
        { osc := Vector.replicate 3 { phase := .rat 0, wave := .saw, oct := 0, det := 0, phoff := 0 }
          ftype := .low, cutoff := 1000, q := f32val 0x3F34FDF4, nst := 1, dirty := true
          coeffs := { b0 := .rat 0, b1 := .rat 0, b2 := .rat 0, a1 := .rat 0, a2 := .rat 0 }
          st := Vector.replicate 4 { x1 := .rat 0, x2 := .rat 0, y1 := .rat 0, y2 := .rat 0 }
          env :=
            { stage := .idle, level := 0, inc := 0, attackT := f32val 0x3C23D70A, decayT := f32val 0x3DCCCCCD
              sustainL := f32val 0x3F333333, releaseT := f32val 0x3E4CCCCD }
          note := none, released := false, lastUsed := 0, freq := .rat 0, gain := 0 } ∧
      t.tick = 0 ∧ t.seq.step = 0 ∧ t.seq.acc = 0 ∧ t.seq.pos = 0 ∧
      (∀ d : Degree, t.seq.relp[d] = false ∧ t.seq.relt[d] = 0) ∧
      t.queue = [] ∧ t.out = List.replicate s.params.maxFrames (.rat 0) ∧ t.ph = 0

/-- RESET while a callback runs does not execute: the CTRL port keeps the word and what stands behind it waits (R217). -/
def Obligations.ResetWaitsForTheCallback : Prop :=
  ∀ (s : State) (rest : List Turn) (ws : List Command),
    s.ph ≠ 0 → s.grain = .whole → s.sched = .ctrl :: rest → s.io.ctrlCmd = encode .reset :: ws →
    step s = .next (s.withSched rest)

/-- WR, case by case (R218): a refused address sets BADADDR, STATUS is write-one-to-clear, and each type of register
stores its own bits of the data or refuses the value with BADVAL. Nothing but the one register changes. -/
def Obligations.WrFollowsItsRule : Prop :=
  ∀ (s : State) (addr : Addr) (data : Word), ∃ t : State, exec (.wr addr data) s = .next t ∧
    encode (.wr addr data) = 0x10#8 ++ (0x00#8 ++ (addr ++ data)) ∧
    ((∀ r : RegName, r.addr ≠ addr) ∨ addr = RegName.jbSize.addr ∨ addr = RegName.noteOnReq.addr ∨
        addr = RegName.noteOffReq.addr →
      s.Stores .status (s.regs.status ||| 0x00000002#32) t) ∧
    (addr = RegName.status.addr → s.Stores .status (s.regs.status &&& ~~~(data &&& 0x0000007F#32)) t) ∧
    (∀ r : RegName, r.addr = addr → r ≠ .jbSize → r ≠ .noteOnReq → r ≠ .noteOffReq →
      match r.type with
      | .flags => r = .status
      | .bit => s.Stores r (data &&& 0x00000001#32) t
      | .mask12 => s.Stores r (data &&& 0x00000FFF#32) t
      | .s32 => s.Stores r data t
      | .u32 => s.Stores r data t
      | .enum =>
        if 2 < data.toNat then s.Stores .status (s.regs.status ||| 0x00000004#32) t else s.Stores r data t
      | .f32 =>
        if data.extractLsb' 23 8 = 255#8 then s.Stores .status (s.regs.status ||| 0x00000004#32) t
        else s.Stores r data t)

/-- The two kinds of refused values change nothing but STATUS.BADVAL, and no other value is refused: any other WR to a
writable register but STATUS stores the bits its type has and changes nothing else (R221). -/
def Obligations.RefusedValues : Prop :=
  ∀ (s : State) (r : RegName) (data : Word), r ≠ .status → r ≠ .jbSize → r ≠ .noteOnReq → r ≠ .noteOffReq →
    ∃ t : State, exec (.wr r.addr data) s = .next t ∧
      if (r.type = .f32 ∧ data.extractLsb' 23 8 = 255#8) ∨ (r.type = .enum ∧ 2 < data.toNat) then
        s.Stores .status (s.regs.status ||| 0x00000004#32) t
      else
        s.Stores r
          (if r.type = .bit then data &&& 0x00000001#32 else if r.type = .mask12 then data &&& 0x00000FFF#32 else data) t

/-- Refused addresses: a WR to an unmapped or read-only register changes nothing but STATUS.BADADDR; an RD of an unmapped
address answers 0 and sets BADADDR; an RD of the three read-only registers is legal (R222). -/
def Obligations.RefusedAddresses : Prop :=
  ∀ (s : State) (addr : Addr),
    ((∀ r : RegName, r.addr ≠ addr) → ∀ data : Word,
      exec (.wr addr data) s = .next (s.withRegs { s.regs with status := s.regs.status ||| 0x00000002#32 }) ∧
      exec (.rd addr) s = .next ((s.withRegs { s.regs with status := s.regs.status ||| 0x00000002#32 }).withIo
        { s.io with ctrlRsp := s.io.ctrlRsp ++ [0x00000000#32] })) ∧
    (addr = 0x0008#16 ∨ addr = 0x0009#16 ∨ addr = 0x000A#16 → ∀ data : Word,
      exec (.wr addr data) s = .next (s.withRegs { s.regs with status := s.regs.status ||| 0x00000002#32 }) ∧
      ∃ x : Word, exec (.rd addr) s = .next (s.withIo { s.io with ctrlRsp := s.io.ctrlRsp ++ [x] }))

/-- RD sends exactly one response word and has no side effect on what it reads: the stored pattern, for JB_SIZE the number
of queued blocks at that instant, for an unmapped address 0 with BADADDR (R219). -/
def Obligations.RdAnswers : Prop :=
  ∀ (s : State) (addr : Addr),
    encode (.rd addr) = 0x11#8 ++ (0x00#8 ++ (addr ++ 0x00000000#32)) ∧
    (∀ r : RegName, r.addr = addr →
      exec (.rd addr) s = .next (s.withIo { s.io with ctrlRsp := s.io.ctrlRsp ++
        [if r = .jbSize then BitVec.ofNat 32 s.queue.length else s.regs.read r] })) ∧
    ((∀ r : RegName, r.addr ≠ addr) →
      exec (.rd addr) s = .next ((s.withRegs { s.regs with status := s.regs.status ||| 0x00000002#32 }).withIo
        { s.io with ctrlRsp := s.io.ctrlRsp ++ [0x00000000#32] }))

/-- WR is idempotent on every register, STATUS and the refused ones included (R77). -/
def Obligations.WrIsIdempotent : Prop :=
  ∀ (s t : State) (addr : Addr) (data : Word), exec (.wr addr data) s = .next t → exec (.wr addr data) t = .next t

/-- NOTEON and NOTEOFF set the bits of their mask in the request register and change nothing else; requests for one degree
merge (R223, R224, R275). -/
def Obligations.RequestsMergeByOr : Prop :=
  ∀ (s : State) (mask : BitVec 12),
    (∃ t : State, exec (.noteon mask) s = .next t ∧ t = s.withRegs t.regs ∧
      (∀ r : RegName, r ≠ .noteOnReq → t.regRead r = s.regRead r) ∧
      ∀ k : Nat, t.regs.noteOnReq.getLsbD k = (s.regs.noteOnReq.getLsbD k || mask.getLsbD k)) ∧
    (∃ t : State, exec (.noteoff mask) s = .next t ∧ t = s.withRegs t.regs ∧
      (∀ r : RegName, r ≠ .noteOffReq → t.regRead r = s.regRead r) ∧
      ∀ k : Nat, t.regs.noteOffReq.getLsbD k = (s.regs.noteOffReq.getLsbD k || mask.getLsbD k))

/-- A CTRL command but RESET reaches sound only through a register: it changes the control registers and sends responses,
nothing else (R225). -/
def Obligations.CtrlCommandsTouchOnlyRegisters : Prop :=
  ∀ (i : Instr) (s : State), i.port = .ctrl → i ≠ .reset →
    ∃ t : State, exec i s = .next t ∧
      t = (s.withRegs t.regs).withIo { s.io with ctrlRsp := s.io.ctrlRsp ++ t.io.ctrlRsp.drop s.io.ctrlRsp.length }

/-- Audio-owned state is read and written by CALLBACK and RESET alone (R20): a step of the CTRL or NET port leaves the
voices, TICK, the sequencer, OUT, PH and the callback in progress as they are, unless it runs a RESET. -/
def Obligations.OnlyAudioOwnsSound : Prop :=
  ∀ (s t : State) (turn : Turn) (rest : List Turn), s.sched = turn :: rest → turn.port ≠ .audio → step s = .next t →
    (t.voices = s.voices ∧ t.tick = s.tick ∧ t.seq = s.seq ∧ t.out = s.out ∧ t.ph = s.ph ∧ t.cb = s.cb) ∨
    (turn.port = .ctrl ∧ s.ph = 0 ∧ ∃ ws, s.io.ctrlCmd = encode .reset :: ws)

/-! ### STATUS (10_state.md R36; 60_exceptions.md R241, R242) -/

/-- A flag once set stays set until a WR STATUS or a RESET clears it (R241). -/
def Obligations.StatusIsSticky : Prop :=
  ∀ s t : State, step s = .next t →
    s.regs.status &&& t.regs.status = s.regs.status ∨
    (∃ (rest : List Turn) (data : Word) (ws : List Command), s.sched = .ctrl :: rest ∧
      (s.io.ctrlCmd = encode (.wr 0x0000 data) :: ws ∨ s.io.ctrlCmd = encode .reset :: ws))

/-- STATUS steers nothing: two states of the block that differ only in STATUS differ only in STATUS after a step, but for
the answer of an RD STATUS (R36, R60, R241). -/
def Obligations.StatusSteersNothing : Prop :=
  ∀ (s t : State) (x : Word), s.Inv → step s = .next t →
    (∀ (rest : List Turn) (ws : List Command), s.sched = .ctrl :: rest → s.io.ctrlCmd ≠ encode (.rd 0x0000) :: ws) →
    ∃ y : Word, step (s.withRegs { s.regs with status := x }) = .next (t.withRegs { t.regs with status := y })

/-! ### Jitter buffer (47_jitter_buffer.md) -/

/-- JBPUSH with its payload arrived, on a queue within its cap (R190, R191): the payload is taken either way; a malformed
one sets JB_MALFORMED and pushes nothing; any other is read little-endian and becomes the tail of the queue, the head
leaving, with JB_EVICT, when the queue was full. -/
def Obligations.JbpushFollowsItsRule : Prop :=
  ∀ (s : State) (nbytes : Word), nbytes.toNat ≤ s.io.netRx.length → s.queue.length ≤ 64 →
    let rx : Nat → Nat := fun i => (s.io.netRx.getD i 0).toNat
    let s' := s.withIo { s.io with netRx := s.io.netRx.drop nbytes.toNat }
    let blk : List Word := (List.range (nbytes.toNat / 4)).map fun k =>
      BitVec.ofNat 32 (rx (4 * k) + 256 * rx (4 * k + 1) + 65536 * rx (4 * k + 2) + 16777216 * rx (4 * k + 3))
    encode (.jbpush nbytes) = 0x30#8 ++ (0x00#8 ++ (0x0000#16 ++ nbytes)) ∧
    ∃ t : State, exec (.jbpush nbytes) s = .next t ∧
      if nbytes.toNat % 4 ≠ 0 ∨ 4 * s.params.jbBlkMax < nbytes.toNat then
        s'.Stores .status (s.regs.status ||| 0x00000020#32) t
      else if s.queue.length < 64 then t = s'.withQueue (s.queue ++ [blk])
      else (s'.withQueue (s.queue.tail ++ [blk])).Stores .status (s.regs.status ||| 0x00000010#32) t

/-- THE MODEL'S CHOICE (notes/assumptions/9.md): while fewer bytes than nbytes stand on NET.rx, JBPUSH does not execute; its
word is back at the head of NET.cmd and nothing else changes. -/
def Obligations.JbpushWaitsForItsPayload : Prop :=
  ∀ (s : State) (nbytes : Word), s.io.netRx.length < nbytes.toNat →
    exec (.jbpush nbytes) s = .next (s.withIo { s.io with netCmd := encode (.jbpush nbytes) :: s.io.netCmd })

/-- What the block sends comes back as it was sent: the NET.tx payload of any emitted block, received on NET.rx, is queued
as that block's very words (R74, R76, R190). -/
def Obligations.LoopbackDeliversTheBlock : Prop :=
  ∀ (s : State) (block : List Sample) (later : List Byte),
    4 * block.length < 2 ^ 32 → block.length ≤ s.params.jbBlkMax → s.queue.length < 64 →
    s.io.netRx = (block.flatMap Sample.bytes).map OutByte.byte ++ later →
    exec (.jbpush (BitVec.ofNat 32 (4 * block.length))) s =
      .next ((s.withIo { s.io with netRx := later }).withQueue (s.queue ++ [block.map Sample.word]))

/-! ### CALLBACK (48_orchestrator.md) -/

/-- CALLBACK n, served whole, completes, and its next state is that of the eight phases in order (R200): the first n frames
of OUT zeroed (R201); SEQ.ADVANCE at the clamped OCTAVE (R202); both request masks drained, then every requested note-on at
that octave, then every requested note-off, each in ascending degree (R203); the resize (R204), the latch into every voice
(R205), the render (R206), the remote mix (R208); the n words of OUT on AUDIO.out and their bytes on NET.tx (R209); PH back
to 0. What that leaves in the registers, the pool size, the queue, POS and OUT past frame n is said beside it; nothing of
the CTRL port, the command ports or NET.rx changes. -/
def Obligations.CallbackCompletes : Prop :=
  ∀ (s : State) (n : Word), s.ph = 0 → s.grain = .whole → n.toNat ≤ s.params.maxFrames →
    s.out.length = s.params.maxFrames →
    let oct : Int := if s.regs.octave.toInt < -1 then -1 else if 9 < s.regs.octave.toInt then 9 else s.regs.octave.toInt
    let requested (w : Word) : List Degree := (List.finRange 12).filter fun d => w.getLsbD d.val
    let s1 := s.withOut (List.replicate n.toNat (.rat 0) ++ s.out.drop n.toNat)
    let s2 := s1.seqAdvance n.toNat oct s.regs.bpm s.regs.play
    let drained := s2.withRegs { s2.regs with noteOnReq := 0, noteOffReq := 0 }
    let started := (requested s.regs.noteOnReq).foldl (fun u d => u.poolNoteOn d oct) drained
    let s3 := (requested s.regs.noteOffReq).foldl (fun u d => u.poolNoteOff d) started
    let s4 := s3.phaseResize s.regs.polyTarget
    let s5 := s4.withVoices (s4.voices.map fun v => v.latch s4.regs)
    let s7 := (s5.poolRenderMixed n.toNat).phaseRemote n.toNat
    ∃ (t : State) (block : List Sample) (payload : List OutByte), exec (.callback n) s = .next t ∧
      t = (((s7.withIo { s.io with
        audioOut := s.io.audioOut ++ [block]
        netTx := s.io.netTx ++ [payload] }).withPh 0).withCb Progress.none).withGrain .whole ∧
      block.length = n.toNat ∧ block.map Sample.word = (t.out.take n.toNat).map (fun x => f32rndReal x.value) ∧
      payload.map OutByte.byte = (block.map Sample.word).flatMap wordBytes ∧
      t.params = s.params ∧ t.sched = s.sched ∧
      (∀ r : RegName, r ≠ .status → r ≠ .noteOnReq → r ≠ .noteOffReq → t.regs.read r = s.regs.read r) ∧
      t.regs.noteOnReq = 0 ∧ t.regs.noteOffReq = 0 ∧
      s.regs.status &&& t.regs.status = s.regs.status ∧
      t.regs.status ||| 0x00000048#32 = s.regs.status ||| 0x00000048#32 ∧
      (t.nv : Int) = (if s.regs.polyTarget.toInt < 1 then 1
        else if (s.params.maxVoices : Int) < s.regs.polyTarget.toInt then (s.params.maxVoices : Int)
        else s.regs.polyTarget.toInt) ∧
      t.queue = (if s.queue.length ≤ s.regs.jbTarget.toNat then s.queue else s.queue.tail) ∧
      t.seq.pos = s.seq.pos + BitVec.ofNat 64 n.toNat ∧
      t.out.length = s.out.length ∧
      ∀ j : Nat, n.toNat ≤ j → t.out.getD j (.rat 0) = s.out.getD j (.rat 0)

/-- The reset state is silent and stable (R262): with no CTRL or NET command, every CALLBACK n after reset (POS and STATUS
are all that differs from reset by then) emits n zero words and 4n zero bytes, sets JB_UNDERRUN and changes nothing else
but POS. -/
def Obligations.SilentAfterReset : Prop :=
  ∀ (p : Params) (pos : BitVec 64) (status : Word) (io : Channels) (sched : List Turn) (n : Word),
    p.WF → n.toNat ≤ p.maxFrames →
    let after (pos : BitVec 64) (status : Word) (io : Channels) : State :=
      ((((State.resetOf p).withSeq { Sequencer.reset with pos := pos }).withRegs
        { RegFile.reset p with status := status }).withIo io).withSched sched
    exec (.callback n) (after pos status io) =
      .next (after (pos + BitVec.ofNat 64 n.toNat) (status ||| 0x00000008#32)
        { io with
          audioOut := io.audioOut ++ [List.replicate n.toNat (.bits 0x00000000#32)]
          netTx := io.netTx ++ [List.replicate (4 * n.toNat) (.bits 0x00#8)] })

/-- Phase 5 gives every voice the same parameter values, those of the registers, and they stand after the callback: voices
that were sounding, idle or just made by a resize alike (R205, R82(d)). The codes 0, 1, 2 of a waveform register are Saw,
Square, Sine, those of FLT_TYPE Low, Band, High (R108). -/
def Obligations.AllVoicesLatchTheSame : Prop :=
  ∀ (s t : State) (n : Word), s.ph = 0 → s.grain = .whole → n.toNat ≤ s.params.maxFrames →
    exec (.callback n) s = .next t → ∀ v ∈ t.voices,
      (∀ j : Fin 3, v.osc[j].wave = waveOf s.regs.oscWave[j] ∧
        (s.regs.oscWave[j] = 0 → v.osc[j].wave = .saw) ∧ (s.regs.oscWave[j] = 1 → v.osc[j].wave = .square) ∧
        (s.regs.oscWave[j] = 2 → v.osc[j].wave = .sine) ∧
        v.osc[j].oct = max (-24) (min s.regs.oscOct[j].toInt 24) ∧
        v.osc[j].det = max (-200) (min (f32val s.regs.oscDetune[j]) 200) ∧
        v.osc[j].phoff = Int.fract (f32val s.regs.oscPhase[j] / 360)) ∧
      v.ftype = filterTypeOf s.regs.fltType ∧
      (s.regs.fltType = 0 → v.ftype = .low) ∧ (s.regs.fltType = 1 → v.ftype = .band) ∧
      (s.regs.fltType = 2 → v.ftype = .high) ∧
      v.cutoff = f32val s.regs.fltCutoff ∧ v.q = f32val s.regs.fltQ ∧
      (v.nst : Int) = max 0 (min s.regs.fltStages.toInt 4) ∧
      v.env.attackT = f32val s.regs.envAttack ∧ v.env.decayT = f32val s.regs.envDecay ∧
      v.env.sustainL = max 0 (min (f32val s.regs.envSustain) 1) ∧ v.env.releaseT = f32val s.regs.envRelease ∧
      v.gain = f32val s.regs.gain

/-- Phase 7 (R192, R208): a pop is withheld exactly when the queue is no longer than JB_TARGET, and then only the underrun
flag changes; else the whole head block leaves, its first frames are added into OUT at REMOTE_GAIN, a NaN or infinity
counting as 0, and every other frame is untouched. -/
def Obligations.RemoteMix : Prop :=
  ∀ (s : State) (n : Nat),
    if s.queue.length ≤ s.regs.jbTarget.toNat then
      s.Stores .status (s.regs.status ||| 0x00000008#32) (s.phaseRemote n)
    else
      s.phaseRemote n = (s.withQueue s.queue.tail).withOut (s.phaseRemote n).out ∧
      (s.phaseRemote n).out.length = s.out.length ∧
      ∀ (t : Nat), t < s.out.length →
        if t < n ∧ t < (s.queue.headD []).length then
          frameValue (s.phaseRemote n).out t = frameValue s.out t +
            (f32val s.regs.remoteGain : ℝ) *
              (if ((s.queue.headD []).getD t 0).extractLsb' 23 8 = 255#8 then 0
                else (f32val ((s.queue.headD []).getD t 0) : ℝ))
        else (s.phaseRemote n).out.getD t (.rat 0) = s.out.getD t (.rat 0)

/-! ### Voice pool (45_voice_pool.md) -/

/-- Phase 4 and POOL.RESIZE (R204, R176): the pool is replaced by fresh voices, TICK zeroed and everything else, the release
schedule included, kept, exactly when the clamped POLY_TARGET differs from NV. -/
def Obligations.ResizeReplacesThePool : Prop :=
  ∀ (s : State) (w : Word) (k : Nat), 1 ≤ s.params.maxVoices →
    (k : Int) = (if w.toInt < 1 then 1 else if (s.params.maxVoices : Int) < w.toInt then (s.params.maxVoices : Int)
      else w.toInt) →
    s.phaseResize w =
      if k = s.nv then s else (s.withVoices (List.replicate k Voice.reset)).withTick 0

/-- POOL.NOTE_ON (R173): the lowest-numbered unassigned inactive voice is taken; if there is none, the lowest-numbered one
among those with the smallest `lastUsed`, and STEAL is set. The voice is bound, unreleased, stamped with the incremented
tick and started at the note's frequency (R171); no other voice and nothing else changes. -/
def Obligations.NoteOnAllocates : Prop :=
  ∀ (s : State) (d : Degree) (oct : Int) (i : Nat) (v : Voice),
    let free (u : Voice) : Prop := u.note = none ∧ u.active s.params.eps = false
    s.voices[i]? = some v →
    ((free v ∧ ∀ j < i, ∀ u, s.voices[j]? = some u → ¬ free u) ∨
      ((∀ u ∈ s.voices, ¬ free u) ∧ (∀ u ∈ s.voices, v.lastUsed.toNat ≤ u.lastUsed.toNat) ∧
        ∀ j < i, ∀ u, s.voices[j]? = some u → v.lastUsed.toNat < u.lastUsed.toNat)) →
    (∃ f : Exact, f.value = 440 * (2 : ℝ) ^ ((((oct + 1) * 12 + (d.val : Int) - 69 : Int) : ℝ) / 12) ∧
      (s.poolNoteOn d oct).voices = s.voices.set i
        { v with
          note := some d, released := false, lastUsed := s.tick + 1, freq := f
          env := { v.env with
            stage := .attack
            inc := 1 / (if v.env.attackT * s.params.fs < 1 then 1 else v.env.attackT * s.params.fs) } }) ∧
    (s.poolNoteOn d oct).tick = s.tick + 1 ∧
    (free v → (s.poolNoteOn d oct).regs = s.regs) ∧
    (¬ free v → (s.poolNoteOn d oct).regs = { s.regs with status := s.regs.status ||| 0x00000040#32 }) ∧
    s.poolNoteOn d oct = ((s.withVoices (s.poolNoteOn d oct).voices).withTick (s.poolNoteOn d oct).tick).withRegs
      (s.poolNoteOn d oct).regs

/-- POOL.NOTE_OFF (R174): every active voice bound to the degree goes to Release from its level at that moment, is marked
released and keeps its binding; no other voice and nothing else changes. -/
def Obligations.NoteOffReleasesEveryMatch : Prop :=
  ∀ (s : State) (d : Degree),
    s.poolNoteOff d = s.withVoices (s.poolNoteOff d).voices ∧ (s.poolNoteOff d).nv = s.nv ∧
    ∀ (i : Nat) (v : Voice), s.voices[i]? = some v →
      (v.active s.params.eps = true ∧ v.note = some d → v.env.stage ≠ .idle →
        (s.poolNoteOff d).voices[i]? = some { v with
          released := true
          env := { v.env with
            stage := .release
            inc := -v.env.level /
              (if v.env.releaseT * s.params.fs < 1 then 1 else v.env.releaseT * s.params.fs) } }) ∧
      (v.active s.params.eps = true ∧ v.note = some d → v.env.stage = .idle →
        (s.poolNoteOff d).voices[i]? = some { v with released := true }) ∧
      (¬ (v.active s.params.eps = true ∧ v.note = some d) → (s.poolNoteOff d).voices[i]? = some v)

/-- POOL.RENDER_MIXED (R175) with VOICE.RENDER in full (R161): each voice active at the start of the block has its filter
recomputed and cleared if dirty, then runs n frames, each one advance of the bank, of the sections in use and of the
envelope; each other voice holds all its state; a voice inactive afterwards and marked released is unbound. Frame t of OUT
grows by the sum, over the voices rendered, of gain times the level after the tick times the filtered sample (R166); frames
past the block grow by nothing. -/
def Obligations.RenderMixedAddsContributions : Prop :=
  ∀ (s : State) (n : Nat),
    let fs := s.params.fs
    let start (v : Voice) : Voice :=
      if v.dirty then
        { v with
          coeffs := filterCoeffs fs v.ftype v.cutoff v.q
          st := Vector.replicate 4 { x1 := .rat 0, x2 := .rat 0, y1 := .rat 0, y2 := .rat 0 }
          dirty := false }
      else v
    let bank (v : Voice) : Vector Osc 3 × Exact := oscRenderSample fs v.freq v.osc
    let filtered (v : Voice) : Vector StageState 4 × Exact := filterProcess v.coeffs v.nst v.st (bank v).2
    let frame (v : Voice) : Voice := { v with osc := (bank v).1, st := (filtered v).1, env := v.env.tick fs }
    let contribution (v : Voice) (t : Nat) : ℝ :=
      let u := frame^[t] (start v)
      if t < n then (u.gain : ℝ) * (u.env.tick fs).level * (filtered u).2.value else 0
    let rendered (v : Voice) : Voice := if v.active s.params.eps then frame^[n] (start v) else v
    let r := s.poolRenderMixed n
    r = (s.withVoices r.voices).withOut r.out ∧
    r.voices = s.voices.map (fun v =>
      if (rendered v).active s.params.eps = false ∧ (rendered v).released = true then { rendered v with note := none }
      else rendered v) ∧
    r.out.length = s.out.length ∧
    (∀ t : Nat, t < s.out.length →
      frameValue r.out t = frameValue s.out t +
        ((s.voices.filter fun v => v.active s.params.eps).map fun v => contribution v t).sum) ∧
    ∀ v : Voice, (v.render fs n).2.length = n ∧ (v.render fs n).1 = frame^[n] (start v) ∧
      ∀ t : Nat, frameValue (v.render fs n).2 t = contribution v t

/-! ### Voice, oscillator, envelope, filter (41 to 44) -/

/-- OSC.RENDER_SAMPLE and WAVE (R131, R132): each phase is advanced by its increment and wrapped, the value is the mean of
the three waveforms at the phase after the advance plus the offset (Saw 2p - 1; Square +1 if p < 1/2, else -1; Sine
sin(2 pi p)), and it lies in [-1, 1]; nothing else changes. -/
def Obligations.OscillatorSample : Prop :=
  ∀ (fs : Rat) (f : Exact) (o : Vector Osc 3),
    let r := oscRenderSample fs f o
    let p (j : Fin 3) : ℝ := Int.fract (r.1[j].phase.value + r.1[j].phoff)
    let wave (j : Fin 3) : ℝ := match o[j].wave with
      | .saw => 2 * p j - 1
      | .square => if p j < 1 / 2 then 1 else -1
      | .sine => Real.sin (2 * Real.pi * p j)
    (∀ j : Fin 3, r.1[j] = { o[j] with phase := r.1[j].phase } ∧
      r.1[j].phase.value = Int.fract (o[j].phase.value +
        f.value / fs * (2 : ℝ) ^ ((o[j].oct : ℝ) / 12) * (2 : ℝ) ^ ((o[j].det : ℝ) / 1200))) ∧
    r.2.value = (wave 0 + wave 1 + wave 2) / 3 ∧ -1 ≤ r.2.value ∧ r.2.value ≤ 1

/-- A render of n frames advances each phase by n increments, wrapped once at the end (R131, R161), whatever the voice
does meanwhile. -/
def Obligations.PhaseAfterRender : Prop :=
  ∀ (fs : Rat) (n : Nat) (v : Voice) (j : Fin 3), 0 ≤ v.osc[j].phase.value ∧ v.osc[j].phase.value < 1 →
    let after := (v.render fs n).1.osc[j]
    after = { v.osc[j] with phase := after.phase } ∧
    after.phase.value = Int.fract (v.osc[j].phase.value +
      n * (v.freq.value / fs * (2 : ℝ) ^ ((v.osc[j].oct : ℝ) / 12) * (2 : ℝ) ^ ((v.osc[j].det : ℝ) / 1200)))

/-- After any OSC.RENDER_SAMPLE, and so after any VOICE.RENDER and any CALLBACK, every phase lies in [0,1), for any
frequency and block length (R137). -/
def Obligations.PhasesStayInUnitInterval : Prop :=
  let inUnit (o : Osc) : Prop := 0 ≤ o.phase.value ∧ o.phase.value < 1
  (∀ (fs : Rat) (f : Exact) (o : Vector Osc 3) (j : Fin 3), inUnit (oscRenderSample fs f o).1[j]) ∧
  (∀ (fs : Rat) (n : Nat) (v : Voice) (j : Fin 3), 1 ≤ n → inUnit (v.render fs n).1.osc[j]) ∧
  (∀ (s t : State) (n : Word), s.Inv → exec (.callback n) s = .next t → ∀ v ∈ t.voices, ∀ j : Fin 3, inUnit v.osc[j])

/-- The transition table of the envelope, row by row (R150), with samples(t) = max(1, t * FS) (R153). -/
def Obligations.EnvelopeTransitionTable : Prop :=
  ∀ (fs : Rat) (e : Envelope),
    let samples (t : Rat) : Rat := max 1 (t * fs)
    e.noteOn fs = { e with stage := .attack, inc := 1 / samples e.attackT } ∧
    (e.stage = .idle → e.noteOff fs = e) ∧
    (e.stage ≠ .idle → e.noteOff fs = { e with stage := .release, inc := -e.level / samples e.releaseT }) ∧
    (e.stage = .idle ∨ e.stage = .sustain → e.tick fs = e) ∧
    (e.stage = .attack → e.level + e.inc < 1 → e.tick fs = { e with level := e.level + e.inc }) ∧
    (e.stage = .attack → 1 ≤ e.level + e.inc →
      e.tick fs = { e with stage := .decay, level := 1, inc := -(1 - e.sustainL) / samples e.decayT }) ∧
    (e.stage = .decay → e.sustainL < e.level + e.inc → e.tick fs = { e with level := e.level + e.inc }) ∧
    (e.stage = .decay → e.level + e.inc ≤ e.sustainL →
      e.tick fs = { e with stage := .sustain, level := e.sustainL, inc := 0 }) ∧
    (e.stage = .release → 0 < e.level + e.inc → e.tick fs = { e with level := e.level + e.inc }) ∧
    (e.stage = .release → e.level + e.inc ≤ 0 → e.tick fs = { e with stage := .idle, level := 0, inc := 0 })

/-- Release from anywhere (R156(b)): after a note-off at level L > 0 the level after k ticks is L (1 - k / samples(R)) as
long as k is below samples(R), and from tick ceil(samples(R)) on the envelope is Idle at level 0. -/
def Obligations.ReleaseRampReachesZero : Prop :=
  ∀ (fs : Rat) (e : Envelope) (k : Nat), e.stage ≠ .idle → 0 < e.level →
    let m : Rat := max 1 (e.releaseT * fs)
    ((k : Rat) < m → (Envelope.tick fs)^[k] (e.noteOff fs) =
      { e with stage := .release, level := e.level * (1 - k / m), inc := -e.level / m }) ∧
    (m ≤ (k : Rat) → (Envelope.tick fs)^[k] (e.noteOff fs) = { e with stage := .idle, level := 0, inc := 0 })

/-- The attack (R151, R154, R156(a)): after a note-on at level L, the level after k ticks is L + k / samples(A)
while that is below 1, and the first tick that would reach 1 leaves exactly 1 and stage Decay. -/
def Obligations.AttackRampReachesOne : Prop :=
  ∀ (fs : Rat) (e : Envelope) (k : Nat),
    let m : Rat := max 1 (e.attackT * fs)
    (e.level + k / m < 1 → (Envelope.tick fs)^[k] (e.noteOn fs) =
      { e with stage := .attack, level := e.level + k / m, inc := 1 / m }) ∧
    (e.level + k / m < 1 → 1 ≤ e.level + (k + 1 : Nat) / m → (Envelope.tick fs)^[k + 1] (e.noteOn fs) =
      { e with stage := .decay, level := 1, inc := -(1 - e.sustainL) / max 1 (e.decayT * fs) })

/-- The properties of R146, for every sample rate R141 admits, every type, cutoff and Q: (b) a0 = 1 + alpha is above 1, and
|a2| < 1 and |a1| < 1 + a2, so each section is stable; (c) the numerators of Low sum to the sum of the denominator, which is
not 0, so the gain at zero frequency is 1, and those of Band and High sum to 0. a1 and a2 do not depend on the type (R141). -/
def Obligations.FilterDcGain : Prop :=
  ∀ (fs cutoff q : Rat), 400 / 9 ≤ fs →
    let low := filterCoeffs fs .low cutoff q
    let band := filterCoeffs fs .band cutoff q
    let high := filterCoeffs fs .high cutoff q
    1 < 1 + (filterAlpha fs cutoff q).value ∧
    (∀ t : FilterType, |(filterCoeffs fs t cutoff q).a2.value| < 1 ∧
      |(filterCoeffs fs t cutoff q).a1.value| < 1 + (filterCoeffs fs t cutoff q).a2.value) ∧
    0 < 1 + low.a1.value + low.a2.value ∧
    low.b0.value + low.b1.value + low.b2.value = 1 + low.a1.value + low.a2.value ∧
    band.b0.value + band.b1.value + band.b2.value = 0 ∧ high.b0.value + high.b1.value + high.b2.value = 0 ∧
    band.a1 = low.a1 ∧ band.a2 = low.a2 ∧ high.a1 = low.a1 ∧ high.a2 = low.a2

/-- FLT.COEF in full (R141): the cutoff clamped to [20, 0.45 FS], the Q to [0.1, 10], omega0 = 2 pi c / FS,
alpha = sin(omega0) / (2 q), and the five coefficients of each type, divided by a0 = 1 + alpha. -/
def Obligations.FilterCoefficients : Prop :=
  ∀ (fs cutoff q : Rat) (t : FilterType), 400 / 9 ≤ fs →
    let c : Rat := max 20 (min cutoff (45 / 100 * fs))
    let qq : Rat := max (1 / 10) (min q 10)
    let cs : ℝ := Real.cos (2 * Real.pi * (c / fs))
    let al : ℝ := Real.sin (2 * Real.pi * (c / fs)) / (2 * qq)
    let n : ℝ × ℝ × ℝ := match t with
      | .low => ((1 - cs) / 2, 1 - cs, (1 - cs) / 2)
      | .band => (al, 0, -al)
      | .high => ((1 + cs) / 2, -(1 + cs), (1 + cs) / 2)
    let r := filterCoeffs fs t cutoff q
    r.b0.value = n.1 / (1 + al) ∧ r.b1.value = n.2.1 / (1 + al) ∧ r.b2.value = n.2.2 / (1 + al) ∧
    r.a1.value = -2 * cs / (1 + al) ∧ r.a2.value = (1 - al) / (1 + al)

/-- FLT.PROCESS (R142): the sections below nst in series, each with its own history shifted by one sample; the sections
from nst on untouched; with nst = 0 the input unchanged. -/
def Obligations.FilterCascade : Prop :=
  ∀ (c : Coeffs) (nst : Nat) (st : Vector StageState 4) (x : Exact), nst ≤ 4 →
    let r := filterProcess c nst st x
    let input (k : Fin 4) : Exact := if k.val = 0 then x else r.1[k.val - 1].y1
    (∀ k : Fin 4, nst ≤ k.val → r.1[k] = st[k]) ∧
    (∀ k : Fin 4, k.val < nst →
      r.1[k] = { x1 := input k, x2 := st[k].x1, y1 := r.1[k].y1, y2 := st[k].y1 } ∧
      r.1[k].y1.value = c.b0.value * (input k).value + c.b1.value * st[k].x1.value + c.b2.value * st[k].x2.value -
        c.a1.value * st[k].y1.value - c.a2.value * st[k].y2.value) ∧
    (nst = 0 → r.2 = x) ∧ (∀ k : Fin 4, k.val + 1 = nst → r.2 = r.1[k].y1)

/-- FLT.SET (R144): the four values are stored, the codes 0, 1, 2 of a type as Low, Band, High (R108), and `dirty` is set
only if one of them changed; nothing else in the voice changes. The recomputation at the next render (R145) clears `dirty`,
stores FLT.COEF of the stored values and zeroes all four stage records before the first frame; a voice that is not rendered
keeps `dirty`. -/
def Obligations.FilterSetAndRefresh : Prop :=
  (∀ (v : Voice) (t cu qq ns : Word),
    let nst : Nat := (max 0 (min ns.toInt 4)).toNat
    ((v.ftype, v.cutoff, v.q, v.nst) = (filterTypeOf t, f32val cu, f32val qq, nst) → v.filterSet t cu qq ns = v) ∧
    ((v.ftype, v.cutoff, v.q, v.nst) ≠ (filterTypeOf t, f32val cu, f32val qq, nst) →
      v.filterSet t cu qq ns =
        { v with ftype := filterTypeOf t, cutoff := f32val cu, q := f32val qq, nst := nst, dirty := true })) ∧
  filterTypeOf 0 = .low ∧ filterTypeOf 1 = .band ∧ filterTypeOf 2 = .high ∧
  (∀ (fs : Rat) (n : Nat) (v : Voice),
    (v.render fs n).1.dirty = false ∧
    (v.dirty = true → v.render fs n =
      Voice.render fs n { v with
        coeffs := filterCoeffs fs v.ftype v.cutoff v.q
        st := Vector.replicate 4 ⟨.rat 0, .rat 0, .rat 0, .rat 0⟩
        dirty := false }) ∧
    (v.dirty = false → (v.render fs n).1.coeffs = v.coeffs)) ∧
  (∀ (p : Params) (n : Nat) (v : Voice) (out : List Exact), v.active p.eps = false →
    (v.mixInto p n out).1.dirty = v.dirty ∧ (v.mixInto p n out).1.osc = v.osc ∧ (v.mixInto p n out).1.st = v.st ∧
    (v.mixInto p n out).2 = out)

/-! ### Sequencer (46_step_sequencer.md) -/

/-- SPS (R180): 15 * FS / bpm_eff, with bpm_eff = 120 for bpm <= 0; positive for every BPM. -/
def Obligations.StepLengthRule : Prop :=
  ∀ (fs : Rat) (bpm : Int),
    (bpm ≤ 0 → stepLength fs bpm = fs * 60 / 120 / 4) ∧ (0 < bpm → stepLength fs bpm = 15 * fs / bpm) ∧
    (0 < fs → 0 < stepLength fs bpm)

/-- SEQ.ADVANCE (R181): while playing, ACC grows by n, floor(ACC / sps) steps are entered one after another, then the release
check runs, then POS grows by n; while stopped ACC is 0 and no step is entered. So ACC loses one step length per step
entered and ends below it, and STEP advances by that number modulo 16. Parameters, control registers other than STATUS, the
queue, OUT and the ports are as before. -/
def Obligations.SequencerClock : Prop :=
  ∀ (s t : State) (n : Nat) (oct : Int) (bpm play : Word), 0 < s.params.fs → 0 ≤ s.seq.acc →
    s.seqAdvance n oct bpm play = t →
    let sps := stepLength s.params.fs bpm.toInt
    let k := ⌊(s.seq.acc + n) / sps⌋.toNat
    let entered : State :=
      if play.getLsbD 0 then (fun u => u.seqPlayStep oct sps)^[k] (s.withSeq { s.seq with acc := s.seq.acc + n })
      else s.withSeq { s.seq with acc := 0 }
    t = entered.seqReleaseAll.withSeq
      { entered.seqReleaseAll.seq with pos := entered.seqReleaseAll.seq.pos + BitVec.ofNat 64 n } ∧
    (play.getLsbD 0 = true → t.seq.acc = s.seq.acc + n - k * sps ∧ 0 ≤ t.seq.acc ∧ t.seq.acc < sps ∧
      t.seq.step.val = (s.seq.step.val + k) % 16) ∧
    (play.getLsbD 0 = false → t.seq.acc = 0 ∧ t.seq.step = s.seq.step) ∧
    t.seq.pos = s.seq.pos + BitVec.ofNat 64 n ∧
    t.params = s.params ∧ t.regs = { s.regs with status := t.regs.status } ∧ t.queue = s.queue ∧ t.out = s.out ∧
    t.io = s.io ∧ t.nv = s.nv

/-- The number of steps entered in N frames of continuous play at a constant BPM is floor(N / sps), whatever the block
sizes (R182). -/
def Obligations.ContinuousPlay : Prop :=
  ∀ (s t : State) (blocks : List Nat) (oct : Int) (bpm play : Word),
    0 < s.params.fs → s.seq.acc = 0 → play.getLsbD 0 = true →
    blocks.foldl (fun u n => u.seqAdvance n oct bpm play) s = t →
    let sps := stepLength s.params.fs bpm.toInt
    t.seq.step.val = (s.seq.step.val + ⌊(blocks.sum : Rat) / sps⌋.toNat) % 16 ∧
    t.seq.acc = blocks.sum - ⌊(blocks.sum : Rat) / sps⌋.toNat * sps

/-- One step entered (R181, R184): POOL.NOTE_ON for every degree set in the grid register of the new step, ascending, at the
octave given, which leaves the voices, TICK and the registers; each such degree's release set to POS + (4/5) sps, POS the
block's start; the release of every other degree as it was; ACC less by one step length; nothing else. -/
def Obligations.StepTriggersItsDegrees : Prop :=
  ∀ (s t : State) (oct : Int) (sps : Rat), s.seqPlayStep oct sps = t →
    let g := s.regs.grid[s.seq.step + 1]
    let played := (degreesIn g).foldl (fun u d => u.poolNoteOn d oct) s
    degreesIn g = (List.finRange 12).filter (fun d => g.getLsbD d.val) ∧
    t.voices = played.voices ∧ t.tick = played.tick ∧ t.regs = played.regs ∧ t = played.withSeq t.seq ∧
    t.seq.step = s.seq.step + 1 ∧ t.seq.acc = s.seq.acc - sps ∧ t.seq.pos = s.seq.pos ∧
    (∀ d : Degree,
      (g.getLsbD d.val = true → t.seq.relp[d] = true ∧ t.seq.relt[d] = s.seq.pos.toNat + 4 / 5 * sps) ∧
      (g.getLsbD d.val = false → t.seq.relp[d] = s.seq.relp[d] ∧ t.seq.relt[d] = s.seq.relt[d])) ∧
    t.tick = s.tick + BitVec.ofNat 64 (degreesIn g).length

/-- The release check (R181): every degree whose pending time has come is released and its pending bit cleared; no other
pending bit, no time, no clock changes; and a voice is released exactly when it is active and bound to such a degree. -/
def Obligations.ReleaseCheck : Prop :=
  ∀ s t : State, s.seqReleaseAll = t →
    let due (d : Degree) : Prop := s.seq.relp[d] = true ∧ s.seq.relt[d] ≤ s.seq.pos.toNat
    (∀ d : Degree, (due d → t.seq.relp[d] = false) ∧ (¬ due d → t.seq.relp[d] = s.seq.relp[d])) ∧
    t.seq = { s.seq with relp := t.seq.relp } ∧ t = (s.withVoices t.voices).withSeq t.seq ∧ t.nv = s.nv ∧
    ∀ (i : Nat) (v : Voice), s.voices[i]? = some v →
      ((v.active s.params.eps = true ∧ ∃ d, v.note = some d ∧ due d) →
        t.voices[i]? = some { v with released := true, env := v.env.noteOff s.params.fs }) ∧
      (¬ (v.active s.params.eps = true ∧ ∃ d, v.note = some d ∧ due d) → t.voices[i]? = some v)

/-! ### Numerics and the register map -/

/-- FREQ (R171): 440 * 2^((midi - 69) / 12) with midi = (oct + 1) * 12 + d; positive; doubled by an octave; degree 9 of
octaves 2, 3, 4, 5 is 110, 220, 440, 880 Hz. -/
def Obligations.NoteFrequency : Prop :=
  (∀ (oct : Int) (d : Degree),
    (noteFreq oct d).value = 440 * (2 : ℝ) ^ ((((oct + 1) * 12 + (d.val : Int) - 69 : Int) : ℝ) / 12) ∧
    0 < (noteFreq oct d).value ∧ (noteFreq (oct + 1) d).value = 2 * (noteFreq oct d).value) ∧
  noteFreq 4 9 = .rat 440 ∧ noteFreq 3 9 = .rat 220 ∧ noteFreq 5 9 = .rat 880 ∧ noteFreq 2 9 = .rat 110

/-- f32rnd over the reals (R13): a real below the overflow bound in magnitude goes to a finite pattern whose value is nearest,
and among two nearest to the one with bit 0 clear; one at or above the bound to the infinity of its sign; 0 to 0x00000000.
Decoding a finite pattern and rounding the real it denotes gives the pattern back, but for the negative zero, whose value is
the real 0 (R12). -/
def Obligations.Binary32RoundTrip : Prop :=
  (∀ x : ℝ, |x| < 2 ^ 128 - 2 ^ 103 →
    (f32rndReal x).extractLsb' 23 8 ≠ 255#8 ∧
    ∀ w : Word, w.extractLsb' 23 8 ≠ 255#8 →
      |x - f32val (f32rndReal x)| ≤ |x - f32val w| ∧
      (|x - f32val (f32rndReal x)| = |x - f32val w| →
        f32val w = f32val (f32rndReal x) ∨ (f32rndReal x).getLsbD 0 = false)) ∧
  (∀ x : ℝ, 2 ^ 128 - 2 ^ 103 ≤ |x| → f32rndReal x = if x < 0 then 0xFF800000#32 else 0x7F800000#32) ∧
  f32rndReal 0 = 0x00000000#32 ∧
  ∀ w : Word, w.extractLsb' 23 8 ≠ 255#8 →
    f32rndReal (f32val w) = if w = 0x80000000#32 then 0x00000000#32 else w

/-- The register map (R35, R71): the address of each of the 47 registers; the mapped addresses are 0x0000 to 0x000A, 0x0010
to 0x0013, 0x0018 to 0x001B, 0x0020 to 0x002B and 0x0040 to 0x004F, and no two registers share one; a register written reads
as written and no other changes. -/
def Obligations.RegisterMap : Prop :=
  (∀ r : RegName, r.addr.toNat = match r with
    | .status => 0x0000
    | .play => 0x0001
    | .bpm => 0x0002
    | .octave => 0x0003
    | .polyTarget => 0x0004
    | .gain => 0x0005
    | .remoteGain => 0x0006
    | .jbTarget => 0x0007
    | .jbSize => 0x0008
    | .noteOnReq => 0x0009
    | .noteOffReq => 0x000A
    | .fltType => 0x0010
    | .fltCutoff => 0x0011
    | .fltQ => 0x0012
    | .fltStages => 0x0013
    | .envAttack => 0x0018
    | .envDecay => 0x0019
    | .envSustain => 0x001A
    | .envRelease => 0x001B
    | .oscWave j => 0x0020 + 4 * j.val
    | .oscOct j => 0x0021 + 4 * j.val
    | .oscDetune j => 0x0022 + 4 * j.val
    | .oscPhase j => 0x0023 + 4 * j.val
    | .grid k => 0x0040 + k.val) ∧
  (∀ a : Addr, (∃ r : RegName, r.addr = a) ↔
    a.toNat ≤ 0x000A ∨ (0x0010 ≤ a.toNat ∧ a.toNat ≤ 0x0013) ∨ (0x0018 ≤ a.toNat ∧ a.toNat ≤ 0x001B) ∨
    (0x0020 ≤ a.toNat ∧ a.toNat ≤ 0x002B) ∨ (0x0040 ≤ a.toNat ∧ a.toNat ≤ 0x004F)) ∧
  (∀ r r' : RegName, r.addr = r'.addr → r = r') ∧
  ∀ (s : State) (r : RegName) (w : Word), r ≠ .jbSize → s.Stores r w (s.regWrite r w)

/-- The pseudo-instruction `cell s, d, v` (R115, R59): the write after its read sets one cell of the grid and keeps the eleven
others of that step; every other register reads as before, and nothing else changes. -/
def Obligations.CellWriteSetsOneCell : Prop :=
  ∀ (s : State) (step : Fin 16) (d : Degree) (v : Bool),
    exec (cellRead step) s = .next (s.withIo { s.io with ctrlRsp := s.io.ctrlRsp ++ [s.regs.grid[step]] }) ∧
    ∃ t : State, exec (cellWrite step d v s.regs.grid[step]) s = .next t ∧ t = s.withRegs t.regs ∧
      t.regs.grid[step].getLsbD d.val = v ∧
      (∀ k : Nat, k < 12 → k ≠ d.val → t.regs.grid[step].getLsbD k = s.regs.grid[step].getLsbD k) ∧
      ∀ r : RegName, r ≠ .grid step → t.regRead r = s.regRead r
end

