-- ==== Sys2Proof/Laws/Numbers.lean ====
section
/-!
SUPPORT. What the operand readings can answer: clamps stay within their bounds, wraps within one period.
-/

namespace Sys2Proof.Machine

theorem clamp_mem (x : Rat) {lo hi : Rat} (h : lo ≤ hi) : lo ≤ clamp x lo hi ∧ clamp x lo hi ≤ hi := by
  unfold clamp
  split
  · exact ⟨le_refl _, h⟩
  · split
    · exact ⟨h, le_refl _⟩
    · exact ⟨not_lt.mp ‹_›, not_lt.mp ‹_›⟩

theorem clamp_of_mem {x lo hi : Rat} (h1 : lo ≤ x) (h2 : x ≤ hi) : clamp x lo hi = x := by
  simp [clamp, not_lt.mpr h1, not_lt.mpr h2]

theorem clampInt_mem (x : Int) {lo hi : Int} (h : lo ≤ hi) : lo ≤ clampInt x lo hi ∧ clampInt x lo hi ≤ hi := by
  unfold clampInt
  split <;> [skip; split] <;> omega

/-- Between bounds in order, `clamp` is a maximum of a minimum (R10). -/
theorem clamp_eq_max_min (x : Rat) {lo hi : Rat} (h : lo ≤ hi) : clamp x lo hi = max lo (min x hi) := by
  unfold clamp
  split
  · rw [max_eq_left]
    exact (min_le_left _ _).trans (le_of_lt ‹_›)
  · split
    · rw [min_eq_right (le_of_lt ‹_›), max_eq_right h]
    · rw [min_eq_left (not_lt.mp ‹_›), max_eq_right (not_lt.mp ‹_›)]

theorem clampInt_eq_max_min (x : Int) {lo hi : Int} (h : lo ≤ hi) : clampInt x lo hi = max lo (min x hi) := by
  unfold clampInt
  split <;> [skip; split] <;> omega

theorem rat_floor_eq (x : Rat) : x.floor = ⌊x⌋ := rfl

theorem wrap1_mem (x : Rat) : 0 ≤ wrap1 x ∧ wrap1 x < 1 := by
  have h1 := Int.floor_le x
  have h2 := Int.lt_floor_add_one x
  unfold wrap1
  rw [rat_floor_eq]
  constructor <;> linarith

theorem wrap1_of_mem {x : Rat} (h0 : 0 ≤ x) (h1 : x < 1) : wrap1 x = x := by
  have : ⌊x⌋ = 0 := Int.floor_eq_zero_iff.mpr ⟨h0, h1⟩
  simp [wrap1, rat_floor_eq, this]

/-- Wrapping early does not change a later wrap (R10). -/
theorem wrap1_wrap1_add (x y : Rat) : wrap1 (wrap1 x + y) = wrap1 (x + y) := by
  unfold wrap1
  simp only [rat_floor_eq]
  have : x - ((⌊x⌋ : Int) : Rat) + y = (x + y) - ((⌊x⌋ : Int) : Rat) := by ring
  rw [this, Int.floor_sub_intCast]
  push_cast
  ring

/-- A non-finite pattern is one with exponent field 255 (R12). -/
theorem f32NonFinite_iff (w : Word) : f32NonFinite w = true ↔ w.extractLsb' 23 8 = 255#8 := by
  simp only [f32NonFinite, f32Exp, beq_iff_eq]
  constructor
  · intro h
    apply BitVec.eq_of_toNat_eq
    simpa using h
  · intro h
    rw [h]
    rfl

theorem wrap360_mem (d : Rat) : 0 ≤ wrap360 d ∧ wrap360 d < 360 := by
  have h1 := Int.floor_le (d / 360)
  have h2 := Int.lt_floor_add_one (d / 360)
  unfold wrap360
  rw [rat_floor_eq]
  constructor <;> linarith

theorem pow2_pos (k : Int) : 0 < pow2 k := by
  cases k <;> simp only [pow2] <;> positivity

theorem pow2_eq_zpow (k : Int) : pow2 k = (2 : Rat) ^ k := by
  cases k with
  | ofNat n => simp [pow2]
  | negSucc n => simp [pow2, zpow_negSucc]

theorem degreesIn_mem (w : Word) (d : Degree) : d ∈ degreesIn w ↔ w.getLsbD d.val = true := by
  have : d ∈ degrees := by revert d; decide
  simp [degreesIn, this]

theorem wordBytes_length (w : Word) : (wordBytes w).length = 4 := rfl

theorem bytesWord_wordBytes (w : Word) :
    bytesWord (w.extractLsb' 0 8) (w.extractLsb' 8 8) (w.extractLsb' 16 8) (w.extractLsb' 24 8) = w := by
  apply BitVec.eq_of_getLsbD_eq
  intro i hi
  simp only [bytesWord, BitVec.getLsbD_append, BitVec.getLsbD_extractLsb']
  interval_cases i <;> simp

end Sys2Proof.Machine
end

