-- ==== Sys2Proof/Laws/Exact.lean ====
section
/-!
SUPPORT. What each operation on exact reals denotes: the mathematical one (spec/00_scope.md R10, R14, R15). Later proofs
rewrite with these and never look at how an `Exact` is written down. The word a real is emitted as is R13's.
-/

namespace Sys2Proof.Machine

@[simp] theorem Exact.value_rat (q : Rat) : (Exact.rat q).value = (q : ℝ) := rfl

@[simp] theorem Exact.value_zero : Exact.zero.value = 0 := by simp [Exact.zero]

theorem pow2_cast (k : Int) : ((pow2 k : Rat) : ℝ) = (2 : ℝ) ^ k := by
  rw [pow2_eq_zpow]
  push_cast
  rfl

theorem Exact.value_scaled (q x : Rat) : (Exact.scaled q x).value = (q : ℝ) * (2 : ℝ) ^ (x : ℝ) := by
  unfold Exact.scaled
  split
  · rename_i h
    rcases h with rfl | h
    · simp
    · have e : (x : ℝ) = ((x.num : ℤ) : ℝ) := by
        conv_lhs => rw [← Rat.num_div_den x, h]
        simp
      rw [Exact.value_rat, e, Real.rpow_intCast]
      push_cast
      rw [pow2_cast]
  · rfl

@[simp] theorem Exact.value_plus (a b : Exact) : (a.plus b).value = a.value + b.value := by
  unfold Exact.plus
  split
  · simp
  · split
    · simp_all
    · split
      · simp_all
      · rfl

@[simp] theorem Exact.value_times (a b : Exact) : (a.times b).value = a.value * b.value := by
  unfold Exact.times
  split
  · simp
  · rw [Exact.value_scaled]; simp only [Exact.value]; push_cast; ring
  · rw [Exact.value_scaled]; simp only [Exact.value]; push_cast; ring
  · rw [Exact.value_scaled]
    simp only [Exact.value]
    push_cast
    rw [Real.rpow_add two_pos]
    ring
  · split
    · rename_i h
      rcases h with rfl | rfl <;> simp
    · split
      · simp_all
      · split
        · simp_all
        · rfl

@[simp] theorem Exact.value_neg (a : Exact) : a.neg.value = -a.value := by simp [Exact.neg]

@[simp] theorem Exact.value_minus (a b : Exact) : (a.minus b).value = a.value - b.value := by
  simp [Exact.minus, sub_eq_add_neg]

@[simp] theorem Exact.value_over (a b : Exact) : (a.over b).value = a.value / b.value := by
  unfold Exact.over
  split
  · simp [div_eq_mul_inv]
  · split
    · simp_all
    · rfl

theorem wrap1_cast (q : Rat) : ((wrap1 q : Rat) : ℝ) = Int.fract (q : ℝ) := by
  unfold wrap1
  rw [rat_floor_eq]
  push_cast
  rw [Int.fract, Rat.floor_cast]

@[simp] theorem Exact.value_wrap (a : Exact) : a.wrap.value = Int.fract a.value := by
  unfold Exact.wrap
  split
  · simp [wrap1_cast]
  · simp [Exact.value]
  · rfl

@[simp] theorem Exact.value_squareWave (p : Exact) : p.squareWave.value = if p.value < 1 / 2 then 1 else -1 := by
  unfold Exact.squareWave
  split
  · rename_i q
    have : ((q : ℝ) < 1 / 2) ↔ q < 1 / 2 := by
      rw [show (1 / 2 : ℝ) = ((1 / 2 : Rat) : ℝ) by norm_num]
      exact Rat.cast_lt
    simp only [Exact.value_rat, this]
    split <;> simp
  · rfl

/-! ### The numerics record (R15): the reference functions, and their exact points -/

@[simp] theorem value_sint (p : Exact) : (sint p).value = Real.sin (2 * Real.pi * p.value) := by
  unfold sint
  split
  · rename_i q
    unfold sintRat
    have s1 : Real.sin (2 * Real.pi * (1 / 12)) = 1 / 2 := by
      rw [show 2 * Real.pi * (1 / 12) = Real.pi / 6 by ring, Real.sin_pi_div_six]
    have s3 : Real.sin (2 * Real.pi * (1 / 4)) = 1 := by
      rw [show 2 * Real.pi * (1 / 4) = Real.pi / 2 by ring, Real.sin_pi_div_two]
    have s5 : Real.sin (2 * Real.pi * (5 / 12)) = 1 / 2 := by
      rw [show 2 * Real.pi * (5 / 12) = Real.pi - Real.pi / 6 by ring, Real.sin_pi_sub, Real.sin_pi_div_six]
    have s6 : Real.sin (2 * Real.pi * (1 / 2)) = 0 := by
      rw [show 2 * Real.pi * (1 / 2) = Real.pi by ring, Real.sin_pi]
    have s7 : Real.sin (2 * Real.pi * (7 / 12)) = -1 / 2 := by
      rw [show 2 * Real.pi * (7 / 12) = Real.pi / 6 + Real.pi by ring, Real.sin_add_pi, Real.sin_pi_div_six]
      ring
    have s9 : Real.sin (2 * Real.pi * (3 / 4)) = -1 := by
      rw [show 2 * Real.pi * (3 / 4) = Real.pi / 2 + Real.pi by ring, Real.sin_add_pi, Real.sin_pi_div_two]
    have s11 : Real.sin (2 * Real.pi * (11 / 12)) = -1 / 2 := by
      rw [show 2 * Real.pi * (11 / 12) = 2 * Real.pi - Real.pi / 6 by ring, Real.sin_two_pi_sub, Real.sin_pi_div_six]
      ring
    repeat' split
    all_goals first | rfl | (subst_vars; simp only [Exact.value_rat]; push_cast; simp_all)
  · rfl

@[simp] theorem value_cost (p : Rat) : (cost p).value = Real.cos (2 * Real.pi * (p : ℝ)) := by
  unfold cost
  have c2 : Real.cos (2 * Real.pi * (1 / 6)) = 1 / 2 := by
    rw [show 2 * Real.pi * (1 / 6) = Real.pi / 3 by ring, Real.cos_pi_div_three]
  have c3 : Real.cos (2 * Real.pi * (1 / 4)) = 0 := by
    rw [show 2 * Real.pi * (1 / 4) = Real.pi / 2 by ring, Real.cos_pi_div_two]
  have c4 : Real.cos (2 * Real.pi * (1 / 3)) = -1 / 2 := by
    rw [show 2 * Real.pi * (1 / 3) = Real.pi - Real.pi / 3 by ring, Real.cos_pi_sub, Real.cos_pi_div_three]
    ring
  have c6 : Real.cos (2 * Real.pi * (1 / 2)) = -1 := by
    rw [show 2 * Real.pi * (1 / 2) = Real.pi by ring, Real.cos_pi]
  have c8 : Real.cos (2 * Real.pi * (2 / 3)) = -1 / 2 := by
    rw [show 2 * Real.pi * (2 / 3) = Real.pi / 3 + Real.pi by ring, Real.cos_add_pi, Real.cos_pi_div_three]
    ring
  have c9 : Real.cos (2 * Real.pi * (3 / 4)) = 0 := by
    rw [show 2 * Real.pi * (3 / 4) = Real.pi / 2 + Real.pi by ring, Real.cos_add_pi, Real.cos_pi_div_two, neg_zero]
  have c10 : Real.cos (2 * Real.pi * (5 / 6)) = 1 / 2 := by
    rw [show 2 * Real.pi * (5 / 6) = 2 * Real.pi - Real.pi / 3 by ring, Real.cos_two_pi_sub, Real.cos_pi_div_three]
  repeat' split
  all_goals first | rfl | (subst_vars; simp only [Exact.value_rat]; push_cast; simp_all)

@[simp] theorem value_exp2 (x : Rat) : (exp2 x).value = (2 : ℝ) ^ (x : ℝ) := by
  simp [exp2, Exact.value_scaled]

/-! ### Emission (R13, R74, R76) -/

/-- The exponent of a positive rational: 2^k <= a < 2^(k+1). -/
theorem floorLog2_spec {a : Rat} (h : 0 < a) : pow2 (floorLog2 a) ≤ a ∧ a < pow2 (floorLog2 a + 1) := by
  have hn : 0 < a.num := Rat.num_pos.mpr h
  set N := a.num.natAbs with hN
  have hNpos : N ≠ 0 := by omega
  have hD : a.den ≠ 0 := a.den_nz
  have ea : a = (N : Rat) / (a.den : Rat) := by
    conv_lhs => rw [← Rat.num_div_den a]
    have : (a.num : Rat) = (N : Rat) := by
      rw [show a.num = (N : Int) by omega]; simp
    rw [this]
  have n1 : (2 : Rat) ^ Nat.log2 N ≤ N := by exact_mod_cast Nat.log2_self_le hNpos
  have n2 : (N : Rat) < 2 ^ (Nat.log2 N + 1) := by exact_mod_cast Nat.lt_log2_self
  have d1 : (2 : Rat) ^ Nat.log2 a.den ≤ a.den := by exact_mod_cast Nat.log2_self_le hD
  have d2 : (a.den : Rat) < 2 ^ (Nat.log2 a.den + 1) := by exact_mod_cast Nat.lt_log2_self
  have hDp : (0 : Rat) < a.den := by positivity
  set k : Int := (Nat.log2 N : Int) - (Nat.log2 a.den : Int) with hk
  have up : a < pow2 (k + 1) := by
    rw [pow2_eq_zpow, ea, div_lt_iff₀ hDp]
    calc (N : Rat) < 2 ^ (Nat.log2 N + 1) := n2
      _ = (2 : Rat) ^ (k + 1) * 2 ^ Nat.log2 a.den := by
        rw [← zpow_natCast, ← zpow_natCast, ← zpow_add₀ two_ne_zero]; congr 1; omega
      _ ≤ _ := by gcongr
  have lo : pow2 (k - 1) ≤ a := by
    rw [pow2_eq_zpow, ea, le_div_iff₀ hDp]
    calc (2 : Rat) ^ (k - 1) * a.den ≤ 2 ^ (k - 1) * 2 ^ (Nat.log2 a.den + 1) := by gcongr
      _ = 2 ^ Nat.log2 N := by
        rw [← zpow_natCast, ← zpow_natCast, ← zpow_add₀ two_ne_zero]; congr 1; push_cast; omega
      _ ≤ N := n1
  have e : floorLog2 a = if pow2 k ≤ a then k else k - 1 := rfl
  rw [e]
  split
  · exact ⟨‹_›, up⟩
  · exact ⟨lo, by rw [show k - 1 + 1 = k by ring]; exact not_le.mp ‹_›⟩

/-- It is the integer logarithm of the real. -/
theorem floorLog2_eq {a : Rat} (h : 0 < a) : floorLog2 a = Int.log 2 (a : ℝ) := by
  obtain ⟨h1, h2⟩ := floorLog2_spec h
  have hp : (0 : ℝ) < (a : ℝ) := by exact_mod_cast h
  have h1' : ((2 : ℕ) : ℝ) ^ floorLog2 a ≤ (a : ℝ) := by
    have : ((pow2 (floorLog2 a) : Rat) : ℝ) ≤ (a : ℝ) := by exact_mod_cast h1
    rwa [pow2_cast] at this
  have h2' : (a : ℝ) < ((2 : ℕ) : ℝ) ^ (floorLog2 a + 1) := by
    have : (a : ℝ) < ((pow2 (floorLog2 a + 1) : Rat) : ℝ) := by exact_mod_cast h2
    rwa [pow2_cast] at this
  have a1 := (Int.zpow_le_iff_le_log one_lt_two hp).mp h1'
  have a2 := (Int.lt_zpow_iff_log_lt one_lt_two hp).mp h2'
  omega

theorem roundHalfEven_cast (x : Rat) : roundHalfEvenReal (x : ℝ) = roundHalfEven x := by
  have e : ⌊(x : ℝ)⌋ = x.floor := by rw [Rat.floor_cast]; rfl
  have c1 : ((x : ℝ) - ((x.floor.toNat : ℕ) : ℝ) < 1 / 2) ↔ x - (x.floor.toNat : Rat) < 1 / 2 := by
    rw [show (x : ℝ) - ((x.floor.toNat : ℕ) : ℝ) = ((x - (x.floor.toNat : Rat) : Rat) : ℝ) by push_cast; rfl,
      show (1 / 2 : ℝ) = ((1 / 2 : Rat) : ℝ) by norm_num, Rat.cast_lt]
  have c2 : (1 / 2 < (x : ℝ) - ((x.floor.toNat : ℕ) : ℝ)) ↔ 1 / 2 < x - (x.floor.toNat : Rat) := by
    rw [show (x : ℝ) - ((x.floor.toNat : ℕ) : ℝ) = ((x - (x.floor.toNat : Rat) : Rat) : ℝ) by push_cast; rfl,
      show (1 / 2 : ℝ) = ((1 / 2 : Rat) : ℝ) by norm_num, Rat.cast_lt]
  simp only [roundHalfEvenReal, roundHalfEven, e, c1, c2]

/-- Rounding a rational as a real and as a rational give the same bits (R13). -/
theorem f32Magnitude_cast {a : Rat} (h : 0 < a) : f32MagnitudeReal (a : ℝ) = f32Magnitude a := by
  simp only [f32MagnitudeReal, f32Magnitude, ← floorLog2_eq h]
  rw [← roundHalfEven_cast]
  push_cast
  rw [pow2_cast]

theorem f32rnd_cast (x : Rat) : f32rndReal (x : ℝ) = f32rnd x := by
  unfold f32rndReal f32rnd
  have h0 : ((x : ℝ) = 0) ↔ x = 0 := by exact_mod_cast Iff.rfl
  have hn : ((x : ℝ) < 0) ↔ x < 0 := by exact_mod_cast Iff.rfl
  have ha : |(x : ℝ)| = (((if x < 0 then -x else x) : Rat) : ℝ) := by
    split
    · rw [abs_of_neg (by exact_mod_cast ‹x < 0›)]; push_cast; rfl
    · rw [abs_of_nonneg (by exact_mod_cast not_lt.mp ‹_›)]
  simp only [h0, hn, ha]
  split
  · rfl
  · rename_i hx
    have hpos : 0 < (if x < 0 then -x else x) := by
      split
      · linarith
      · exact lt_of_le_of_ne (not_lt.mp ‹_›) (Ne.symm hx)
    have hb : ((2 : ℝ) ^ 128 - 2 ^ 103 ≤ (((if x < 0 then -x else x) : Rat) : ℝ)) ↔
        pow2 128 - pow2 103 ≤ (if x < 0 then -x else x) := by
      rw [← Rat.cast_le (K := ℝ)]
      push_cast
      rw [pow2_cast, pow2_cast]
      norm_cast
    simp only [hb, f32Magnitude_cast hpos]

/-- The word a sample of OUT is emitted as is `f32rnd` of its value (R13, R209). -/
theorem Exact.word_emitted (x : Exact) : x.emitted.word = f32rndReal x.value := by
  unfold Exact.emitted
  split
  · exact (f32rnd_cast _).symm
  · rfl

/-- The bytes sent for a word are those of the word (R74, R76). -/
theorem Sample.byte_bytes (s : Sample) : s.bytes.map OutByte.byte = wordBytes s.word := by
  cases s <;> rfl

end Sys2Proof.Machine
end

