-- ==== Sys2Proof/Laws/Datapath.lean ====
section
/-!
SUPPORT. What the unit operations of one voice can do: oscillator bank, filter, envelope, render, latch
(spec/41_oscillator_bank.md to 44_voice.md). One lemma per operation says what it changes; the WF lemmas say that it
keeps R29 and the lifecycle of R167.
-/

namespace Sys2Proof.Machine

/-! ### samples (R153) -/

theorem samples_ge_one (fs t : Rat) : 1 ≤ samples fs t := by
  unfold samples
  split
  · exact le_refl _
  · exact not_lt.mp ‹_›

theorem samples_pos (fs t : Rat) : 0 < samples fs t := lt_of_lt_of_le one_pos (samples_ge_one fs t)

theorem samples_eq_max (fs t : Rat) : samples fs t = max 1 (t * fs) := by
  unfold samples
  rcases le_or_gt 1 (t * fs) with h | h
  · rw [if_neg (not_lt.mpr h), max_eq_right h]
  · rw [if_pos h, max_eq_left h.le]

/-! ### Oscillator bank -/

@[simp] theorem Osc.advance_wave (fs : Rat) (f : Exact) (o : Osc) : (o.advance fs f).wave = o.wave := rfl
@[simp] theorem Osc.advance_oct (fs : Rat) (f : Exact) (o : Osc) : (o.advance fs f).oct = o.oct := rfl
@[simp] theorem Osc.advance_det (fs : Rat) (f : Exact) (o : Osc) : (o.advance fs f).det = o.det := rfl
@[simp] theorem Osc.advance_phoff (fs : Rat) (f : Exact) (o : Osc) : (o.advance fs f).phoff = o.phoff := rfl

theorem Osc.value_increment (fs : Rat) (f : Exact) (o : Osc) : (o.increment fs f).value =
    f.value / fs * 2 ^ ((o.oct : ℝ) / 12) * 2 ^ ((o.det : ℝ) / 1200) := by
  simp [Osc.increment]

theorem Osc.value_advance_phase (fs : Rat) (f : Exact) (o : Osc) :
    (o.advance fs f).phase.value = Int.fract (o.phase.value + (o.increment fs f).value) := by
  simp [Osc.advance]

theorem Osc.advance_phase_mem (fs : Rat) (f : Exact) (o : Osc) :
    0 ≤ (o.advance fs f).phase.value ∧ (o.advance fs f).phase.value < 1 := by
  rw [Osc.value_advance_phase]
  exact ⟨Int.fract_nonneg _, Int.fract_lt_one _⟩

theorem Osc.WF.advance {o : Osc} (h : o.WF) (fs : Rat) (f : Exact) : (o.advance fs f).WF :=
  ⟨o.advance_phase_mem fs f, h.2⟩

/-- WAVE at a phase: the table of R132. -/
theorem value_waveValue (w : Wave) (p : Exact) : (waveValue w p).value =
    match w with
    | .saw => 2 * p.value - 1
    | .square => if p.value < 1 / 2 then 1 else -1
    | .sine => Real.sin (2 * Real.pi * p.value) := by
  cases w <;> simp [waveValue]

theorem waveValue_mem (w : Wave) {p : Exact} (h0 : 0 ≤ p.value) (h1 : p.value < 1) :
    -1 ≤ (waveValue w p).value ∧ (waveValue w p).value ≤ 1 := by
  rw [value_waveValue]
  cases w
  · constructor <;> dsimp only <;> linarith
  · dsimp only; split <;> norm_num
  · exact ⟨Real.neg_one_le_sin _, Real.sin_le_one _⟩

theorem Osc.value_mem (o : Osc) : -1 ≤ o.value.value ∧ o.value.value ≤ 1 := by
  refine waveValue_mem _ ?_ ?_ <;> rw [Exact.value_wrap]
  · exact Int.fract_nonneg _
  · exact Int.fract_lt_one _

theorem value_bankValue (o : Vector Osc 3) :
    (bankValue o).value = (o[0].value.value + o[1].value.value + o[2].value.value) / 3 := by
  simp [bankValue]

theorem bankValue_mem (o : Vector Osc 3) : -1 ≤ (bankValue o).value ∧ (bankValue o).value ≤ 1 := by
  have h0 := o[0].value_mem
  have h1 := o[1].value_mem
  have h2 := o[2].value_mem
  rw [value_bankValue]
  constructor <;> linarith [h0.1, h0.2, h1.1, h1.2, h2.1, h2.2]

@[simp] theorem bankAdvance_zero (fs : Rat) (f : Exact) (o : Vector Osc 3) : (bankAdvance fs f o)[0] = o[0].advance fs f := rfl
@[simp] theorem bankAdvance_one (fs : Rat) (f : Exact) (o : Vector Osc 3) : (bankAdvance fs f o)[1] = o[1].advance fs f := rfl
@[simp] theorem bankAdvance_two (fs : Rat) (f : Exact) (o : Vector Osc 3) : (bankAdvance fs f o)[2] = o[2].advance fs f := rfl

theorem Osc.WF.latch {o : Osc} (h : o.WF) (r : RegFile) (j : Fin 3) : (o.latch r j).WF := by
  refine ⟨h.1, ?_, clampInt_mem _ (by decide), clamp_mem _ (by norm_num)⟩
  have := wrap360_mem (f32val r.oscPhase[j])
  change 0 ≤ wrap360 _ / 360 ∧ wrap360 _ / 360 < 1
  constructor
  · exact div_nonneg this.1 (by norm_num)
  · rw [div_lt_one (by norm_num)]; exact this.2

/-! ### Filter: the quantities of FLT.COEF (R141) -/

/-- The cutoff the coefficients are computed from (R141). -/
theorem effectiveCutoff_mem {fs : Rat} (h : 400 / 9 ≤ fs) (c : Rat) :
    20 ≤ effectiveCutoff fs c ∧ effectiveCutoff fs c ≤ 9 / 20 * fs :=
  clamp_mem _ (by linarith)

theorem value_filterAlpha (fs cutoff q : Rat) : (filterAlpha fs cutoff q).value =
    Real.sin (2 * Real.pi * ((effectiveCutoff fs cutoff : ℝ) / fs)) / (2 * (effectiveQ q : ℝ)) := by
  simp [filterAlpha]

/-- omega0 lies strictly between 0 and pi (R141). -/
theorem filterOmega_mem {fs : Rat} (h : 400 / 9 ≤ fs) (c : Rat) :
    0 < 2 * Real.pi * ((effectiveCutoff fs c : ℝ) / fs) ∧
      2 * Real.pi * ((effectiveCutoff fs c : ℝ) / fs) < Real.pi := by
  obtain ⟨h1, h2⟩ := effectiveCutoff_mem h c
  have hp := Real.pi_pos
  have hfs : (0 : ℝ) < fs := by exact_mod_cast lt_of_lt_of_le (by norm_num) h
  have h1' : (20 : ℝ) ≤ (effectiveCutoff fs c : ℝ) := by exact_mod_cast h1
  have h2' : (effectiveCutoff fs c : ℝ) ≤ 9 / 20 * fs := by
    have := (Rat.cast_le (K := ℝ)).mpr h2
    push_cast at this
    exact this
  have hd : (effectiveCutoff fs c : ℝ) / fs ≤ 9 / 20 := by
    rw [div_le_iff₀ hfs]
    exact h2'
  have hd0 : 0 < (effectiveCutoff fs c : ℝ) / fs := div_pos (by linarith) hfs
  constructor
  · positivity
  · nlinarith

/-- alpha is above 0, so a0 = 1 + alpha is above 1 (R141, R146). -/
theorem filterAlpha_pos {fs : Rat} (h : 400 / 9 ≤ fs) (cutoff q : Rat) : 0 < (filterAlpha fs cutoff q).value := by
  rw [value_filterAlpha]
  have hq : (1 / 10 : Rat) ≤ effectiveQ q := (clamp_mem _ (by norm_num)).1
  have hq' : (0 : ℝ) < (effectiveQ q : ℝ) := by exact_mod_cast lt_of_lt_of_le (by norm_num) hq
  obtain ⟨h1, h2⟩ := filterOmega_mem h cutoff
  exact div_pos (Real.sin_pos_of_pos_of_lt_pi h1 h2) (by positivity)

/-- cos(omega0) lies strictly between -1 and 1 (R141, R146). -/
theorem abs_cos_lt_one {fs : Rat} (h : 400 / 9 ≤ fs) (cutoff : Rat) :
    |(cost (effectiveCutoff fs cutoff / fs)).value| < 1 := by
  obtain ⟨h1, h2⟩ := filterOmega_mem h cutoff
  rw [value_cost]
  push_cast
  have hs := Real.sin_pos_of_pos_of_lt_pi h1 h2
  have := Real.sin_sq_add_cos_sq (2 * Real.pi * ((effectiveCutoff fs cutoff : ℝ) / fs))
  rw [abs_lt]
  constructor <;> nlinarith

/-! ### Envelope: the transitions (R150) and the bounds (R29) -/

theorem Envelope.WF.noteOn {e : Envelope} (h : e.WF) (fs : Rat) : (e.noteOn fs).WF := by
  refine ⟨h.1, h.2.1, ?_, ?_, ?_, ?_⟩ <;> simp only [Envelope.noteOn, reduceCtorEq, false_implies, forall_const]
  exact div_nonneg zero_le_one (samples_pos _ _).le

theorem Envelope.WF.noteOff {e : Envelope} (h : e.WF) (fs : Rat) : (e.noteOff fs).WF := by
  unfold Envelope.noteOff
  split
  · exact h
  · refine ⟨h.1, h.2.1, ?_, ?_, ?_, ?_⟩ <;> simp only [reduceCtorEq, false_implies, forall_const]
    exact div_nonpos_of_nonpos_of_nonneg (neg_nonpos.mpr h.1.1) (samples_pos _ _).le

/-- What one tick can do, case by case: the transition table of R150. -/
theorem Envelope.tick_cases (fs : Rat) (e : Envelope) :
    (e.stage = .idle ∧ e.tick fs = e) ∨
    (e.stage = .attack ∧ e.level + e.inc < 1 ∧ e.tick fs = { e with level := e.level + e.inc }) ∨
    (e.stage = .attack ∧ 1 ≤ e.level + e.inc ∧
      e.tick fs = { e with stage := .decay, level := 1, inc := -(1 - e.sustainL) / samples fs e.decayT }) ∨
    (e.stage = .decay ∧ e.sustainL < e.level + e.inc ∧ e.tick fs = { e with level := e.level + e.inc }) ∨
    (e.stage = .decay ∧ e.level + e.inc ≤ e.sustainL ∧
      e.tick fs = { e with stage := .sustain, level := e.sustainL, inc := 0 }) ∨
    (e.stage = .sustain ∧ e.tick fs = e) ∨
    (e.stage = .release ∧ 0 < e.level + e.inc ∧ e.tick fs = { e with level := e.level + e.inc }) ∨
    (e.stage = .release ∧ e.level + e.inc ≤ 0 ∧ e.tick fs = { e with stage := .idle, level := 0, inc := 0 }) := by
  unfold Envelope.tick
  cases h : e.stage
  · simp
  · by_cases c : 1 ≤ e.level + e.inc
    · simp [c]
    · simp [c, not_le.mp c]
  · by_cases c : e.level + e.inc ≤ e.sustainL
    · simp [c]
    · simp [c, not_le.mp c]
  · simp
  · by_cases c : e.level + e.inc ≤ 0
    · simp [c]
    · simp [c, not_le.mp c]

/-- A tick keeps the four parameters (R150). -/
theorem Envelope.tick_params (fs : Rat) (e : Envelope) :
    (e.tick fs).attackT = e.attackT ∧ (e.tick fs).decayT = e.decayT ∧ (e.tick fs).sustainL = e.sustainL ∧
      (e.tick fs).releaseT = e.releaseT := by
  rcases e.tick_cases fs with ⟨-, h⟩ | ⟨-, -, h⟩ | ⟨-, -, h⟩ | ⟨-, -, h⟩ | ⟨-, -, h⟩ | ⟨-, h⟩ | ⟨-, -, h⟩ | ⟨-, -, h⟩ <;>
    rw [h] <;> exact ⟨rfl, rfl, rfl, rfl⟩

theorem Envelope.WF.tick {e : Envelope} (h : e.WF) (fs : Rat) : (e.tick fs).WF := by
  obtain ⟨⟨hl0, hl1⟩, ⟨hs0, hs1⟩, hi, ha, hd, hr⟩ := h
  rcases e.tick_cases fs with ⟨hst, he⟩ | ⟨hst, c, he⟩ | ⟨hst, c, he⟩ | ⟨hst, c, he⟩ | ⟨hst, c, he⟩ | ⟨hst, he⟩ |
    ⟨hst, c, he⟩ | ⟨hst, c, he⟩ <;> rw [he]
  · exact ⟨⟨hl0, hl1⟩, ⟨hs0, hs1⟩, hi, ha, hd, hr⟩
  · exact ⟨⟨by linarith [ha hst], c.le⟩, ⟨hs0, hs1⟩, by simp [hst], ha, by simp [hst], by simp [hst]⟩
  · refine ⟨⟨by norm_num, le_refl _⟩, ⟨hs0, hs1⟩, by simp, by simp, fun _ => ?_, by simp⟩
    exact div_nonpos_of_nonpos_of_nonneg (by linarith) (samples_pos _ _).le
  · exact ⟨⟨by linarith, by linarith [hd hst]⟩, ⟨hs0, hs1⟩, by simp [hst], by simp [hst], hd, by simp [hst]⟩
  · exact ⟨⟨hs0, hs1⟩, ⟨hs0, hs1⟩, by simp, by simp, by simp, by simp⟩
  · exact ⟨⟨hl0, hl1⟩, ⟨hs0, hs1⟩, hi, ha, hd, hr⟩
  · exact ⟨⟨c.le, by linarith [hr hst]⟩, ⟨hs0, hs1⟩, by simp [hst], by simp [hst], by simp [hst], hr⟩
  · exact ⟨⟨le_refl _, by norm_num⟩, ⟨hs0, hs1⟩, by simp, by simp, by simp, by simp⟩

theorem Envelope.WF.set {e : Envelope} (h : e.WF) (a d s r : Word) : (e.set a d s r).WF :=
  ⟨h.1, clamp_mem _ (by norm_num), h.2.2⟩

/-! ### Voice: one frame, n frames, the render -/

@[simp] theorem Voice.refreshFilter_osc (fs : Rat) (v : Voice) : (v.refreshFilter fs).osc = v.osc := by
  unfold Voice.refreshFilter; split <;> rfl
@[simp] theorem Voice.refreshFilter_env (fs : Rat) (v : Voice) : (v.refreshFilter fs).env = v.env := by
  unfold Voice.refreshFilter; split <;> rfl
@[simp] theorem Voice.refreshFilter_nst (fs : Rat) (v : Voice) : (v.refreshFilter fs).nst = v.nst := by
  unfold Voice.refreshFilter; split <;> rfl
@[simp] theorem Voice.refreshFilter_note (fs : Rat) (v : Voice) : (v.refreshFilter fs).note = v.note := by
  unfold Voice.refreshFilter; split <;> rfl
@[simp] theorem Voice.refreshFilter_released (fs : Rat) (v : Voice) : (v.refreshFilter fs).released = v.released := by
  unfold Voice.refreshFilter; split <;> rfl
@[simp] theorem Voice.refreshFilter_lastUsed (fs : Rat) (v : Voice) : (v.refreshFilter fs).lastUsed = v.lastUsed := by
  unfold Voice.refreshFilter; split <;> rfl
@[simp] theorem Voice.refreshFilter_freq (fs : Rat) (v : Voice) : (v.refreshFilter fs).freq = v.freq := by
  unfold Voice.refreshFilter; split <;> rfl
@[simp] theorem Voice.refreshFilter_gain (fs : Rat) (v : Voice) : (v.refreshFilter fs).gain = v.gain := by
  unfold Voice.refreshFilter; split <;> rfl
@[simp] theorem Voice.refreshFilter_dirty (fs : Rat) (v : Voice) : (v.refreshFilter fs).dirty = false := by
  unfold Voice.refreshFilter; split <;> simp_all

@[simp] theorem Voice.frame_env (fs : Rat) (v : Voice) : (v.frame fs).1.env = v.env.tick fs := rfl
@[simp] theorem Voice.frame_osc (fs : Rat) (v : Voice) : (v.frame fs).1.osc = bankAdvance fs v.freq v.osc := rfl
@[simp] theorem Voice.frame_note (fs : Rat) (v : Voice) : (v.frame fs).1.note = v.note := rfl
@[simp] theorem Voice.frame_released (fs : Rat) (v : Voice) : (v.frame fs).1.released = v.released := rfl
@[simp] theorem Voice.frame_nst (fs : Rat) (v : Voice) : (v.frame fs).1.nst = v.nst := rfl
@[simp] theorem Voice.frame_lastUsed (fs : Rat) (v : Voice) : (v.frame fs).1.lastUsed = v.lastUsed := rfl
@[simp] theorem Voice.frame_freq (fs : Rat) (v : Voice) : (v.frame fs).1.freq = v.freq := rfl
@[simp] theorem Voice.frame_gain (fs : Rat) (v : Voice) : (v.frame fs).1.gain = v.gain := rfl
@[simp] theorem Voice.frame_dirty (fs : Rat) (v : Voice) : (v.frame fs).1.dirty = v.dirty := rfl
@[simp] theorem Voice.frame_coeffs (fs : Rat) (v : Voice) : (v.frame fs).1.coeffs = v.coeffs := rfl
@[simp] theorem Voice.frame_ftype (fs : Rat) (v : Voice) : (v.frame fs).1.ftype = v.ftype := rfl
@[simp] theorem Voice.frame_cutoff (fs : Rat) (v : Voice) : (v.frame fs).1.cutoff = v.cutoff := rfl
@[simp] theorem Voice.frame_q (fs : Rat) (v : Voice) : (v.frame fs).1.q = v.q := rfl

/-- A render yields one contribution per frame (R161). -/
theorem Voice.frames_length (fs : Rat) (n : Nat) (v : Voice) : (Voice.frames fs n v).2.length = n := by
  induction n generalizing v with
  | zero => rfl
  | succ n ih => simp [Voice.frames, ih]

theorem Voice.render_length (fs : Rat) (n : Nat) (v : Voice) : (v.render fs n).2.length = n :=
  Voice.frames_length _ _ _

/-- What one frame contributes: gain times the level after the tick times the filtered sample (R161). -/
theorem Voice.value_frame (fs : Rat) (v : Voice) : (v.frame fs).2.value =
    (v.gain : ℝ) * (v.env.tick fs).level *
      (filterProcess v.coeffs v.nst v.st (oscRenderSample fs v.freq v.osc).2).2.value := by
  simp only [Voice.frame, Exact.value_times, Exact.value_rat]
  push_cast
  rfl

/-- n frames one by one: the voice is iterated, and frame t contributes what one frame of the voice does by then (R161). -/
theorem Voice.frames_eq (fs : Rat) (n : Nat) (v : Voice) :
    (Voice.frames fs n v).1 = (fun u : Voice => (u.frame fs).1)^[n] v ∧
    ∀ t, frameValue (Voice.frames fs n v).2 t =
      if t < n then (((fun u : Voice => (u.frame fs).1)^[t] v).frame fs).2.value else 0 := by
  induction n generalizing v with
  | zero => exact ⟨rfl, fun t => by simp [Voice.frames, frameValue]⟩
  | succ n ih =>
    obtain ⟨h1, h2⟩ := ih (v.frame fs).1
    refine ⟨h1, fun t => ?_⟩
    cases t with
    | zero => simp [Voice.frames, frameValue]
    | succ t => simpa [frameValue, Voice.frames] using h2 t

/-- What holds of a voice at the start of a render and one frame keeps, holds at its end. -/
theorem Voice.frames_induction {fs : Rat} {P : Voice → Prop} (step : ∀ v, P v → P (v.frame fs).1) (n : Nat)
    (v : Voice) (h : P v) : P (Voice.frames fs n v).1 := by
  induction n generalizing v with
  | zero => exact h
  | succ n ih => exact ih _ (step v h)

/-- While a block renders: the bounds of R29, and the lifecycle of R167 but for the reclamation still to come. -/
def Voice.MidWF (v : Voice) : Prop :=
  (v.osc[0].WF ∧ v.osc[1].WF ∧ v.osc[2].WF) ∧ v.env.WF ∧ v.nst ≤ 4 ∧
  (v.env.stage = .idle → v.note = none ∨ v.released = true) ∧
  (v.env.stage ≠ .idle → v.note ≠ none ∧ (v.released = true ↔ v.env.stage = .release))

theorem Voice.WF.mid {v : Voice} (h : v.WF) : v.MidWF := by
  obtain ⟨ho, he, hn, hb, hr⟩ := h
  exact ⟨ho, he, hn, fun hi => .inl (hb.mpr hi), fun hi => ⟨fun e => hi (hb.mp e), hr fun e => hi (hb.mp e)⟩⟩

theorem Voice.MidWF.frame {v : Voice} (h : v.MidWF) (fs : Rat) : (v.frame fs).1.MidWF := by
  obtain ⟨⟨h0, h1, h2⟩, he, hn, hi, hr⟩ := h
  refine ⟨⟨h0.advance _ _, h1.advance _ _, h2.advance _ _⟩, he.tick fs, hn, ?_, ?_⟩ <;>
    simp only [Voice.frame_env, Voice.frame_note, Voice.frame_released] <;>
    rcases v.env.tick_cases fs with ⟨hst, e⟩ | ⟨hst, c, e⟩ | ⟨hst, c, e⟩ | ⟨hst, c, e⟩ | ⟨hst, c, e⟩ | ⟨hst, e⟩ |
      ⟨hst, c, e⟩ | ⟨hst, c, e⟩ <;> rw [e] <;> simp_all

theorem Voice.MidWF.refresh {v : Voice} (h : v.MidWF) (fs : Rat) : (v.refreshFilter fs).MidWF := by
  simpa [Voice.MidWF] using h

theorem Voice.MidWF.render {v : Voice} (h : v.MidWF) (fs : Rat) (n : Nat) : (v.render fs n).1.MidWF :=
  Voice.frames_induction (P := Voice.MidWF) (fun _ hv => hv.frame fs) n _ (h.refresh fs)

/-- With EPS >= 0 and the bounds of R29 a voice is active exactly when its stage is not Idle (R164). -/
theorem active_eq_of_env {p : Params} (hp : 0 ≤ p.eps) {v : Voice} (he : v.env.WF) :
    v.active p.eps = decide (v.env.stage ≠ .idle) := by
  unfold Voice.active
  by_cases hi : v.env.stage = .idle
  · simp [hi, (he.2.2.1 hi).1, hp]
  · simp [hi]

theorem Voice.MidWF.reclaim {p : Params} (hp : 0 ≤ p.eps) {v : Voice} (h : v.MidWF) : (v.reclaim p.eps).WF := by
  have ha := active_eq_of_env hp h.2.1
  obtain ⟨ho, he, hn, hi, hr⟩ := h
  unfold Voice.reclaim
  rw [ha]
  by_cases hs : v.env.stage = .idle
  · by_cases hrel : v.released = true
    · simp [hs, hrel]
      exact ⟨ho, he, hn, by simp [hs], by simp⟩
    · have : v.note = none := by
        rcases hi hs with h | h
        · exact h
        · exact absurd h hrel
      simp [hs, hrel]
      exact ⟨ho, he, hn, by simp [hs, this], by simp [this]⟩
  · simp [hs]
    exact ⟨ho, he, hn, by simp [hs, (hr hs).1], fun _ => (hr hs).2⟩

/-- One voice's turn in the mix keeps it well formed (R175, R167). -/
theorem Voice.WF.mixInto {p : Params} (hp : 0 ≤ p.eps) {v : Voice} (h : v.WF) (n : Nat) (out : List Exact) :
    (v.mixInto p n out).1.WF := by
  unfold Voice.mixInto
  split
  · exact (h.mid.render p.fs n).reclaim hp
  · exact h.mid.reclaim hp

/-! ### Note-on, note-off, latch of one voice -/

theorem Voice.WF.take {v : Voice} (h : v.WF) (fs : Rat) (d : Degree) (oct : Int) (t : BitVec 64) :
    (v.take fs d oct t).WF :=
  ⟨h.1, h.2.1.noteOn fs, h.2.2.1, by simp [Voice.take, Voice.noteOn, Envelope.noteOn],
    by simp [Voice.take, Voice.noteOn, Envelope.noteOn]⟩

theorem Voice.WF.releaseIf {p : Params} (hp : 0 ≤ p.eps) {v : Voice} (h : v.WF) (d : Degree) :
    (v.releaseIf p d).WF := by
  unfold Voice.releaseIf
  rw [active_eq_of_env hp h.2.1]
  split
  · rename_i c
    have hs : v.env.stage ≠ .idle := by simpa using c.1
    refine ⟨h.1, h.2.1.noteOff p.fs, h.2.2.1, ?_, ?_⟩ <;> simp [Voice.noteOff, Envelope.noteOff, hs, c.2]
  · exact h

theorem stageCount_le (w : Word) : stageCount w ≤ 4 := by
  have := clampInt_mem (s32 w) (lo := 0) (hi := 4) (by decide)
  unfold stageCount
  omega

/-- What the latch leaves in a voice, field by field (R205). -/
theorem Voice.latch_fields (r : RegFile) (v : Voice) :
    (v.latch r).osc = #v[v.osc[0].latch r 0, v.osc[1].latch r 1, v.osc[2].latch r 2] ∧
    (v.latch r).ftype = filterTypeOf r.fltType ∧ (v.latch r).cutoff = f32val r.fltCutoff ∧
    (v.latch r).q = f32val r.fltQ ∧ (v.latch r).nst = stageCount r.fltStages ∧
    (v.latch r).env = v.env.set r.envAttack r.envDecay r.envSustain r.envRelease ∧
    (v.latch r).gain = f32val r.gain ∧ (v.latch r).note = v.note ∧ (v.latch r).released = v.released ∧
    (v.latch r).lastUsed = v.lastUsed ∧ (v.latch r).freq = v.freq ∧ (v.latch r).coeffs = v.coeffs ∧
    (v.latch r).st = v.st := by
  simp only [Voice.latch, Voice.filterSet, Voice.setGain]
  split
  · rename_i c
    obtain ⟨c1, c2, c3, c4⟩ := c
    refine ⟨rfl, c1, c2, c3, c4, ?_, ?_, ?_, ?_, ?_, ?_, ?_, ?_⟩ <;> first | rfl | trivial
  · refine ⟨rfl, rfl, rfl, rfl, rfl, ?_, ?_, ?_, ?_, ?_, ?_, ?_, ?_⟩ <;> first | rfl | trivial

theorem Voice.WF.latch {v : Voice} (h : v.WF) (r : RegFile) : (v.latch r).WF := by
  obtain ⟨ho, -, -, -, hn, he, -, hnote, hrel, -⟩ := v.latch_fields r
  refine ⟨?_, ?_, ?_, ?_, ?_⟩
  · rw [ho]; exact ⟨h.1.1.latch r 0, h.1.2.1.latch r 1, h.1.2.2.latch r 2⟩
  · rw [he]; exact h.2.1.set _ _ _ _
  · rw [hn]; exact stageCount_le _
  · rw [hnote, he]; exact h.2.2.2.1
  · rw [hnote, hrel, he]; exact h.2.2.2.2

theorem sustain_reset : f32val 0x3F333333#32 = 11744051 / 16777216 := by decide +kernel

theorem Voice.reset_WF : Voice.reset.WF := by
  refine ⟨by simp [Voice.reset, Osc.reset, Osc.WF], ?_, by decide, by simp [Voice.reset, Envelope.reset], by simp [Voice.reset]⟩
  simp [Voice.reset, Envelope.reset, Envelope.WF]
  rw [sustain_reset]
  constructor <;> norm_num

/-! ### Adding frames into OUT (R166) -/

@[simp] theorem addFrames_nil (os : List Exact) : addFrames os [] = os := by cases os <;> rfl

@[simp] theorem addFrames_length (os xs : List Exact) : (addFrames os xs).length = os.length := by
  induction os generalizing xs with
  | nil => cases xs <;> rfl
  | cons o os ih => cases xs with
    | nil => rfl
    | cons x xs => simp [addFrames, ih]

/-- A frame gets its contribution added, a frame past the contributions nothing (R166). -/
theorem addFrames_value (os xs : List Exact) (t : Nat) (h : t < os.length) :
    frameValue (addFrames os xs) t = frameValue os t + frameValue xs t := by
  induction os generalizing xs t with
  | nil => simp at h
  | cons o os ih => cases xs with
    | nil => simp [frameValue]
    | cons x xs => cases t with
      | zero => simp [addFrames, frameValue]
      | succ t => simpa [addFrames, frameValue] using ih xs t (by simpa using h)

theorem mixVoices_length (p : Params) (n : Nat) (vs : List Voice) (out : List Exact) :
    (mixVoices p n vs out).1.length = vs.length ∧ (mixVoices p n vs out).2.length = out.length := by
  induction vs generalizing out with
  | nil => exact ⟨rfl, rfl⟩
  | cons v vs ih =>
    have := ih (v.mixInto p n out).2
    simp only [mixVoices, List.length_cons, this.1, this.2, true_and]
    unfold Voice.mixInto
    split <;> simp

theorem mixVoices_WF {p : Params} (hp : 0 ≤ p.eps) (n : Nat) (vs : List Voice) (out : List Exact)
    (h : ∀ v ∈ vs, v.WF) : ∀ v ∈ (mixVoices p n vs out).1, v.WF := by
  induction vs generalizing out with
  | nil => simp [mixVoices]
  | cons v vs ih =>
    intro w hw
    simp only [mixVoices, List.mem_cons] at hw
    rcases hw with rfl | hw
    · exact (h v (by simp)).mixInto hp n out
    · exact ih _ (fun u hu => h u (by simp [hu])) w hw

end Sys2Proof.Machine
end

