-- ==== Sys2Proof/Laws/State.lean ====
section
/-!
SUPPORT. One lemma per field per update of State, true by rfl, so that no later proof unfolds a record update; and what
the small named operations (flag, respond, hold, ...) change and leave.
-/

namespace Sys2Proof.Machine

variable (s : State)

/-! ### withRegs -/

@[simp] theorem State.withRegs_params (x : RegFile) : (s.withRegs x).params = s.params := rfl
@[simp] theorem State.withRegs_regs (x : RegFile) : (s.withRegs x).regs = x := rfl
@[simp] theorem State.withRegs_voices (x : RegFile) : (s.withRegs x).voices = s.voices := rfl
@[simp] theorem State.withRegs_tick (x : RegFile) : (s.withRegs x).tick = s.tick := rfl
@[simp] theorem State.withRegs_seq (x : RegFile) : (s.withRegs x).seq = s.seq := rfl
@[simp] theorem State.withRegs_queue (x : RegFile) : (s.withRegs x).queue = s.queue := rfl
@[simp] theorem State.withRegs_out (x : RegFile) : (s.withRegs x).out = s.out := rfl
@[simp] theorem State.withRegs_ph (x : RegFile) : (s.withRegs x).ph = s.ph := rfl
@[simp] theorem State.withRegs_cb (x : RegFile) : (s.withRegs x).cb = s.cb := rfl
@[simp] theorem State.withRegs_grain (x : RegFile) : (s.withRegs x).grain = s.grain := rfl
@[simp] theorem State.withRegs_sched (x : RegFile) : (s.withRegs x).sched = s.sched := rfl
@[simp] theorem State.withRegs_io (x : RegFile) : (s.withRegs x).io = s.io := rfl

/-! ### withVoices -/

@[simp] theorem State.withVoices_params (x : List Voice) : (s.withVoices x).params = s.params := rfl
@[simp] theorem State.withVoices_regs (x : List Voice) : (s.withVoices x).regs = s.regs := rfl
@[simp] theorem State.withVoices_voices (x : List Voice) : (s.withVoices x).voices = x := rfl
@[simp] theorem State.withVoices_tick (x : List Voice) : (s.withVoices x).tick = s.tick := rfl
@[simp] theorem State.withVoices_seq (x : List Voice) : (s.withVoices x).seq = s.seq := rfl
@[simp] theorem State.withVoices_queue (x : List Voice) : (s.withVoices x).queue = s.queue := rfl
@[simp] theorem State.withVoices_out (x : List Voice) : (s.withVoices x).out = s.out := rfl
@[simp] theorem State.withVoices_ph (x : List Voice) : (s.withVoices x).ph = s.ph := rfl
@[simp] theorem State.withVoices_cb (x : List Voice) : (s.withVoices x).cb = s.cb := rfl
@[simp] theorem State.withVoices_grain (x : List Voice) : (s.withVoices x).grain = s.grain := rfl
@[simp] theorem State.withVoices_sched (x : List Voice) : (s.withVoices x).sched = s.sched := rfl
@[simp] theorem State.withVoices_io (x : List Voice) : (s.withVoices x).io = s.io := rfl

/-! ### withTick -/

@[simp] theorem State.withTick_params (x : BitVec 64) : (s.withTick x).params = s.params := rfl
@[simp] theorem State.withTick_regs (x : BitVec 64) : (s.withTick x).regs = s.regs := rfl
@[simp] theorem State.withTick_voices (x : BitVec 64) : (s.withTick x).voices = s.voices := rfl
@[simp] theorem State.withTick_tick (x : BitVec 64) : (s.withTick x).tick = x := rfl
@[simp] theorem State.withTick_seq (x : BitVec 64) : (s.withTick x).seq = s.seq := rfl
@[simp] theorem State.withTick_queue (x : BitVec 64) : (s.withTick x).queue = s.queue := rfl
@[simp] theorem State.withTick_out (x : BitVec 64) : (s.withTick x).out = s.out := rfl
@[simp] theorem State.withTick_ph (x : BitVec 64) : (s.withTick x).ph = s.ph := rfl
@[simp] theorem State.withTick_cb (x : BitVec 64) : (s.withTick x).cb = s.cb := rfl
@[simp] theorem State.withTick_grain (x : BitVec 64) : (s.withTick x).grain = s.grain := rfl
@[simp] theorem State.withTick_sched (x : BitVec 64) : (s.withTick x).sched = s.sched := rfl
@[simp] theorem State.withTick_io (x : BitVec 64) : (s.withTick x).io = s.io := rfl

/-! ### withSeq -/

@[simp] theorem State.withSeq_params (x : Sequencer) : (s.withSeq x).params = s.params := rfl
@[simp] theorem State.withSeq_regs (x : Sequencer) : (s.withSeq x).regs = s.regs := rfl
@[simp] theorem State.withSeq_voices (x : Sequencer) : (s.withSeq x).voices = s.voices := rfl
@[simp] theorem State.withSeq_tick (x : Sequencer) : (s.withSeq x).tick = s.tick := rfl
@[simp] theorem State.withSeq_seq (x : Sequencer) : (s.withSeq x).seq = x := rfl
@[simp] theorem State.withSeq_queue (x : Sequencer) : (s.withSeq x).queue = s.queue := rfl
@[simp] theorem State.withSeq_out (x : Sequencer) : (s.withSeq x).out = s.out := rfl
@[simp] theorem State.withSeq_ph (x : Sequencer) : (s.withSeq x).ph = s.ph := rfl
@[simp] theorem State.withSeq_cb (x : Sequencer) : (s.withSeq x).cb = s.cb := rfl
@[simp] theorem State.withSeq_grain (x : Sequencer) : (s.withSeq x).grain = s.grain := rfl
@[simp] theorem State.withSeq_sched (x : Sequencer) : (s.withSeq x).sched = s.sched := rfl
@[simp] theorem State.withSeq_io (x : Sequencer) : (s.withSeq x).io = s.io := rfl

/-! ### withQueue -/

@[simp] theorem State.withQueue_params (x : List (List Word)) : (s.withQueue x).params = s.params := rfl
@[simp] theorem State.withQueue_regs (x : List (List Word)) : (s.withQueue x).regs = s.regs := rfl
@[simp] theorem State.withQueue_voices (x : List (List Word)) : (s.withQueue x).voices = s.voices := rfl
@[simp] theorem State.withQueue_tick (x : List (List Word)) : (s.withQueue x).tick = s.tick := rfl
@[simp] theorem State.withQueue_seq (x : List (List Word)) : (s.withQueue x).seq = s.seq := rfl
@[simp] theorem State.withQueue_queue (x : List (List Word)) : (s.withQueue x).queue = x := rfl
@[simp] theorem State.withQueue_out (x : List (List Word)) : (s.withQueue x).out = s.out := rfl
@[simp] theorem State.withQueue_ph (x : List (List Word)) : (s.withQueue x).ph = s.ph := rfl
@[simp] theorem State.withQueue_cb (x : List (List Word)) : (s.withQueue x).cb = s.cb := rfl
@[simp] theorem State.withQueue_grain (x : List (List Word)) : (s.withQueue x).grain = s.grain := rfl
@[simp] theorem State.withQueue_sched (x : List (List Word)) : (s.withQueue x).sched = s.sched := rfl
@[simp] theorem State.withQueue_io (x : List (List Word)) : (s.withQueue x).io = s.io := rfl

/-! ### withOut -/

@[simp] theorem State.withOut_params (x : List Exact) : (s.withOut x).params = s.params := rfl
@[simp] theorem State.withOut_regs (x : List Exact) : (s.withOut x).regs = s.regs := rfl
@[simp] theorem State.withOut_voices (x : List Exact) : (s.withOut x).voices = s.voices := rfl
@[simp] theorem State.withOut_tick (x : List Exact) : (s.withOut x).tick = s.tick := rfl
@[simp] theorem State.withOut_seq (x : List Exact) : (s.withOut x).seq = s.seq := rfl
@[simp] theorem State.withOut_queue (x : List Exact) : (s.withOut x).queue = s.queue := rfl
@[simp] theorem State.withOut_out (x : List Exact) : (s.withOut x).out = x := rfl
@[simp] theorem State.withOut_ph (x : List Exact) : (s.withOut x).ph = s.ph := rfl
@[simp] theorem State.withOut_cb (x : List Exact) : (s.withOut x).cb = s.cb := rfl
@[simp] theorem State.withOut_grain (x : List Exact) : (s.withOut x).grain = s.grain := rfl
@[simp] theorem State.withOut_sched (x : List Exact) : (s.withOut x).sched = s.sched := rfl
@[simp] theorem State.withOut_io (x : List Exact) : (s.withOut x).io = s.io := rfl

/-! ### withPh -/

@[simp] theorem State.withPh_params (x : Fin 9) : (s.withPh x).params = s.params := rfl
@[simp] theorem State.withPh_regs (x : Fin 9) : (s.withPh x).regs = s.regs := rfl
@[simp] theorem State.withPh_voices (x : Fin 9) : (s.withPh x).voices = s.voices := rfl
@[simp] theorem State.withPh_tick (x : Fin 9) : (s.withPh x).tick = s.tick := rfl
@[simp] theorem State.withPh_seq (x : Fin 9) : (s.withPh x).seq = s.seq := rfl
@[simp] theorem State.withPh_queue (x : Fin 9) : (s.withPh x).queue = s.queue := rfl
@[simp] theorem State.withPh_out (x : Fin 9) : (s.withPh x).out = s.out := rfl
@[simp] theorem State.withPh_ph (x : Fin 9) : (s.withPh x).ph = x := rfl
@[simp] theorem State.withPh_cb (x : Fin 9) : (s.withPh x).cb = s.cb := rfl
@[simp] theorem State.withPh_grain (x : Fin 9) : (s.withPh x).grain = s.grain := rfl
@[simp] theorem State.withPh_sched (x : Fin 9) : (s.withPh x).sched = s.sched := rfl
@[simp] theorem State.withPh_io (x : Fin 9) : (s.withPh x).io = s.io := rfl

/-! ### withCb -/

@[simp] theorem State.withCb_params (x : Progress) : (s.withCb x).params = s.params := rfl
@[simp] theorem State.withCb_regs (x : Progress) : (s.withCb x).regs = s.regs := rfl
@[simp] theorem State.withCb_voices (x : Progress) : (s.withCb x).voices = s.voices := rfl
@[simp] theorem State.withCb_tick (x : Progress) : (s.withCb x).tick = s.tick := rfl
@[simp] theorem State.withCb_seq (x : Progress) : (s.withCb x).seq = s.seq := rfl
@[simp] theorem State.withCb_queue (x : Progress) : (s.withCb x).queue = s.queue := rfl
@[simp] theorem State.withCb_out (x : Progress) : (s.withCb x).out = s.out := rfl
@[simp] theorem State.withCb_ph (x : Progress) : (s.withCb x).ph = s.ph := rfl
@[simp] theorem State.withCb_cb (x : Progress) : (s.withCb x).cb = x := rfl
@[simp] theorem State.withCb_grain (x : Progress) : (s.withCb x).grain = s.grain := rfl
@[simp] theorem State.withCb_sched (x : Progress) : (s.withCb x).sched = s.sched := rfl
@[simp] theorem State.withCb_io (x : Progress) : (s.withCb x).io = s.io := rfl

/-! ### withGrain -/

@[simp] theorem State.withGrain_params (x : Grain) : (s.withGrain x).params = s.params := rfl
@[simp] theorem State.withGrain_regs (x : Grain) : (s.withGrain x).regs = s.regs := rfl
@[simp] theorem State.withGrain_voices (x : Grain) : (s.withGrain x).voices = s.voices := rfl
@[simp] theorem State.withGrain_tick (x : Grain) : (s.withGrain x).tick = s.tick := rfl
@[simp] theorem State.withGrain_seq (x : Grain) : (s.withGrain x).seq = s.seq := rfl
@[simp] theorem State.withGrain_queue (x : Grain) : (s.withGrain x).queue = s.queue := rfl
@[simp] theorem State.withGrain_out (x : Grain) : (s.withGrain x).out = s.out := rfl
@[simp] theorem State.withGrain_ph (x : Grain) : (s.withGrain x).ph = s.ph := rfl
@[simp] theorem State.withGrain_cb (x : Grain) : (s.withGrain x).cb = s.cb := rfl
@[simp] theorem State.withGrain_grain (x : Grain) : (s.withGrain x).grain = x := rfl
@[simp] theorem State.withGrain_sched (x : Grain) : (s.withGrain x).sched = s.sched := rfl
@[simp] theorem State.withGrain_io (x : Grain) : (s.withGrain x).io = s.io := rfl

/-! ### withSched -/

@[simp] theorem State.withSched_params (x : List Turn) : (s.withSched x).params = s.params := rfl
@[simp] theorem State.withSched_regs (x : List Turn) : (s.withSched x).regs = s.regs := rfl
@[simp] theorem State.withSched_voices (x : List Turn) : (s.withSched x).voices = s.voices := rfl
@[simp] theorem State.withSched_tick (x : List Turn) : (s.withSched x).tick = s.tick := rfl
@[simp] theorem State.withSched_seq (x : List Turn) : (s.withSched x).seq = s.seq := rfl
@[simp] theorem State.withSched_queue (x : List Turn) : (s.withSched x).queue = s.queue := rfl
@[simp] theorem State.withSched_out (x : List Turn) : (s.withSched x).out = s.out := rfl
@[simp] theorem State.withSched_ph (x : List Turn) : (s.withSched x).ph = s.ph := rfl
@[simp] theorem State.withSched_cb (x : List Turn) : (s.withSched x).cb = s.cb := rfl
@[simp] theorem State.withSched_grain (x : List Turn) : (s.withSched x).grain = s.grain := rfl
@[simp] theorem State.withSched_sched (x : List Turn) : (s.withSched x).sched = x := rfl
@[simp] theorem State.withSched_io (x : List Turn) : (s.withSched x).io = s.io := rfl

/-! ### withIo -/

@[simp] theorem State.withIo_params (x : Channels) : (s.withIo x).params = s.params := rfl
@[simp] theorem State.withIo_regs (x : Channels) : (s.withIo x).regs = s.regs := rfl
@[simp] theorem State.withIo_voices (x : Channels) : (s.withIo x).voices = s.voices := rfl
@[simp] theorem State.withIo_tick (x : Channels) : (s.withIo x).tick = s.tick := rfl
@[simp] theorem State.withIo_seq (x : Channels) : (s.withIo x).seq = s.seq := rfl
@[simp] theorem State.withIo_queue (x : Channels) : (s.withIo x).queue = s.queue := rfl
@[simp] theorem State.withIo_out (x : Channels) : (s.withIo x).out = s.out := rfl
@[simp] theorem State.withIo_ph (x : Channels) : (s.withIo x).ph = s.ph := rfl
@[simp] theorem State.withIo_cb (x : Channels) : (s.withIo x).cb = s.cb := rfl
@[simp] theorem State.withIo_grain (x : Channels) : (s.withIo x).grain = s.grain := rfl
@[simp] theorem State.withIo_sched (x : Channels) : (s.withIo x).sched = s.sched := rfl
@[simp] theorem State.withIo_io (x : Channels) : (s.withIo x).io = x := rfl

/-! ### regWrite: only the register file -/

@[simp] theorem State.regWrite_params (r : RegName) (w : Word) : (s.regWrite r w).params = s.params := rfl
@[simp] theorem State.regWrite_regs (r : RegName) (w : Word) : (s.regWrite r w).regs = s.regs.write r w := rfl
@[simp] theorem State.regWrite_voices (r : RegName) (w : Word) : (s.regWrite r w).voices = s.voices := rfl
@[simp] theorem State.regWrite_tick (r : RegName) (w : Word) : (s.regWrite r w).tick = s.tick := rfl
@[simp] theorem State.regWrite_seq (r : RegName) (w : Word) : (s.regWrite r w).seq = s.seq := rfl
@[simp] theorem State.regWrite_queue (r : RegName) (w : Word) : (s.regWrite r w).queue = s.queue := rfl
@[simp] theorem State.regWrite_out (r : RegName) (w : Word) : (s.regWrite r w).out = s.out := rfl
@[simp] theorem State.regWrite_ph (r : RegName) (w : Word) : (s.regWrite r w).ph = s.ph := rfl
@[simp] theorem State.regWrite_cb (r : RegName) (w : Word) : (s.regWrite r w).cb = s.cb := rfl
@[simp] theorem State.regWrite_grain (r : RegName) (w : Word) : (s.regWrite r w).grain = s.grain := rfl
@[simp] theorem State.regWrite_sched (r : RegName) (w : Word) : (s.regWrite r w).sched = s.sched := rfl
@[simp] theorem State.regWrite_io (r : RegName) (w : Word) : (s.regWrite r w).io = s.io := rfl

/-! ### regOr: only the register file -/

@[simp] theorem State.regOr_params (r : RegName) (w : Word) : (s.regOr r w).params = s.params := rfl
@[simp] theorem State.regOr_regs (r : RegName) (w : Word) :
    (s.regOr r w).regs = s.regs.write r (s.regs.read r ||| w) := rfl
@[simp] theorem State.regOr_voices (r : RegName) (w : Word) : (s.regOr r w).voices = s.voices := rfl
@[simp] theorem State.regOr_tick (r : RegName) (w : Word) : (s.regOr r w).tick = s.tick := rfl
@[simp] theorem State.regOr_seq (r : RegName) (w : Word) : (s.regOr r w).seq = s.seq := rfl
@[simp] theorem State.regOr_queue (r : RegName) (w : Word) : (s.regOr r w).queue = s.queue := rfl
@[simp] theorem State.regOr_out (r : RegName) (w : Word) : (s.regOr r w).out = s.out := rfl
@[simp] theorem State.regOr_ph (r : RegName) (w : Word) : (s.regOr r w).ph = s.ph := rfl
@[simp] theorem State.regOr_cb (r : RegName) (w : Word) : (s.regOr r w).cb = s.cb := rfl
@[simp] theorem State.regOr_grain (r : RegName) (w : Word) : (s.regOr r w).grain = s.grain := rfl
@[simp] theorem State.regOr_sched (r : RegName) (w : Word) : (s.regOr r w).sched = s.sched := rfl
@[simp] theorem State.regOr_io (r : RegName) (w : Word) : (s.regOr r w).io = s.io := rfl

/-! ### flag: only STATUS -/

@[simp] theorem State.flag_params (b : StatusFlag) : (s.flag b).params = s.params := rfl
@[simp] theorem State.flag_regs (b : StatusFlag) :
    (s.flag b).regs = { s.regs with status := s.regs.status ||| b.mask } := rfl
@[simp] theorem State.flag_voices (b : StatusFlag) : (s.flag b).voices = s.voices := rfl
@[simp] theorem State.flag_tick (b : StatusFlag) : (s.flag b).tick = s.tick := rfl
@[simp] theorem State.flag_seq (b : StatusFlag) : (s.flag b).seq = s.seq := rfl
@[simp] theorem State.flag_queue (b : StatusFlag) : (s.flag b).queue = s.queue := rfl
@[simp] theorem State.flag_out (b : StatusFlag) : (s.flag b).out = s.out := rfl
@[simp] theorem State.flag_ph (b : StatusFlag) : (s.flag b).ph = s.ph := rfl
@[simp] theorem State.flag_cb (b : StatusFlag) : (s.flag b).cb = s.cb := rfl
@[simp] theorem State.flag_grain (b : StatusFlag) : (s.flag b).grain = s.grain := rfl
@[simp] theorem State.flag_sched (b : StatusFlag) : (s.flag b).sched = s.sched := rfl
@[simp] theorem State.flag_io (b : StatusFlag) : (s.flag b).io = s.io := rfl

/-! ### respond: only CTRL.rsp -/

@[simp] theorem State.respond_params (w : Word) : (s.respond w).params = s.params := rfl
@[simp] theorem State.respond_regs (w : Word) : (s.respond w).regs = s.regs := rfl
@[simp] theorem State.respond_voices (w : Word) : (s.respond w).voices = s.voices := rfl
@[simp] theorem State.respond_tick (w : Word) : (s.respond w).tick = s.tick := rfl
@[simp] theorem State.respond_seq (w : Word) : (s.respond w).seq = s.seq := rfl
@[simp] theorem State.respond_queue (w : Word) : (s.respond w).queue = s.queue := rfl
@[simp] theorem State.respond_out (w : Word) : (s.respond w).out = s.out := rfl
@[simp] theorem State.respond_ph (w : Word) : (s.respond w).ph = s.ph := rfl
@[simp] theorem State.respond_cb (w : Word) : (s.respond w).cb = s.cb := rfl
@[simp] theorem State.respond_grain (w : Word) : (s.respond w).grain = s.grain := rfl
@[simp] theorem State.respond_sched (w : Word) : (s.respond w).sched = s.sched := rfl
@[simp] theorem State.respond_io (w : Word) :
    (s.respond w).io = { s.io with ctrlRsp := s.io.ctrlRsp ++ [w] } := rfl

/-! ### hold: only the pending words -/

@[simp] theorem State.hold_params (i : Instr) : (s.hold i).params = s.params := rfl
@[simp] theorem State.hold_regs (i : Instr) : (s.hold i).regs = s.regs := rfl
@[simp] theorem State.hold_voices (i : Instr) : (s.hold i).voices = s.voices := rfl
@[simp] theorem State.hold_tick (i : Instr) : (s.hold i).tick = s.tick := rfl
@[simp] theorem State.hold_seq (i : Instr) : (s.hold i).seq = s.seq := rfl
@[simp] theorem State.hold_queue (i : Instr) : (s.hold i).queue = s.queue := rfl
@[simp] theorem State.hold_out (i : Instr) : (s.hold i).out = s.out := rfl
@[simp] theorem State.hold_ph (i : Instr) : (s.hold i).ph = s.ph := rfl
@[simp] theorem State.hold_cb (i : Instr) : (s.hold i).cb = s.cb := rfl
@[simp] theorem State.hold_grain (i : Instr) : (s.hold i).grain = s.grain := rfl
@[simp] theorem State.hold_sched (i : Instr) : (s.hold i).sched = s.sched := rfl
@[simp] theorem State.hold_io (i : Instr) :
    (s.hold i).io = s.io.setPending i.port (encode i :: s.io.pending i.port) := rfl

/-! ### takeRx: only NET.rx -/

@[simp] theorem State.takeRx_params (k : Nat) : (s.takeRx k).params = s.params := rfl
@[simp] theorem State.takeRx_regs (k : Nat) : (s.takeRx k).regs = s.regs := rfl
@[simp] theorem State.takeRx_voices (k : Nat) : (s.takeRx k).voices = s.voices := rfl
@[simp] theorem State.takeRx_tick (k : Nat) : (s.takeRx k).tick = s.tick := rfl
@[simp] theorem State.takeRx_seq (k : Nat) : (s.takeRx k).seq = s.seq := rfl
@[simp] theorem State.takeRx_queue (k : Nat) : (s.takeRx k).queue = s.queue := rfl
@[simp] theorem State.takeRx_out (k : Nat) : (s.takeRx k).out = s.out := rfl
@[simp] theorem State.takeRx_ph (k : Nat) : (s.takeRx k).ph = s.ph := rfl
@[simp] theorem State.takeRx_cb (k : Nat) : (s.takeRx k).cb = s.cb := rfl
@[simp] theorem State.takeRx_grain (k : Nat) : (s.takeRx k).grain = s.grain := rfl
@[simp] theorem State.takeRx_sched (k : Nat) : (s.takeRx k).sched = s.sched := rfl
@[simp] theorem State.takeRx_io (k : Nat) :
    (s.takeRx k).io = { s.io with netRx := s.io.netRx.drop k } := rfl

/-! ### callbackDone: PH, the callback in progress and the grain -/

@[simp] theorem State.callbackDone_params : s.callbackDone.params = s.params := rfl
@[simp] theorem State.callbackDone_regs : s.callbackDone.regs = s.regs := rfl
@[simp] theorem State.callbackDone_voices : s.callbackDone.voices = s.voices := rfl
@[simp] theorem State.callbackDone_tick : s.callbackDone.tick = s.tick := rfl
@[simp] theorem State.callbackDone_seq : s.callbackDone.seq = s.seq := rfl
@[simp] theorem State.callbackDone_queue : s.callbackDone.queue = s.queue := rfl
@[simp] theorem State.callbackDone_out : s.callbackDone.out = s.out := rfl
@[simp] theorem State.callbackDone_ph : s.callbackDone.ph = 0 := rfl
@[simp] theorem State.callbackDone_cb : s.callbackDone.cb = Progress.none := rfl
@[simp] theorem State.callbackDone_grain : s.callbackDone.grain = .whole := rfl
@[simp] theorem State.callbackDone_sched : s.callbackDone.sched = s.sched := rfl
@[simp] theorem State.callbackDone_io : s.callbackDone.io = s.io := rfl

/-! ### callbackBegin -/

@[simp] theorem State.callbackBegin_params (n : Word) : (s.callbackBegin n).params = s.params := rfl
@[simp] theorem State.callbackBegin_regs (n : Word) : (s.callbackBegin n).regs = s.regs := rfl
@[simp] theorem State.callbackBegin_voices (n : Word) : (s.callbackBegin n).voices = s.voices := rfl
@[simp] theorem State.callbackBegin_tick (n : Word) : (s.callbackBegin n).tick = s.tick := rfl
@[simp] theorem State.callbackBegin_seq (n : Word) : (s.callbackBegin n).seq = s.seq := rfl
@[simp] theorem State.callbackBegin_queue (n : Word) : (s.callbackBegin n).queue = s.queue := rfl
@[simp] theorem State.callbackBegin_out (n : Word) : (s.callbackBegin n).out = s.out := rfl
@[simp] theorem State.callbackBegin_ph (n : Word) : (s.callbackBegin n).ph = 1 := rfl
@[simp] theorem State.callbackBegin_cb (n : Word) : (s.callbackBegin n).cb = ⟨n, callbackEvents, RegFile.blank, []⟩ := rfl
@[simp] theorem State.callbackBegin_grain (n : Word) : (s.callbackBegin n).grain = .whole := rfl
@[simp] theorem State.callbackBegin_sched (n : Word) : (s.callbackBegin n).sched = s.sched := rfl
@[simp] theorem State.callbackBegin_io (n : Word) : (s.callbackBegin n).io = s.io := rfl

/-! ### resetCommand -/

@[simp] theorem State.resetCommand_params : s.resetCommand.params = s.params := rfl
@[simp] theorem State.resetCommand_regs : s.resetCommand.regs = (State.resetOf s.params).regs := rfl
@[simp] theorem State.resetCommand_voices : s.resetCommand.voices = (State.resetOf s.params).voices := rfl
@[simp] theorem State.resetCommand_tick : s.resetCommand.tick = (State.resetOf s.params).tick := rfl
@[simp] theorem State.resetCommand_seq : s.resetCommand.seq = (State.resetOf s.params).seq := rfl
@[simp] theorem State.resetCommand_queue : s.resetCommand.queue = (State.resetOf s.params).queue := rfl
@[simp] theorem State.resetCommand_out : s.resetCommand.out = (State.resetOf s.params).out := rfl
@[simp] theorem State.resetCommand_ph : s.resetCommand.ph = (State.resetOf s.params).ph := rfl
@[simp] theorem State.resetCommand_cb : s.resetCommand.cb = (State.resetOf s.params).cb := rfl
@[simp] theorem State.resetCommand_grain : s.resetCommand.grain = (State.resetOf s.params).grain := rfl
@[simp] theorem State.resetCommand_sched : s.resetCommand.sched = s.sched := rfl
@[simp] theorem State.resetCommand_io : s.resetCommand.io = s.io := rfl

/-! ### pushEvents and see: only the callback in progress -/

@[simp] theorem State.pushEvents_params (es : List Event) : (s.pushEvents es).params = s.params := rfl
@[simp] theorem State.pushEvents_regs (es : List Event) : (s.pushEvents es).regs = s.regs := rfl
@[simp] theorem State.pushEvents_voices (es : List Event) : (s.pushEvents es).voices = s.voices := rfl
@[simp] theorem State.pushEvents_tick (es : List Event) : (s.pushEvents es).tick = s.tick := rfl
@[simp] theorem State.pushEvents_seq (es : List Event) : (s.pushEvents es).seq = s.seq := rfl
@[simp] theorem State.pushEvents_queue (es : List Event) : (s.pushEvents es).queue = s.queue := rfl
@[simp] theorem State.pushEvents_out (es : List Event) : (s.pushEvents es).out = s.out := rfl
@[simp] theorem State.pushEvents_ph (es : List Event) : (s.pushEvents es).ph = s.ph := rfl
@[simp] theorem State.pushEvents_cb (es : List Event) : (s.pushEvents es).cb = { s.cb with todo := es ++ s.cb.todo } := rfl
@[simp] theorem State.pushEvents_grain (es : List Event) : (s.pushEvents es).grain = s.grain := rfl
@[simp] theorem State.pushEvents_sched (es : List Event) : (s.pushEvents es).sched = s.sched := rfl
@[simp] theorem State.pushEvents_io (es : List Event) : (s.pushEvents es).io = s.io := rfl
@[simp] theorem State.see_params (r : RegName) : (s.see r).params = s.params := rfl
@[simp] theorem State.see_regs (r : RegName) : (s.see r).regs = s.regs := rfl
@[simp] theorem State.see_voices (r : RegName) : (s.see r).voices = s.voices := rfl
@[simp] theorem State.see_tick (r : RegName) : (s.see r).tick = s.tick := rfl
@[simp] theorem State.see_seq (r : RegName) : (s.see r).seq = s.seq := rfl
@[simp] theorem State.see_queue (r : RegName) : (s.see r).queue = s.queue := rfl
@[simp] theorem State.see_out (r : RegName) : (s.see r).out = s.out := rfl
@[simp] theorem State.see_ph (r : RegName) : (s.see r).ph = s.ph := rfl
@[simp] theorem State.see_cb (r : RegName) : (s.see r).cb = { s.cb with seen := s.cb.seen.write r (s.regRead r) } := rfl
@[simp] theorem State.see_grain (r : RegName) : (s.see r).grain = s.grain := rfl
@[simp] theorem State.see_sched (r : RegName) : (s.see r).sched = s.sched := rfl
@[simp] theorem State.see_io (r : RegName) : (s.see r).io = s.io := rfl

/-! ### The ports -/

@[simp] theorem Channels.setPending_pending (c : Channels) (p : Port) (ws : List Command) :
    (c.setPending p ws).pending p = ws := by cases p <;> rfl

@[simp] theorem Channels.setPending_self (c : Channels) (p : Port) : c.setPending p (c.pending p) = c := by
  cases p <;> rfl

@[simp] theorem Channels.setPending_setPending (c : Channels) (p : Port) (a b : List Command) :
    (c.setPending p a).setPending p b = c.setPending p b := by cases p <;> rfl

@[simp] theorem Channels.setPending_netRx (c : Channels) (p : Port) (ws : List Command) :
    (c.setPending p ws).netRx = c.netRx := by cases p <;> rfl

@[simp] theorem Channels.setPending_ctrlRsp (c : Channels) (p : Port) (ws : List Command) :
    (c.setPending p ws).ctrlRsp = c.ctrlRsp := by cases p <;> rfl

@[simp] theorem Channels.setPending_audioOut (c : Channels) (p : Port) (ws : List Command) :
    (c.setPending p ws).audioOut = c.audioOut := by cases p <;> rfl

@[simp] theorem Channels.setPending_netTx (c : Channels) (p : Port) (ws : List Command) :
    (c.setPending p ws).netTx = c.netTx := by cases p <;> rfl

end Sys2Proof.Machine
end

