-- ==== Sys2Proof/Laws/Regs.lean ====
section
/-!
SUPPORT. The register space: which addresses are mapped, what a read after a write gives, and that every write the
block makes keeps the registers well formed.
-/

namespace Sys2Proof.Machine

theorem regAt_addr (r : RegName) : regAt r.addr = some r := by
  cases r with
  | oscWave j => revert j; decide
  | oscOct j => revert j; decide
  | oscDetune j => revert j; decide
  | oscPhase j => revert j; decide
  | grid s => revert s; decide
  | _ => rfl

theorem ite_eq_some {α : Type} {c : Prop} [Decidable c] {x r : α} {y : Option α}
    (h : (if c then some x else y) = some r) : (c ∧ x = r) ∨ (¬ c ∧ y = some r) := by
  split at h
  · exact .inl ⟨‹_›, by simpa using h⟩
  · exact .inr ⟨‹_›, h⟩

theorem regAt_eq_some {a : Addr} {r : RegName} (h : regAt a = some r) : r.addr = a := by
  have key : ∀ n : Nat, a.toNat = n → BitVec.ofNat 16 n = a := by
    intro n h1
    apply BitVec.eq_of_toNat_eq
    rw [← h1]
    simp
  unfold regAt at h
  iterate 19 (rcases ite_eq_some h with ⟨hc, rfl⟩ | ⟨-, h⟩; · exact hc.symm)
  split at h
  · rename_i hr
    rcases ite_eq_some h with ⟨hk, rfl⟩ | ⟨hk0, h⟩
    · exact key _ (by simp only; omega)
    · rcases ite_eq_some h with ⟨hk, rfl⟩ | ⟨hk1, h⟩
      · exact key _ (by simp only; omega)
      · rcases ite_eq_some h with ⟨hk, rfl⟩ | ⟨hk2, h⟩
        · exact key _ (by simp only; omega)
        · cases h
          exact key _ (by simp only; omega)
  · split at h
    · cases h
      exact key _ (by simp only; omega)
    · cases h

/-- The mapped addresses are exactly those of the table (R71). -/
theorem regAt_iff (a : Addr) (r : RegName) : regAt a = some r ↔ r.addr = a :=
  ⟨regAt_eq_some, fun h => h ▸ regAt_addr r⟩

theorem read_write_same (f : RegFile) (r : RegName) (w : Word) (h : r ≠ .jbSize) : (f.write r w).read r = w := by
  cases r <;> simp_all [RegFile.write, RegFile.read]

theorem read_write_other (f : RegFile) {r r' : RegName} (w : Word) (h : r' ≠ r) :
    (f.write r w).read r' = f.read r' := by
  cases r <;> cases r' <;>
    simp_all [RegFile.write, RegFile.read, Fin.ext_iff, eq_comm]

/-! ### Well-formed registers -/

theorem admits_flags (w : Word) : RegType.flags.admits w = true ↔ w.toNat < 2 ^ 7 := decide_eq_true_iff
theorem admits_bit (w : Word) : RegType.bit.admits w = true ↔ w.toNat < 2 ^ 1 := decide_eq_true_iff
theorem admits_mask12 (w : Word) : RegType.mask12.admits w = true ↔ w.toNat < 2 ^ 12 := decide_eq_true_iff
theorem admits_enum (w : Word) : RegType.enum.admits w = true ↔ w.toNat ≤ 2 := decide_eq_true_iff
theorem admits_f32 (w : Word) : RegType.f32.admits w = true ↔ f32NonFinite w = false := by
  simp [RegType.admits]

theorem RegFile.WF.write {f : RegFile} (h : f.WF) {r : RegName} {w : Word} (hw : r.type.admits w = true) :
    (f.write r w).WF := by
  intro r'
  by_cases e : r' = r
  · subst e
    by_cases hj : r' = .jbSize
    · subst hj; exact h .jbSize
    · rw [read_write_same f r' w hj]; exact hw
  · rw [read_write_other f w e]; exact h r'

theorem and_toNat_le (a b : Word) : (a &&& b).toNat ≤ b.toNat := by
  rw [BitVec.toNat_and]; exact Nat.and_le_right

theorem or_toNat_lt {a b : Word} (n : Nat) (ha : a.toNat < 2 ^ n) (hb : b.toNat < 2 ^ n) :
    (a ||| b).toNat < 2 ^ n := by
  rw [BitVec.toNat_or]; exact Nat.or_lt_two_pow ha hb

/-- A pattern a WR stores is one the register's type admits (R218, R221). -/
theorem storedPattern_admits {t : RegType} {d w : Word} (ht : t ≠ .flags) (h : storedPattern t d = some w) :
    t.admits w = true := by
  cases t with
  | flags => exact absurd rfl ht
  | bit =>
    cases h
    have := and_toNat_le d 1#32
    rw [admits_bit]
    exact lt_of_le_of_lt this (by decide)
  | s32 => rfl
  | u32 => rfl
  | mask12 =>
    cases h
    have := and_toNat_le d 0xFFF#32
    rw [admits_mask12]
    exact lt_of_le_of_lt this (by decide)
  | enum =>
    simp only [storedPattern] at h
    split at h
    · cases h
    · cases h
      rw [admits_enum]
      exact not_lt.mp ‹_›
  | f32 =>
    simp only [storedPattern] at h
    split at h
    · cases h
    · cases h
      rename_i hf
      rw [admits_f32]
      simpa using hf

theorem clearFlags_admits {st d : Word} (h : RegType.flags.admits st = true) :
    RegType.flags.admits (clearFlags st d) = true := by
  rw [admits_flags] at h ⊢
  refine lt_of_le_of_lt ?_ h
  rw [clearFlags, BitVec.toNat_and]
  exact Nat.and_le_left

theorem StatusFlag.mask_lt (b : StatusFlag) : b.mask.toNat < 2 ^ 7 := by cases b <;> decide

/-- `Flag(b)` keeps the registers well formed (R241). -/
theorem flag_regs_WF {s : State} (h : s.regs.WF) (b : StatusFlag) : (s.flag b).regs.WF := by
  refine RegFile.WF.write (r := .status) h ?_
  have hs : s.regs.status.toNat < 2 ^ 7 := (admits_flags _).mp (h .status)
  exact (admits_flags _).mpr (or_toNat_lt 7 hs b.mask_lt)

theorem regs_reset_WF (p : Params) : (RegFile.reset p).WF := by
  intro r
  cases r with
  | oscWave j => simp [RegFile.reset, RegFile.read, RegName.type, RegType.admits]
  | oscOct j => rfl
  | oscDetune j =>
    simp only [RegFile.reset, RegFile.read, RegName.type, Fin.getElem_fin, Vector.getElem_replicate]
    decide
  | oscPhase j =>
    simp only [RegFile.reset, RegFile.read, RegName.type, Fin.getElem_fin, Vector.getElem_replicate]
    decide
  | grid s => simp [RegFile.reset, RegFile.read, RegName.type, RegType.admits]
  | _ => first | rfl | (simp only [RegFile.reset, RegFile.read, RegName.type]; decide)

theorem regs_blank_WF : RegFile.blank.WF := by
  intro r
  cases r with
  | oscWave j => simp [RegFile.blank, RegFile.read, RegName.type, RegType.admits]
  | oscOct j => rfl
  | oscDetune j =>
    simp only [RegFile.blank, RegFile.read, RegName.type, Fin.getElem_fin, Vector.getElem_replicate]
    decide
  | oscPhase j =>
    simp only [RegFile.blank, RegFile.read, RegName.type, Fin.getElem_fin, Vector.getElem_replicate]
    decide
  | grid s => simp [RegFile.blank, RegFile.read, RegName.type, RegType.admits]
  | _ => rfl

end Sys2Proof.Machine
end

