-- ==== Sys2Proof/Laws/Pool.lean ====
section
/-!
SUPPORT. What the voice pool, the sequencer and the phases of a callback can change (one `_eq` lemma per operation), and
that each keeps the parameters, the registers and the voices well formed.
-/

namespace Sys2Proof.Machine

/-! ### Allocation (R173) -/

theorem freeIndex_lt {eps : Rat} {vs : List Voice} {i : Nat} (h : freeIndex eps vs = some i) : i < vs.length := by
  induction vs generalizing i with
  | nil => cases h
  | cons v vs ih =>
    unfold freeIndex at h
    split at h
    · cases h; simp
    · obtain ⟨j, hj, rfl⟩ := Option.map_eq_some_iff.mp h
      simpa using ih hj

/-- The index of the first search: free there, no free voice below it (R173). -/
theorem freeIndex_spec {eps : Rat} {vs : List Voice} {i : Nat} (h : freeIndex eps vs = some i) :
    (∃ v, vs[i]? = some v ∧ v.free eps = true) ∧ ∀ j < i, ∀ v, vs[j]? = some v → v.free eps = false := by
  induction vs generalizing i with
  | nil => cases h
  | cons v vs ih =>
    unfold freeIndex at h
    split at h
    · cases h; exact ⟨⟨v, by simp_all⟩, by simp⟩
    · rename_i hv
      obtain ⟨j, hj, rfl⟩ := Option.map_eq_some_iff.mp h
      obtain ⟨⟨u, hu, hf⟩, hlow⟩ := ih hj
      refine ⟨⟨u, by simpa using hu, hf⟩, ?_⟩
      intro k hk w hw
      cases k with
      | zero => simp at hw; subst hw; simpa using hv
      | succ k => exact hlow k (by omega) w (by simpa using hw)

theorem freeIndex_none {eps : Rat} {vs : List Voice} (h : freeIndex eps vs = none) :
    ∀ v ∈ vs, v.free eps = false := by
  induction vs with
  | nil => simp
  | cons v vs ih =>
    unfold freeIndex at h
    split at h
    · cases h
    · rename_i hv
      intro w hw
      rcases List.mem_cons.mp hw with rfl | hw
      · simpa using hv
      · exact ih (by simpa using h) w hw

theorem minLastUsed_le {vs : List Voice} : ∀ v ∈ vs, minLastUsed vs ≤ v.lastUsed.toNat := by
  induction vs with
  | nil => simp
  | cons v vs ih =>
    cases vs with
    | nil => simp [minLastUsed]
    | cons w vs =>
      intro u hu
      rcases List.mem_cons.mp hu with rfl | hu
      · exact min_le_left _ _
      · exact (min_le_right _ _).trans (ih u hu)

theorem minLastUsed_mem {vs : List Voice} (h : vs ≠ []) : ∃ v ∈ vs, v.lastUsed.toNat = minLastUsed vs := by
  induction vs with
  | nil => exact absurd rfl h
  | cons v vs ih =>
    cases vs with
    | nil => exact ⟨v, by simp, rfl⟩
    | cons w vs =>
      obtain ⟨u, hu, e⟩ := ih (by simp)
      rcases le_total v.lastUsed.toNat (minLastUsed (w :: vs)) with c | c
      · exact ⟨v, by simp, (min_eq_left c).symm⟩
      · exact ⟨u, List.mem_cons_of_mem _ hu, e.trans (min_eq_right c).symm⟩

theorem lruIndex_lt {vs : List Voice} (h : vs ≠ []) : lruIndex vs < vs.length := by
  obtain ⟨v, hv, e⟩ := minLastUsed_mem h
  exact List.findIdx_lt_length_of_exists ⟨v, hv, by simpa using e⟩

theorem victimIndex_lt (eps : Rat) {vs : List Voice} (h : vs ≠ []) : victimIndex eps vs < vs.length := by
  unfold victimIndex
  cases hf : freeIndex eps vs with
  | none => exact lruIndex_lt h
  | some i => exact freeIndex_lt hf

/-- Everything POOL.NOTE_ON changes: STATUS.STEAL, TICK and the voice taken (R173). -/
theorem State.poolNoteOn_eq (s : State) (d : Degree) (oct : Int) :
    s.poolNoteOn d oct = { s with
      regs := { s.regs with
        status := if (freeIndex s.params.eps s.voices).isNone then s.regs.status ||| StatusFlag.steal.mask
          else s.regs.status }
      tick := s.tick + 1
      voices := s.voices.modify (victimIndex s.params.eps s.voices)
        (Voice.take s.params.fs d oct (s.tick + 1)) } := by
  unfold State.poolNoteOn
  cases h : (freeIndex s.params.eps s.voices).isNone <;> rfl

/-- Everything POOL.NOTE_OFF changes: voices (R174). -/
theorem State.poolNoteOff_eq (s : State) (d : Degree) :
    s.poolNoteOff d = { s with voices := s.voices.map (Voice.releaseIf s.params d) } := rfl

/-- Everything POOL.RENDER_MIXED changes: voices and OUT (R175). -/
theorem State.poolRenderMixed_eq (s : State) (n : Nat) :
    s.poolRenderMixed n = { s with
      voices := (mixVoices s.params n s.voices s.out).1, out := (mixVoices s.params n s.voices s.out).2 } := rfl

/-- Everything POOL.RESIZE changes: voices and TICK (R176). -/
theorem State.poolResize_eq (s : State) (k : Nat) :
    s.poolResize k = { s with voices := List.replicate k Voice.reset, tick := 0 } := rfl

/-! ### The part of the invariant the pool works on -/

/-- The parameters, the registers, the pool size and the voices are well formed. -/
structure State.PoolInv (s : State) : Prop where
  params : s.params.WF
  regs : s.regs.WF
  nv : 1 ≤ s.nv ∧ s.nv ≤ s.params.maxVoices
  voices : ∀ v ∈ s.voices, v.WF

theorem State.Inv.pool {s : State} (h : s.Inv) : s.PoolInv := ⟨h.params, h.regs, h.nv, h.voices⟩

theorem Params.WF.eps {p : Params} (h : p.WF) : 0 ≤ p.eps := h.2.2.2.2.2.2.2

theorem Params.WF.fs_pos {p : Params} (h : p.WF) : 0 < p.fs := lt_of_lt_of_le (by norm_num) h.1

theorem State.PoolInv.voices_ne {s : State} (h : s.PoolInv) : s.voices ≠ [] := by
  intro e
  have := h.nv.1
  simp [State.nv, e] at this

theorem State.PoolInv.poolNoteOn {s : State} (h : s.PoolInv) (d : Degree) (oct : Int) :
    (s.poolNoteOn d oct).PoolInv := by
  rw [State.poolNoteOn_eq]
  refine ⟨h.params, ?_, ?_, ?_⟩
  · cases (freeIndex s.params.eps s.voices).isNone
    · exact h.regs
    · exact flag_regs_WF h.regs .steal
  · simpa [State.nv] using h.nv
  · intro v hv
    obtain ⟨i, hi, rfl⟩ := List.mem_iff_getElem.mp hv
    simp only [List.getElem_modify]
    split
    · exact (h.voices _ (List.getElem_mem _)).take _ _ _ _
    · exact h.voices _ (List.getElem_mem _)

theorem State.PoolInv.poolNoteOff {s : State} (h : s.PoolInv) (d : Degree) : (s.poolNoteOff d).PoolInv := by
  rw [State.poolNoteOff_eq]
  refine ⟨h.params, h.regs, by simpa [State.nv] using h.nv, ?_⟩
  intro v hv
  obtain ⟨w, hw, rfl⟩ := List.mem_map.mp hv
  exact (h.voices w hw).releaseIf (Params.WF.eps h.params) d

theorem State.PoolInv.poolRenderMixed {s : State} (h : s.PoolInv) (n : Nat) : (s.poolRenderMixed n).PoolInv := by
  rw [State.poolRenderMixed_eq]
  refine ⟨h.params, h.regs, ?_, mixVoices_WF (Params.WF.eps h.params) n _ _ h.voices⟩
  simpa [State.nv, (mixVoices_length _ _ _ _).1] using h.nv

theorem State.PoolInv.poolResize {s : State} (h : s.PoolInv) {k : Nat} (h1 : 1 ≤ k) (h2 : k ≤ s.params.maxVoices) :
    (s.poolResize k).PoolInv := by
  rw [State.poolResize_eq]
  refine ⟨h.params, h.regs, by simp [State.nv, h1, h2], ?_⟩
  intro v hv
  rw [List.eq_of_mem_replicate hv]
  exact Voice.reset_WF

theorem State.PoolInv.phaseLatch {s : State} (h : s.PoolInv) (r : RegFile) : (s.phaseLatch r).PoolInv := by
  refine ⟨h.params, h.regs, by simpa [State.nv, State.phaseLatch] using h.nv, ?_⟩
  intro v hv
  obtain ⟨w, hw, rfl⟩ := List.mem_map.mp hv
  exact (h.voices w hw).latch r

theorem targetVoices_mem {p : Params} (h : p.WF) (w : Word) :
    1 ≤ targetVoices p w ∧ targetVoices p w ≤ p.maxVoices := by
  have h1 : (1 : Int) ≤ (p.maxVoices : Int) := by have := h.2.1; have := h.2.2.1; omega
  have := clampInt_mem (s32 w) h1
  unfold targetVoices
  omega

theorem State.PoolInv.phaseResize {s : State} (h : s.PoolInv) (w : Word) : (s.phaseResize w).PoolInv := by
  unfold State.phaseResize
  split
  · exact h
  · exact h.poolResize (targetVoices_mem h.params w).1 (targetVoices_mem h.params w).2

/-- A property of states that a list of steps keeps, the whole list keeps. -/
theorem foldl_keeps {α : Type} {P : State → Prop} {f : State → α → State} (h : ∀ s a, P s → P (f s a)) (l : List α)
    (s : State) (hs : P s) : P (l.foldl f s) := by
  induction l generalizing s with
  | nil => exact hs
  | cons a l ih => exact ih _ (h s a hs)

theorem State.PoolInv.withSeq {s : State} (h : s.PoolInv) (x : Sequencer) : (s.withSeq x).PoolInv :=
  ⟨h.params, h.regs, h.nv, h.voices⟩

theorem State.PoolInv.seqTrigger {s : State} (h : s.PoolInv) (d : Degree) (oct : Int) (sps : Rat) :
    (s.seqTrigger d oct sps).PoolInv := (h.poolNoteOn d oct).withSeq _

theorem State.PoolInv.seqReleaseOne {s : State} (h : s.PoolInv) (d : Degree) : (s.seqReleaseOne d).PoolInv := by
  unfold State.seqReleaseOne
  split
  · exact (h.poolNoteOff d).withSeq _
  · exact h

theorem State.PoolInv.seqPlayStep {s : State} (h : s.PoolInv) (oct : Int) (sps : Rat) :
    (s.seqPlayStep oct sps).PoolInv :=
  foldl_keeps (P := State.PoolInv) (fun _ d hs => hs.seqTrigger d oct sps) _ _ (h.withSeq _)

theorem State.PoolInv.seqLoop {s : State} (h : s.PoolInv) (oct : Int) (sps : Rat) (fuel : Nat) :
    (State.seqLoop oct sps fuel s).PoolInv := by
  induction fuel generalizing s with
  | zero => exact h
  | succ k ih =>
    unfold State.seqLoop
    split
    · exact ih (h.seqPlayStep oct sps)
    · exact h

theorem State.PoolInv.seqAdvance {s : State} (h : s.PoolInv) (n : Nat) (oct : Int) (bpm play : Word) :
    (s.seqAdvance n oct bpm play).PoolInv := by
  unfold State.seqAdvance
  refine State.PoolInv.withSeq ?_ _
  refine foldl_keeps (P := State.PoolInv) (fun _ d hs => hs.seqReleaseOne d) _ _ ?_
  cases isPlaying play
  · exact h.withSeq _
  · exact State.PoolInv.seqLoop (h.withSeq _) _ _ _

theorem State.PoolInv.flag {s : State} (h : s.PoolInv) (b : StatusFlag) : (s.flag b).PoolInv :=
  ⟨h.params, flag_regs_WF h.regs b, h.nv, h.voices⟩

/-! ### Everything the sequencer and the request phases leave alone -/

/-- `t` differs from `s` only in STATUS, the voices, TICK and the sequencer. -/
def OnlyNotes (s t : State) : Prop :=
  t = { s with
    regs := { s.regs with status := t.regs.status }
    voices := t.voices
    tick := t.tick
    seq := t.seq }

theorem OnlyNotes.regs {s t : State} (h : OnlyNotes s t) : t.regs = { s.regs with status := t.regs.status } := by
  unfold OnlyNotes at h
  rw [h]

theorem OnlyNotes.refl (s : State) : OnlyNotes s s := rfl

theorem OnlyNotes.trans {s t u : State} (h1 : OnlyNotes s t) (h2 : OnlyNotes t u) : OnlyNotes s u := by
  unfold OnlyNotes at h1 h2 ⊢
  rw [h2, h1]

theorem OnlyNotes.foldl {α : Type} {f : State → α → State} (h : ∀ s a, OnlyNotes s (f s a)) (l : List α) (s : State) :
    OnlyNotes s (l.foldl f s) :=
  foldl_keeps (P := OnlyNotes s) (fun t a ht => ht.trans (h t a)) l s (OnlyNotes.refl s)

theorem onlyNotes_poolNoteOn (s : State) (d : Degree) (oct : Int) : OnlyNotes s (s.poolNoteOn d oct) := by
  unfold OnlyNotes
  rw [State.poolNoteOn_eq]

theorem onlyNotes_poolNoteOff (s : State) (d : Degree) : OnlyNotes s (s.poolNoteOff d) := rfl

theorem onlyNotes_withSeq (s : State) (x : Sequencer) : OnlyNotes s (s.withSeq x) := rfl

theorem onlyNotes_seqTrigger (s : State) (d : Degree) (oct : Int) (sps : Rat) :
    OnlyNotes s (s.seqTrigger d oct sps) :=
  (onlyNotes_poolNoteOn s d oct).trans (onlyNotes_withSeq _ _)

theorem onlyNotes_seqPlayStep (s : State) (oct : Int) (sps : Rat) : OnlyNotes s (s.seqPlayStep oct sps) :=
  (onlyNotes_withSeq s _).trans (OnlyNotes.foldl (fun t d => onlyNotes_seqTrigger t d oct sps) _ _)

theorem onlyNotes_seqLoop (oct : Int) (sps : Rat) (fuel : Nat) (s : State) :
    OnlyNotes s (State.seqLoop oct sps fuel s) := by
  induction fuel generalizing s with
  | zero => exact OnlyNotes.refl s
  | succ k ih =>
    unfold State.seqLoop
    split
    · exact (onlyNotes_seqPlayStep s oct sps).trans (ih _)
    · exact OnlyNotes.refl s

theorem onlyNotes_seqReleaseOne (s : State) (d : Degree) : OnlyNotes s (s.seqReleaseOne d) := by
  unfold State.seqReleaseOne
  split
  · exact (onlyNotes_poolNoteOff s d).trans (onlyNotes_withSeq _ _)
  · exact OnlyNotes.refl s

theorem onlyNotes_seqReleaseAll (s : State) : OnlyNotes s s.seqReleaseAll := OnlyNotes.foldl onlyNotes_seqReleaseOne _ _

theorem onlyNotes_seqAdvance (s : State) (n : Nat) (oct : Int) (bpm play : Word) :
    OnlyNotes s (s.seqAdvance n oct bpm play) := by
  unfold State.seqAdvance
  refine OnlyNotes.trans ?_ (onlyNotes_withSeq _ _)
  refine OnlyNotes.trans ?_ (onlyNotes_seqReleaseAll _)
  cases isPlaying play
  · exact onlyNotes_withSeq _ _
  · exact (onlyNotes_withSeq _ _).trans (onlyNotes_seqLoop _ _ _ _)

theorem onlyNotes_requestOns (s : State) (on : Word) (oct : Int) : OnlyNotes s (s.requestOns on oct) :=
  OnlyNotes.foldl (fun t d => onlyNotes_poolNoteOn t d oct) _ _

theorem onlyNotes_requestOffs (s : State) (off : Word) : OnlyNotes s (s.requestOffs off) :=
  OnlyNotes.foldl onlyNotes_poolNoteOff _ _

/-! ### The advance loop (R181) -/

theorem stepLength_pos {fs : Rat} (h : 0 < fs) (bpm : Int) : 0 < stepLength fs bpm := by
  unfold stepLength
  have : (0 : Rat) < ((if bpm ≤ 0 then 120 else bpm : Int) : Rat) := by
    split
    · norm_num
    · exact_mod_cast not_le.mp ‹_›
  positivity

@[simp] theorem State.poolNoteOn_seq (s : State) (d : Degree) (oct : Int) : (s.poolNoteOn d oct).seq = s.seq := by
  rw [State.poolNoteOn_eq]

theorem foldl_seqTrigger_acc (l : List Degree) (oct : Int) (sps : Rat) (s : State) :
    (l.foldl (fun s d => s.seqTrigger d oct sps) s).seq.acc = s.seq.acc ∧
    (l.foldl (fun s d => s.seqTrigger d oct sps) s).seq.step = s.seq.step ∧
    (l.foldl (fun s d => s.seqTrigger d oct sps) s).seq.pos = s.seq.pos := by
  induction l generalizing s with
  | nil => exact ⟨rfl, rfl, rfl⟩
  | cons d l ih =>
    have := ih (s.seqTrigger d oct sps)
    simpa [State.seqTrigger] using this

/-- One turn of the loop: ACC loses one step length, STEP advances by one modulo 16, POS stays (R181). -/
theorem seqPlayStep_clock (s : State) (oct : Int) (sps : Rat) :
    (s.seqPlayStep oct sps).seq.acc = s.seq.acc - sps ∧ (s.seqPlayStep oct sps).seq.step = s.seq.step + 1 ∧
    (s.seqPlayStep oct sps).seq.pos = s.seq.pos :=
  foldl_seqTrigger_acc _ _ _ _

/-- The fuel of the loop is exactly the number of steps it enters: with it the loop ends where its test fails
(R181). -/
theorem seqLoop_acc {sps : Rat} (hs : 0 < sps) (oct : Int) (s : State) (h0 : 0 ≤ s.seq.acc) :
    0 ≤ (State.seqLoop oct sps (loopFuel s.seq.acc sps) s).seq.acc ∧
    (State.seqLoop oct sps (loopFuel s.seq.acc sps) s).seq.acc < sps := by
  have key : ∀ (k : Nat) (t : State), (k : Rat) * sps ≤ t.seq.acc → t.seq.acc < ((k : Rat) + 1) * sps →
      (State.seqLoop oct sps k t).seq.acc = t.seq.acc - (k : Rat) * sps := by
    intro k
    induction k with
    | zero => intro t _ _; simp [State.seqLoop]
    | succ k ih =>
      intro t h1 h2
      have hle : sps ≤ t.seq.acc := by
        have : (0 : Rat) ≤ (k : Rat) := Nat.cast_nonneg k
        push_cast at h1
        nlinarith
      have e := (seqPlayStep_clock t oct sps).1
      simp only [State.seqLoop, hle, if_true]
      push_cast at h1 h2 ⊢
      rw [ih _ (by rw [e]; linarith) (by rw [e]; linarith), e]
      ring
  have hf0 : 0 ≤ ⌊s.seq.acc / sps⌋ := Int.floor_nonneg.mpr (div_nonneg h0 hs.le)
  have hk : ((loopFuel s.seq.acc sps : Nat) : Rat) = (⌊s.seq.acc / sps⌋ : Rat) := by
    unfold loopFuel
    rw [rat_floor_eq]
    exact_mod_cast Int.toNat_of_nonneg hf0
  have h1 := (le_div_iff₀ hs).mp (Int.floor_le (s.seq.acc / sps))
  have h2 := (div_lt_iff₀ hs).mp (Int.lt_floor_add_one (s.seq.acc / sps))
  rw [← hk] at h1 h2
  rw [key _ s h1 h2]
  constructor <;> linarith

end Sys2Proof.Machine
end

