-- ==== Sys2Proof/Laws/Callback.lean ====
section
/-!
SUPPORT. What the phases and the events of a callback, the jitter buffer and the ports can change, and that each keeps
its part of the invariant.
-/

namespace Sys2Proof.Machine

/-! ### OUT -/

@[simp] theorem zeroFirst_length (n : Nat) (os : List Exact) : (zeroFirst n os).length = os.length := by
  induction n generalizing os with
  | zero => cases os <;> rfl
  | succ n ih => cases os with
    | nil => rfl
    | cons o os => simp [zeroFirst, ih]

theorem zeroFirst_getD (n : Nat) (os : List Exact) (t : Nat) :
    (zeroFirst n os).getD t .zero = if t < n then .zero else os.getD t .zero := by
  induction n generalizing os t with
  | zero => cases os <;> simp [zeroFirst]
  | succ n ih => cases os with
    | nil => simp [zeroFirst]
    | cons o os => cases t with
      | zero => simp [zeroFirst]
      | succ t => simpa [zeroFirst] using ih os t

/-! ### Jitter buffer (R191, R192) -/

/-- Everything JB.PUSH changes, from a queue within its cap: the queue, and STATUS when it was full (R191). -/
theorem State.jbPush_eq (s : State) (blk : List Word) (h : s.queue.length ≤ Config.jbCap) :
    s.jbPush blk =
      if s.queue.length < Config.jbCap then s.withQueue (s.queue ++ [blk])
      else (s.withQueue (s.queue.tail ++ [blk])).flag .jbEvict := by
  unfold State.jbPush
  simp only [Config.jbCap, List.length_append, List.length_singleton] at h ⊢
  by_cases c : s.queue.length < 64
  · have c' : s.queue.length + 1 ≤ 64 := by omega
    simp [c, c']
  · have e : s.queue.length = 64 := by omega
    have hne : s.queue ≠ [] := by intro h0; simp [h0] at e
    simp [e, List.tail_append_of_ne_nil hne]

theorem jbPush_queue_length (s : State) (blk : List Word) :
    1 ≤ (s.jbPush blk).queue.length ∧ (s.jbPush blk).queue.length ≤ Config.jbCap := by
  unfold State.jbPush
  by_cases c : (s.queue ++ [blk]).length ≤ Config.jbCap
  · simp only [c, if_true, State.withQueue_queue, and_true]
    simp
  · simp only [c, if_false, State.flag_queue, State.withQueue_queue]
    simp only [Config.jbCap, List.length_drop, List.length_append, List.length_singleton] at c ⊢
    omega

theorem jbPush_queue_mem (s : State) (blk : List Word) {b : List Word} (hb : b ∈ (s.jbPush blk).queue) :
    b ∈ s.queue ∨ b = blk := by
  unfold State.jbPush at hb
  simp only at hb
  split at hb
  · simpa using hb
  · have := List.mem_of_mem_drop hb
    simpa using this

theorem payloadWords_length (bs : List Byte) : (payloadWords bs).length = bs.length / 4 := by
  induction bs using payloadWords.induct with
  | case1 b0 b1 b2 b3 rest ih => simp [payloadWords, ih]; omega
  | case2 bs h =>
    have : payloadWords bs = [] := by
      unfold payloadWords
      split
      · exact absurd rfl (h _ _ _ _ _)
      · rfl
    rw [this]
    match bs, h with
    | [], _ => rfl
    | [_], _ => exact (by simp)
    | [_, _], _ => exact (by simp)
    | [_, _, _], _ => exact (by simp)
    | _ :: _ :: _ :: _ :: _, h => exact absurd rfl (h _ _ _ _ _)

/-- The words a payload was made of come back from its bytes (R74, R76, R190). -/
theorem payloadWords_wordBytes_append (w : Word) (bs : List Byte) :
    payloadWords (wordBytes w ++ bs) = w :: payloadWords bs := by
  simp [wordBytes, payloadWords, bytesWord_wordBytes]

/-! ### The phases -/

theorem State.phaseZero_eq (s : State) (n : Nat) : s.phaseZero n = { s with out := zeroFirst n s.out } := rfl

theorem State.mixRemote_eq (s : State) (xs : List Word) (g : Word) :
    s.mixRemote xs g = { s with out := addFrames s.out (xs.map fun w => .rat (f32val g * remoteSample w)) } := rfl

theorem State.phaseEmit_eq (s : State) (n : Nat) :
    s.phaseEmit n = { s with io := { s.io with
      audioOut := s.io.audioOut ++ [(s.out.take n).map Exact.emitted]
      netTx := s.io.netTx ++ [((s.out.take n).map Exact.emitted).flatMap Sample.bytes] } } := rfl

theorem State.phaseLatch_eq (s : State) (r : RegFile) :
    s.phaseLatch r = { s with voices := s.voices.map (Voice.latch r) } := rfl

theorem State.phaseResize_eq (s : State) (w : Word) :
    s.phaseResize w = { s with
      voices := if targetVoices s.params w = s.nv then s.voices
        else List.replicate (targetVoices s.params w) Voice.reset
      tick := if targetVoices s.params w = s.nv then s.tick else 0 } := by
  unfold State.phaseResize
  split <;> rfl

theorem State.phaseRemote_eq (s : State) (n : Nat) :
    s.phaseRemote n =
      if popWithheld s.regs.jbTarget s.queue = true then s.flag .jbUnderrun
      else { s with
        queue := s.queue.tail
        out := addFrames s.out ((popSamples n s.queue).map fun w => .rat (f32val s.regs.remoteGain * remoteSample w)) } := by
  unfold State.phaseRemote
  split <;> rfl

/-! ### Reads of a callback in progress (R80, R81) -/

theorem readOneOf_of_pos (s : State) (g : List RegName → Event) (pick : Nat) (rs : List RegName) (h : rs ≠ []) :
    ∃ r ∈ rs, ∃ rest : List RegName, rest = rs.eraseIdx (pick % rs.length) ∧
      s.readOneOf g pick rs = if rest = [] then s.see r else (s.see r).pushEvents [g rest] := by
  have hl : pick % rs.length < rs.length := Nat.mod_lt _ (List.length_pos_iff.mpr h)
  refine ⟨rs[pick % rs.length], List.getElem_mem _, _, rfl, ?_⟩
  unfold State.readOneOf
  rw [List.getElem?_eq_getElem hl]
  simp only [List.isEmpty_iff]

theorem eventsIn_cons (ph : Fin 9) (e : Event) (l : List Event) :
    eventsIn ph (e :: l) = if e.phase = ph then e :: eventsIn ph l else eventsIn ph l := by
  simp [eventsIn, List.filter_cons]

theorem eventsIn_append (ph : Fin 9) (a b : List Event) : eventsIn ph (a ++ b) = eventsIn ph a ++ eventsIn ph b := by
  simp [eventsIn]

/-- After the last event of a phase come the events of the next one, and after phase 8 nothing (R22, R200). -/
theorem eventsAfter_split (ph : Fin 9) :
    (ph.val = 8 ∧ eventsAfter ph.val = []) ∨
    ∃ q : Fin 9, q.val = ph.val + 1 ∧ eventsIn q (eventsAfter ph.val) ≠ [] ∧
      eventsAfter ph.val = eventsIn q (eventsAfter ph.val) ++ eventsAfter q.val ∧
      (eventsAfter ph.val).head?.map Event.phase = some q := by
  revert ph
  decide

theorem eventsAfter_reads (k : Nat) : (eventsAfter k).all Event.readsOk = true := by
  refine List.all_eq_true.mpr fun e he => ?_
  have : e ∈ callbackEvents := List.mem_of_mem_filter he
  exact (by decide : ∀ e ∈ callbackEvents, e.readsOk = true) e this

theorem eventsIn_eventsAfter (ph : Fin 9) : eventsIn ph (eventsAfter ph.val) = [] := by
  revert ph
  decide

end Sys2Proof.Machine
end

