-- ==== Sys2Proof/Laws/Encoding.lean ====
section
/-!
SUPPORT. The fields of format C (spec/30_encoding.md R101): what `formatC` puts where, and that a word with `rsv` = 0 is
its own fields put together.
-/

namespace Sys2Proof

/-- The fields of a word of format C (R101). -/
theorem formatC_fields (op : Opcode) (a : Addr) (d : Word) :
    opField (formatC op a d) = op.byte ∧ rsvField (formatC op a d) = 0 ∧ addrField (formatC op a d) = a ∧
    dataField (formatC op a d) = d := by
  refine ⟨?_, ?_, ?_, ?_⟩ <;> apply BitVec.eq_of_getLsbD_eq <;> intro i hi <;>
    simp only [opField, rsvField, addrField, dataField, formatC, BitVec.getLsbD_append, BitVec.getLsbD_extractLsb',
      hi, decide_true, Bool.true_and]
  · simp [show ¬ 56 + i < 56 by omega]
  · simp [show 48 + i < 56 by omega, show ¬ (48 + i < 48) by omega]
  · simp [show 32 + i < 56 by omega, show (32 + i < 48) by omega]
  · simp [show i < 56 by omega, show (i < 48) by omega, hi]

/-- A word with `rsv` = 0 is its own fields put together (R101). -/
theorem formatC_of_fields (w : Command) (op : Opcode) (h1 : opField w = op.byte) (h2 : rsvField w = 0) :
    formatC op (addrField w) (dataField w) = w := by
  apply BitVec.eq_of_getLsbD_eq
  intro i hi
  have e1 : ∀ j < 8, op.byte.getLsbD j = w.getLsbD (56 + j) := by
    intro j hj
    rw [← h1]
    simp [opField, hj]
  have e2 : ∀ j < 8, (0#8).getLsbD j = w.getLsbD (48 + j) := by
    intro j hj
    rw [show (0#8) = rsvField w from h2.symm]
    simp [rsvField, hj]
  simp only [formatC, BitVec.getLsbD_append, addrField, dataField, BitVec.getLsbD_extractLsb']
  by_cases c1 : i < 32
  · simp [c1, show i < 48 by omega, show i < 56 by omega]
  by_cases c2 : i < 48
  · simp [c1, c2, show i < 56 by omega, show i - 32 < 16 by omega, show 32 + (i - 32) = i by omega]
  by_cases c3 : i < 56
  · have := e2 (i - 48) (by omega)
    simp [c2, c3, show 48 + (i - 48) = i by omega] at this ⊢
    rw [this]
  · have := e1 (i - 56) (by omega)
    simp [c3, show 56 + (i - 56) = i by omega] at this ⊢
    convert this using 2

theorem maskHighField_eq (w : Command) : maskHighField w = (dataField w).extractLsb' 12 20 := by
  apply BitVec.eq_of_getLsbD_eq
  intro i hi
  simp [maskHighField, dataField, hi]

theorem maskField_eq (w : Command) : maskField w = (dataField w).extractLsb' 0 12 := by
  apply BitVec.eq_of_getLsbD_eq
  intro i hi
  simp [maskField, dataField, hi]

/-- A data field whose bits 31:12 are 0 is its mask (R102). -/
theorem setWidth_mask_of_high_zero (d : Word) (h : d.extractLsb' 12 20 = 0) : (d.extractLsb' 0 12).setWidth 32 = d := by
  apply BitVec.eq_of_getLsbD_eq
  intro i hi
  have high : ∀ j < 20, d.getLsbD (12 + j) = false := by
    intro j hj
    simpa [BitVec.getLsbD_extractLsb', hj] using congrArg (fun x => x.getLsbD j) h
  by_cases c : i < 12
  · simp [c, hi]
  · have := high (i - 12) (by omega)
    simp [show 12 + (i - 12) = i by omega] at this
    simp [BitVec.getLsbD_extractLsb', c, this]

theorem extract_setWidth_mask (m : BitVec 12) :
    (m.setWidth 32).extractLsb' 12 20 = 0 ∧ (m.setWidth 32).extractLsb' 0 12 = m := by
  constructor <;> apply BitVec.eq_of_getLsbD_eq <;> intro i hi
  · simp [BitVec.getLsbD_extractLsb']
  · simp [hi]
    omega

theorem opcodeOf_byte (o : Opcode) : opcodeOf o.byte = some o := by cases o <;> decide

theorem opcodeOf_eq_some {b : BitVec 8} {o : Opcode} (h : opcodeOf b = some o) : b = o.byte := by
  unfold opcodeOf at h
  repeat' split at h
  all_goals first
    | (cases h; done)
    | (cases h; assumption)

end Sys2Proof
end

