-- ==== Sys2Proof/Laws/Invariant.lean ====
section
/-!
SUPPORT. Every operation of the block keeps its part of the invariant: the phases of a callback, the updates of the ports,
and one event of a callback in progress (`runEvent_ok`).
-/

namespace Sys2Proof.Machine

/-! ### The clock of the sequencer in the release check (R181) -/

theorem seqReleaseOne_clock (s : State) (d : Degree) :
    (s.seqReleaseOne d).seq.acc = s.seq.acc ∧ (s.seqReleaseOne d).seq.step = s.seq.step ∧
    (s.seqReleaseOne d).seq.pos = s.seq.pos := by
  by_cases c : s.seq.relp[d] = true ∧ s.seq.relt[d] ≤ (s.seq.pos.toNat : Rat)
  · simp only [State.seqReleaseOne, c, and_self, if_true, State.withSeq_seq, State.poolNoteOff_eq]
  · simp only [State.seqReleaseOne, c, if_false, and_self]

theorem foldl_seqReleaseOne_clock (l : List Degree) (s : State) :
    (l.foldl State.seqReleaseOne s).seq.acc = s.seq.acc ∧ (l.foldl State.seqReleaseOne s).seq.step = s.seq.step ∧
    (l.foldl State.seqReleaseOne s).seq.pos = s.seq.pos := by
  induction l generalizing s with
  | nil => exact ⟨rfl, rfl, rfl⟩
  | cons d l ih =>
    have h1 := ih (s.seqReleaseOne d)
    have h2 := seqReleaseOne_clock s d
    exact ⟨h1.1.trans h2.1, h1.2.1.trans h2.2.1, h1.2.2.trans h2.2.2⟩

theorem seqReleaseAll_clock (s : State) :
    s.seqReleaseAll.seq.acc = s.seq.acc ∧ s.seqReleaseAll.seq.step = s.seq.step ∧
    s.seqReleaseAll.seq.pos = s.seq.pos := by
  have e : s.seqReleaseAll = degrees.foldl State.seqReleaseOne s := rfl
  rw [e]
  exact foldl_seqReleaseOne_clock _ s

theorem seqAdvance_acc {s : State} (hfs : 0 < s.params.fs) (h : 0 ≤ s.seq.acc) (n : Nat) (oct : Int)
    (bpm play : Word) : 0 ≤ (s.seqAdvance n oct bpm play).seq.acc := by
  unfold State.seqAdvance
  simp only [State.seqAdvancePos, State.withSeq_seq]
  rw [(seqReleaseAll_clock _).1]
  cases hp : isPlaying play
  · simp [State.seqAdvanceAcc]
  · simp only [if_true]
    refine (seqLoop_acc (stepLength_pos hfs _) oct _ ?_).1
    simp only [State.seqAdvanceAcc, State.withSeq_seq, if_true]
    positivity

/-! ### The invariant but for the callback in progress -/

/-- The invariant but for the callback in progress and the grain. -/
structure State.CoreInv (s : State) : Prop where
  pool : s.PoolInv
  acc : 0 ≤ s.seq.acc
  queue : s.queue.length ≤ Config.jbCap
  blocks : ∀ b ∈ s.queue, b.length ≤ s.params.jbBlkMax
  out : s.out.length = s.params.maxFrames

theorem State.Inv.core {s : State} (h : s.Inv) : s.CoreInv := ⟨h.pool, h.acc, h.queue, h.blocks, h.out⟩

theorem State.CoreInv.inv {s : State} (h : s.CoreInv) (hp : progressOk s.params s.ph s.cb) (hg : s.grain = .whole) : s.Inv :=
  ⟨h.pool.params, h.pool.regs, h.pool.nv, h.pool.voices, h.acc, h.queue, h.blocks, h.out, hp, hg⟩

theorem OnlyNotes.fields {s t : State} (h : OnlyNotes s t) : t.params = s.params ∧ t.queue = s.queue ∧ t.out = s.out ∧
    t.ph = s.ph ∧ t.cb = s.cb ∧ t.grain = s.grain ∧ t.sched = s.sched ∧ t.io = s.io := by
  unfold OnlyNotes at h; rw [h]; exact ⟨rfl, rfl, rfl, rfl, rfl, rfl, rfl, rfl⟩

theorem State.CoreInv.of_notes {s t : State} (h : s.CoreInv) (hn : OnlyNotes s t) (hp : t.PoolInv) (ha : 0 ≤ t.seq.acc) :
    t.CoreInv := by
  obtain ⟨e1, e2, e3, -⟩ := hn.fields
  exact ⟨hp, ha, by rw [e2]; exact h.queue, by rw [e2, e1]; exact h.blocks, by rw [e3, e1]; exact h.out⟩

theorem State.CoreInv.seqAdvance {s : State} (h : s.CoreInv) (n : Nat) (oct : Int) (bpm play : Word) :
    (s.seqAdvance n oct bpm play).CoreInv :=
  h.of_notes (onlyNotes_seqAdvance _ _ _ _ _) (h.pool.seqAdvance _ _ _ _)
    (seqAdvance_acc (Params.WF.fs_pos h.pool.params) h.acc _ _ _ _)

theorem State.CoreInv.phaseZero {s : State} (h : s.CoreInv) (n : Nat) : (s.phaseZero n).CoreInv :=
  ⟨⟨h.pool.params, h.pool.regs, h.pool.nv, h.pool.voices⟩, h.acc, h.queue, h.blocks,
    by simpa [State.phaseZero] using h.out⟩

theorem State.CoreInv.withRegs {s : State} (h : s.CoreInv) {r : RegFile} (hr : r.WF) : (s.withRegs r).CoreInv :=
  ⟨⟨h.pool.params, hr, h.pool.nv, h.pool.voices⟩, h.acc, h.queue, h.blocks, h.out⟩

theorem State.CoreInv.flag {s : State} (h : s.CoreInv) (b : StatusFlag) : (s.flag b).CoreInv :=
  h.withRegs (flag_regs_WF h.pool.regs b)

theorem seq_requestOns (s : State) (on : Word) (oct : Int) : (s.requestOns on oct).seq = s.seq :=
  foldl_keeps (P := fun t => t.seq = s.seq) (fun _ _ h => by simpa using h) _ _ rfl

theorem seq_requestOffs (s : State) (on : Word) : (s.requestOffs on).seq = s.seq :=
  foldl_keeps (P := fun t => t.seq = s.seq) (f := State.poolNoteOff) (fun _ _ h => h) _ _ rfl

theorem State.CoreInv.poolNoteOn {s : State} (h : s.CoreInv) (d : Degree) (oct : Int) : (s.poolNoteOn d oct).CoreInv :=
  h.of_notes (onlyNotes_poolNoteOn s d oct) (h.pool.poolNoteOn d oct) (by simpa using h.acc)

theorem State.CoreInv.seqTrigger {s : State} (h : s.CoreInv) (d : Degree) (oct : Int) (sps : Rat) :
    (s.seqTrigger d oct sps).CoreInv :=
  h.of_notes (onlyNotes_seqTrigger s d oct sps) (h.pool.seqTrigger d oct sps)
    (by simpa [State.seqTrigger] using h.acc)

theorem State.CoreInv.requestOns {s : State} (h : s.CoreInv) (on : Word) (oct : Int) : (s.requestOns on oct).CoreInv :=
  foldl_keeps (P := State.CoreInv) (fun _ d hs => hs.poolNoteOn d oct) _ _ h

theorem State.CoreInv.requestOffs {s : State} (h : s.CoreInv) (off : Word) : (s.requestOffs off).CoreInv :=
  foldl_keeps (P := State.CoreInv)
    (fun t d hs => hs.of_notes (onlyNotes_poolNoteOff t d) (hs.pool.poolNoteOff d) hs.acc) _ _ h

theorem State.CoreInv.drain {s : State} (h : s.CoreInv) (r : RegName) (hr : r.type.admits 0 = true) :
    (s.regWrite r 0).CoreInv := h.withRegs (RegFile.WF.write h.pool.regs hr)

theorem State.CoreInv.phaseRequests {s : State} (h : s.CoreInv) (oct : Int) : (s.phaseRequests oct).CoreInv :=
  (((h.drain .noteOnReq rfl).drain .noteOffReq rfl).requestOns _ _).requestOffs _

theorem State.CoreInv.phaseResize {s : State} (h : s.CoreInv) (w : Word) : (s.phaseResize w).CoreInv := by
  have hp := h.pool.phaseResize w
  rw [State.phaseResize_eq] at hp ⊢
  exact ⟨hp, h.acc, h.queue, h.blocks, h.out⟩

theorem State.CoreInv.phaseLatch {s : State} (h : s.CoreInv) (r : RegFile) : (s.phaseLatch r).CoreInv :=
  ⟨h.pool.phaseLatch r, h.acc, h.queue, h.blocks, h.out⟩

theorem State.CoreInv.phaseRender {s : State} (h : s.CoreInv) (n : Nat) : (s.phaseRender n).CoreInv :=
  ⟨h.pool.poolRenderMixed n, h.acc, h.queue, h.blocks, by
    rw [State.phaseRender, State.poolRenderMixed_eq]; simp only [(mixVoices_length _ _ _ _).2]; exact h.out⟩

theorem State.CoreInv.mixRemote {s : State} (h : s.CoreInv) (xs : List Word) (g : Word) : (s.mixRemote xs g).CoreInv :=
  ⟨⟨h.pool.params, h.pool.regs, h.pool.nv, h.pool.voices⟩, h.acc, h.queue, h.blocks,
    by simpa [State.mixRemote] using h.out⟩

theorem State.CoreInv.tailQueue {s : State} (h : s.CoreInv) : (s.withQueue s.queue.tail).CoreInv :=
  ⟨⟨h.pool.params, h.pool.regs, h.pool.nv, h.pool.voices⟩, h.acc, by have := h.queue; simp; omega,
    fun b hb => h.blocks b (List.mem_of_mem_tail hb), h.out⟩

theorem State.CoreInv.phaseRemote {s : State} (h : s.CoreInv) (n : Nat) : (s.phaseRemote n).CoreInv := by
  unfold State.phaseRemote
  split
  · exact h.flag _
  · exact h.tailQueue.mixRemote _ _

theorem State.CoreInv.withIo {s : State} (h : s.CoreInv) (x : Channels) : (s.withIo x).CoreInv :=
  ⟨⟨h.pool.params, h.pool.regs, h.pool.nv, h.pool.voices⟩, h.acc, h.queue, h.blocks, h.out⟩
theorem State.CoreInv.withCb {s : State} (h : s.CoreInv) (x : Progress) : (s.withCb x).CoreInv :=
  ⟨⟨h.pool.params, h.pool.regs, h.pool.nv, h.pool.voices⟩, h.acc, h.queue, h.blocks, h.out⟩
theorem State.CoreInv.withPh {s : State} (h : s.CoreInv) (x : Fin 9) : (s.withPh x).CoreInv :=
  ⟨⟨h.pool.params, h.pool.regs, h.pool.nv, h.pool.voices⟩, h.acc, h.queue, h.blocks, h.out⟩
theorem State.CoreInv.withGrain {s : State} (h : s.CoreInv) (x : Grain) : (s.withGrain x).CoreInv :=
  ⟨⟨h.pool.params, h.pool.regs, h.pool.nv, h.pool.voices⟩, h.acc, h.queue, h.blocks, h.out⟩
theorem State.CoreInv.withSched {s : State} (h : s.CoreInv) (x : List Turn) : (s.withSched x).CoreInv :=
  ⟨⟨h.pool.params, h.pool.regs, h.pool.nv, h.pool.voices⟩, h.acc, h.queue, h.blocks, h.out⟩

theorem State.CoreInv.callbackWhole {s : State} (h : s.CoreInv) (n : Nat) : (s.callbackWhole n).Inv := by
  unfold State.callbackWhole State.phasesAfterRequests State.phaseSequencer State.callbackDone
  refine State.CoreInv.inv ?_ (by simp [progressOk]) rfl
  refine State.CoreInv.withGrain (State.CoreInv.withCb (State.CoreInv.withPh ?_ _) _) _
  refine State.CoreInv.withIo ?_ _
  exact ((((((h.phaseZero n).seqAdvance _ _ _ _).phaseRequests _).phaseResize _).phaseLatch _).phaseRender n).phaseRemote n

theorem see_WF {s : State} (h : s.CoreInv) {r : RegName} (hr : r ≠ .jbSize) (hs : s.cb.seen.WF) :
    (s.cb.seen.write r (s.regRead r)).WF := by
  refine RegFile.WF.write hs ?_
  have := h.pool.regs r
  cases r <;> first | exact absurd rfl hr | exact this

/-! ### One event -/

/-- What an event of phase `ph` leaves: the invariant, the same frame count, and only events of its own phase put before the
rest. -/
structure EventOk (p : Params) (ph : Fin 9) (n : Word) (rest : List Event) (t : State) : Prop where
  core : t.CoreInv
  seen : t.cb.seen.WF
  par : t.params = p
  ntodo : t.cb.n = n
  todo : ∃ es, t.cb.todo = es ++ rest ∧ es.all (fun e => decide (e.phase = ph)) = true ∧ es.all Event.readsOk = true
  grain : t.grain = .whole

theorem readOne_ok {s : State} (h : s.CoreInv) (hs : s.cb.seen.WF) (hg : s.grain = .whole)
    (g : List RegName → Event) (pick : Nat) (rs all : List RegName) (hall : ∀ r ∈ all, r ≠ .jbSize)
    (hro : ∀ rs, (g rs).readsOk = (!rs.isEmpty && rs.all (all.contains ·))) (ph : Fin 9)
    (hph : ∀ rs, (g rs).phase = ph) (hrs : (g rs).readsOk = true) :
    EventOk s.params ph s.cb.n s.cb.todo (s.readOneOf g pick rs) := by
  rw [hro] at hrs
  simp only [Bool.and_eq_true, Bool.not_eq_true', List.isEmpty_eq_false_iff] at hrs
  obtain ⟨r, hr, rest, hrest, e⟩ := readOneOf_of_pos s g pick rs hrs.1
  have hmem : ∀ x ∈ rs, all.contains x = true := by simpa [List.all_eq_true] using hrs.2
  have hrj : r ≠ .jbSize := hall r (by simpa using hmem r hr)
  rw [e]
  split
  · exact ⟨h.withCb _, see_WF h hrj hs, rfl, rfl, ⟨[], rfl, rfl, rfl⟩, hg⟩
  · rename_i hne
    refine ⟨(h.withCb _).withCb _, see_WF h hrj hs, rfl, rfl, ⟨[g rest], rfl, by simp [hph], ?_⟩, hg⟩
    simp only [List.all_cons, List.all_nil, Bool.and_true, hro, Bool.and_eq_true, Bool.not_eq_true',
      List.isEmpty_eq_false_iff]
    refine ⟨hne, ?_⟩
    rw [List.all_eq_true]
    intro x hx
    rw [hrest] at hx
    exact hmem x (List.mem_of_mem_eraseIdx hx)

theorem EventOk.simple {s t : State} (ht : t.CoreInv) (hs : s.cb.seen.WF) (h1 : t.params = s.params)
    (h2 : t.cb = s.cb) (h3 : t.grain = s.grain) (hg : s.grain = .whole) (ph : Fin 9) :
    EventOk s.params ph s.cb.n s.cb.todo t :=
  ⟨ht, by rw [h2]; exact hs, h1, by rw [h2], ⟨[], by rw [h2]; rfl, rfl, rfl⟩, h3.trans hg⟩

/-- What one event of a callback leaves, whichever it is (R80, R200). -/
theorem runEvent_ok {s : State} (h : s.CoreInv) (hs : s.cb.seen.WF) (hg : s.grain = .whole) (pick : Nat) (e : Event)
    (he : e.readsOk = true) : EventOk s.params e.phase s.cb.n s.cb.todo (s.runEvent pick e) := by
  cases e with
  | zero => exact .simple (h.phaseZero _) hs rfl rfl rfl hg _
  | readTiming rs => exact readOne_ok h hs hg .readTiming pick rs timingRegs (by decide) (fun _ => rfl) 2 (fun _ => rfl) he
  | seqAdvance =>
    have hc : (s.seqAdvanceAcc (isPlaying s.cb.seen.play) (u32 s.cb.n)).CoreInv := by
      refine h.of_notes (onlyNotes_withSeq _ _) (h.pool.withSeq _) ?_
      simp only [State.seqAdvanceAcc, State.withSeq_seq]
      have := h.acc
      split <;> positivity
    simp only [State.runEvent]
    split
    · exact ⟨hc.withCb _, hs, rfl, rfl, ⟨[.seqStep], rfl, rfl, rfl⟩, hg⟩
    · exact .simple hc hs rfl rfl rfl hg _
  | seqStep =>
    simp only [State.runEvent]
    split
    · rename_i hc
      have hc' : (s.seqEnterStep s.progressSps).CoreInv := by
        refine h.of_notes (onlyNotes_withSeq _ _) (h.pool.withSeq _) ?_
        simp only [State.seqEnterStep, State.withSeq_seq]; linarith
      refine ⟨(hc'.withCb _).withCb _, see_WF hc' (by simp) hs, rfl, rfl,
        ⟨List.map Event.seqTrigger _ ++ [.seqStep],
          by simp only [State.pushEvents_cb, State.see_cb, List.append_assoc]; rfl, ?_, ?_⟩, hg⟩
      · simp [Event.phase]
      · simp [Event.readsOk]
    · exact .simple h hs rfl rfl rfl hg _
  | seqTrigger d =>
    obtain ⟨e1, -, -, -, e2, e3, -, -⟩ := (onlyNotes_seqTrigger s d s.cb.octave s.progressSps).fields
    simp only [State.runEvent]
    exact .simple (h.seqTrigger _ _ _) hs e1 e2 e3 hg _
  | seqRelease =>
    have hnotes := (onlyNotes_seqReleaseAll s).trans
      (onlyNotes_withSeq _ (State.seqAdvancePos s.seqReleaseAll (u32 s.cb.n)).seq)
    obtain ⟨e1, -, -, -, e2, e3, -, -⟩ := hnotes.fields
    simp only [State.runEvent]
    refine .simple ?_ hs e1 e2 e3 hg _
    have hpool : s.seqReleaseAll.PoolInv :=
      foldl_keeps (P := State.PoolInv) (fun _ d hs => hs.seqReleaseOne d) _ _ h.pool
    refine h.of_notes hnotes (hpool.withSeq _) ?_
    simp only [State.seqAdvancePos, State.withSeq_seq]
    rw [(seqReleaseAll_clock _).1]; exact h.acc
  | drainOn => exact ⟨(h.withCb _).drain .noteOnReq rfl, see_WF h (by simp) hs, rfl, rfl, ⟨[], rfl, rfl, rfl⟩, hg⟩
  | drainOff =>
    refine ⟨((h.withCb _).drain .noteOffReq rfl).withCb _, see_WF h (by simp) hs, rfl, rfl, ⟨_, rfl, ?_, ?_⟩, hg⟩
    · simp [Event.phase]
    · simp [Event.readsOk]
  | requestOn d =>
    obtain ⟨e1, -, -, -, e2, e3, -, -⟩ := (onlyNotes_poolNoteOn s d s.cb.octave).fields
    simp only [State.runEvent]
    exact .simple (h.poolNoteOn _ _) hs e1 e2 e3 hg _
  | requestOffs =>
    obtain ⟨e1, -, -, -, e2, e3, -, -⟩ := (onlyNotes_requestOffs s s.cb.seen.noteOffReq).fields
    simp only [State.runEvent]
    exact .simple (h.requestOffs _) hs e1 e2 e3 hg _
  | readPoly rs => exact readOne_ok h hs hg .readPoly pick rs [.polyTarget] (by decide) (fun _ => rfl) 4 (fun _ => rfl) he
  | resize =>
    have e := State.phaseResize_eq s s.cb.seen.polyTarget
    exact .simple (t := s.phaseResize s.cb.seen.polyTarget) (h.phaseResize _) hs (by rw [e]) (by rw [e]) (by rw [e]) hg _
  | readParams rs => exact readOne_ok h hs hg .readParams pick rs paramRegs (by decide) (fun _ => rfl) 5 (fun _ => rfl) he
  | latch => exact .simple (h.phaseLatch _) hs rfl rfl rfl hg _
  | render => exact .simple (h.phaseRender _) hs rfl rfl rfl hg _
  | pop =>
    simp only [State.runEvent]
    split
    · exact ⟨h.withCb _, hs, rfl, rfl, ⟨[.underrun], rfl, rfl, rfl⟩, hg⟩
    · exact ⟨(h.withCb _).tailQueue, hs, rfl, rfl, ⟨[], rfl, rfl, rfl⟩, hg⟩
  | underrun => exact .simple (h.flag _) hs rfl rfl rfl hg _
  | readRemote rs =>
    exact readOne_ok h hs hg .readRemote pick rs [.remoteGain] (by decide) (fun _ => rfl) 7 (fun _ => rfl) he
  | mix => exact .simple (h.mixRemote _ _) hs rfl rfl rfl hg _
  | emit => exact .simple (t := s.phaseEmit (u32 s.cb.n)) (h.withIo _) hs rfl rfl rfl hg _

end Sys2Proof.Machine
end

