-- ==== Sys2Proof/Laws/PerInstr.lean ====
section
/-!
SUPPORT. The statement made of every instruction as syntax: its encoding lies in its own row of the opcode table, on its
own port, and in no other row (spec/30_encoding.md R101, R103, R112).
-/

namespace Sys2Proof.Laws.EncodeRow

/-- The word of `i` is selected by exactly one row of the opcode map, and that row names `i`'s opcode and port. -/
def Statement (i : Instr) : Prop :=
  ∀ r ∈ opcodeTable, (encode i &&& r.mask = r.bits ↔ r.opcode = i.opcode) ∧ (r.opcode = i.opcode → r.port = i.port)

/-- A word of format C with opcode byte `op` is outside the row of another opcode byte, whatever the row's mask beyond
the byte. -/
theorem formatC_other {op : Opcode} {addr : Addr} {data : Word} {bits mask : Command}
    (hm : mask.extractLsb' 56 8 = 0xFF#8) (hb : bits.extractLsb' 56 8 ≠ op.byte) :
    formatC op addr data &&& mask ≠ bits := by
  intro h
  apply hb
  rw [← h]
  apply BitVec.eq_of_getLsbD_eq
  intro i hi
  have hmi : (mask.extractLsb' 56 8).getLsbD i = true := by rw [hm]; interval_cases i <;> rfl
  simp only [BitVec.getLsbD_extractLsb', hi, decide_true, Bool.true_and] at hmi ⊢
  rw [BitVec.getLsbD_and, hmi, Bool.and_true, formatC, BitVec.getLsbD_append, BitVec.getLsbD_append,
    BitVec.getLsbD_append]
  simp [show ¬ 56 + i < 56 by omega]

/-- A word of format C is inside a row when the row's pattern is the masked word, bit by bit. -/
theorem formatC_own {op : Opcode} {addr : Addr} {data : Word} {bits mask : Command}
    (h : ∀ k < 64, (mask.getLsbD k && (formatC op addr data).getLsbD k) = bits.getLsbD k) :
    formatC op addr data &&& mask = bits := by
  apply BitVec.eq_of_getLsbD_eq
  intro k hk
  rw [BitVec.getLsbD_and, Bool.and_comm]
  exact h k hk

/-- The statement, once the word is known to be inside its own row. -/
theorem of_own {i : Instr} {op : Opcode} {addr : Addr} {data : Word} (he : encode i = formatC op addr data)
    (ho : i.opcode = op)
    (hown : ∀ r ∈ opcodeTable, r.opcode = op → formatC op addr data &&& r.mask = r.bits)
    (hport : ∀ r ∈ opcodeTable, r.opcode = op → r.port = i.port) : Statement i := by
  intro r hr
  rw [he, ho]
  refine ⟨⟨fun h => ?_, hown r hr⟩, hport r hr⟩
  by_contra hne
  have hm : ∀ r ∈ opcodeTable, r.mask.extractLsb' 56 8 = 0xFF#8 ∧ r.bits.extractLsb' 56 8 = r.opcode.byte := by decide
  have hinj : ∀ a b : Opcode, a.byte = b.byte → a = b := by intro a b; cases a <;> cases b <;> decide
  exact formatC_other (hm r hr).1 (fun e => hne (hinj _ _ ((hm r hr).2.symm.trans e))) h

theorem nop (addr : Addr) (data : Word) : Statement (.nop addr data) := by
  refine of_own (op := .nop) rfl rfl ?_ (by simp [opcodeTable, Instr.port])
  simp only [opcodeTable, List.forall_mem_cons, reduceCtorEq, false_implies, true_implies, and_true,
    List.not_mem_nil, implies_true]
  refine formatC_own fun k hk => ?_
  simp only [formatC, BitVec.getLsbD_append]
  interval_cases k <;> simp [Opcode.byte]

theorem reset : Statement .reset := by
  refine of_own (op := .reset) rfl rfl ?_ (by simp [opcodeTable, Instr.port])
  simp only [opcodeTable, List.forall_mem_cons, reduceCtorEq, false_implies, true_implies, true_and, and_true,
    List.not_mem_nil, implies_true]
  refine formatC_own fun k hk => ?_
  simp only [formatC, BitVec.getLsbD_append]
  interval_cases k <;> simp [Opcode.byte]

theorem wr (addr : Addr) (data : Word) : Statement (.wr addr data) := by
  refine of_own (op := .wr) rfl rfl ?_ (by simp [opcodeTable, Instr.port])
  simp only [opcodeTable, List.forall_mem_cons, reduceCtorEq, false_implies, true_implies, true_and, and_true,
    List.not_mem_nil, implies_true]
  refine formatC_own fun k hk => ?_
  simp only [formatC, BitVec.getLsbD_append]
  interval_cases k <;> simp [Opcode.byte]

theorem rd (addr : Addr) : Statement (.rd addr) := by
  refine of_own (op := .rd) rfl rfl ?_ (by simp [opcodeTable, Instr.port])
  simp only [opcodeTable, List.forall_mem_cons, reduceCtorEq, false_implies, true_implies, true_and, and_true,
    List.not_mem_nil, implies_true]
  refine formatC_own fun k hk => ?_
  simp only [formatC, BitVec.getLsbD_append]
  interval_cases k <;> simp [Opcode.byte]

theorem noteon (mask : BitVec 12) : Statement (.noteon mask) := by
  refine of_own (op := .noteon) rfl rfl ?_ (by simp [opcodeTable, Instr.port])
  simp only [opcodeTable, List.forall_mem_cons, reduceCtorEq, false_implies, true_implies, true_and, and_true,
    List.not_mem_nil, implies_true]
  refine formatC_own fun k hk => ?_
  simp only [formatC, BitVec.getLsbD_append]
  interval_cases k <;> simp [Opcode.byte]

theorem noteoff (mask : BitVec 12) : Statement (.noteoff mask) := by
  refine of_own (op := .noteoff) rfl rfl ?_ (by simp [opcodeTable, Instr.port])
  simp only [opcodeTable, List.forall_mem_cons, reduceCtorEq, false_implies, true_implies, true_and, and_true,
    List.not_mem_nil, implies_true]
  refine formatC_own fun k hk => ?_
  simp only [formatC, BitVec.getLsbD_append]
  interval_cases k <;> simp [Opcode.byte]

theorem callback (n : Word) : Statement (.callback n) := by
  refine of_own (op := .callback) rfl rfl ?_ (by simp [opcodeTable, Instr.port])
  simp only [opcodeTable, List.forall_mem_cons, reduceCtorEq, false_implies, true_implies, true_and, and_true,
    List.not_mem_nil, implies_true]
  refine formatC_own fun k hk => ?_
  simp only [formatC, BitVec.getLsbD_append]
  interval_cases k <;> simp [Opcode.byte]

theorem jbpush (nbytes : Word) : Statement (.jbpush nbytes) := by
  refine of_own (op := .jbpush) rfl rfl ?_ (by simp [opcodeTable, Instr.port])
  simp only [opcodeTable, List.forall_mem_cons, reduceCtorEq, false_implies, true_implies, true_and, and_true,
    List.not_mem_nil, implies_true]
  refine formatC_own fun k hk => ?_
  simp only [formatC, BitVec.getLsbD_append]
  interval_cases k <;> simp [Opcode.byte]

end Sys2Proof.Laws.EncodeRow
end

