-- ==== Sys2Proof/Laws/Rounding.lean ====
section
/-!
SUPPORT. Binary32 over the reals (spec/00_scope.md R12, R13): what a finite pattern denotes, what rounding to a natural
number does, and what pattern a magnitude is. With these the nearest pattern is a matter of real arithmetic.
-/

namespace Sys2Proof.Machine

theorem two_zpow_shift (n : ℕ) (k : ℤ) : (2 : ℝ) ^ ((n : ℤ) + k) = 2 ^ n * 2 ^ k := by
  rw [zpow_add₀ two_ne_zero, zpow_natCast]

/-- The exponent, fraction and sign of a pattern, as arithmetic on its number (R12). -/
theorem f32_fields (w : Word) : f32Exp w = w.toNat / 2 ^ 23 % 256 ∧ f32Frac w = w.toNat % 2 ^ 23 ∧
    (w.getLsbD 31 = true ↔ 2 ^ 31 ≤ w.toNat) := by
  refine ⟨?_, ?_, ?_⟩
  · simp [f32Exp, BitVec.extractLsb'_toNat, Nat.shiftRight_eq_div_pow]
  · simp [f32Frac, BitVec.extractLsb'_toNat]
  · have := w.isLt
    rw [BitVec.getLsbD, Nat.testBit_eq_decide_div_mod_eq, decide_eq_true_iff]
    omega

/-- A finite pattern denotes `±m * 2^(e - 23)`, with m below 2^24 and e from -126 to 127 (R12). -/
theorem f32val_eq (w : Word) (h : f32Exp w ≠ 255) : ∃ (m : ℕ) (e : ℤ), m < 2 ^ 24 ∧ -126 ≤ e ∧ e ≤ 127 ∧
    m = (if f32Exp w = 0 then f32Frac w else 2 ^ 23 + f32Frac w) ∧
    e = (if f32Exp w = 0 then -126 else (f32Exp w : ℤ) - 127) ∧
    ((f32val w : Rat) : ℝ) = (if w.getLsbD 31 then -1 else 1) * (m * (2 : ℝ) ^ (e - 23)) := by
  have hE : f32Exp w < 256 := by rw [(f32_fields w).1]; omega
  have hF : f32Frac w < 2 ^ 23 := by rw [(f32_fields w).2.1]; omega
  refine ⟨_, _, ?_, ?_, ?_, rfl, rfl, ?_⟩
  · split <;> omega
  · split <;> omega
  · split <;> omega
  · have key : ((if f32Exp w = 0 then (f32Frac w : Rat) * pow2 (-149)
        else (1 + (f32Frac w : Rat) / (2 ^ 23 : Nat)) * pow2 ((f32Exp w : Int) - 127) : Rat) : ℝ) =
        ((if f32Exp w = 0 then f32Frac w else 2 ^ 23 + f32Frac w : ℕ) : ℝ) *
          (2 : ℝ) ^ ((if f32Exp w = 0 then -126 else (f32Exp w : ℤ) - 127) - 23) := by
      split
      · push_cast
        rw [pow2_cast]
      · have e : ((pow2 ((f32Exp w : Int) - 127) : Rat) : ℝ) = 2 ^ 23 * (2 : ℝ) ^ ((f32Exp w : ℤ) - 127 - 23) := by
          rw [pow2_cast, ← two_zpow_shift]
          congr 1
          push_cast
          ring
        push_cast
        rw [e]
        field_simp
        norm_num
    unfold f32val
    rw [if_neg h]
    simp only
    split
    · rw [Rat.cast_neg, key]
      ring
    · rw [key]
      ring

/-- Rounding to a natural number gives the nearest whole number, the even one of two equally near (R13); it is the floor, or
one more when at least a half lies above the floor. -/
theorem roundHalfEvenReal_spec {y : ℝ} (hy : 0 ≤ y) :
    (∀ k : ℤ, |y - roundHalfEvenReal y| ≤ |y - k| ∧
      (|y - roundHalfEvenReal y| = |y - k| → (k : ℝ) = roundHalfEvenReal y ∨ roundHalfEvenReal y % 2 = 0)) ∧
    (roundHalfEvenReal y = ⌊y⌋.toNat ∨ (roundHalfEvenReal y = ⌊y⌋.toNat + 1 ∧ 1 / 2 ≤ y - ⌊y⌋)) := by
  have h0 : 0 ≤ ⌊y⌋ := Int.floor_nonneg.mpr hy
  obtain ⟨f, hf⟩ := Int.eq_ofNat_of_zero_le h0
  have h1 := Int.floor_le y
  have h2 := Int.lt_floor_add_one y
  have hf' : ⌊y⌋.toNat = f := by omega
  rw [hf] at h1 h2
  push_cast at h1 h2
  have hR : roundHalfEvenReal y =
      if y - f < 1 / 2 then f else if 1 / 2 < y - f then f + 1 else if f % 2 = 0 then f else f + 1 := by
    simp only [roundHalfEvenReal, hf']
  have kcase : ∀ k : ℤ, (k : ℝ) ≤ f ∨ (f : ℝ) + 1 ≤ k := by
    intro k
    rcases le_or_gt k (f : ℤ) with h | h
    · left
      exact_mod_cast h
    · right
      have : (f : ℤ) + 1 ≤ k := h
      exact_mod_cast this
  rw [hR, hf', hf]
  refine ⟨fun k => ?_, ?_⟩
  · split
    · rw [abs_of_nonneg (by linarith)]
      rcases kcase k with h | h
      · rw [abs_of_nonneg (by linarith)]; exact ⟨by linarith, fun e => .inl (by linarith)⟩
      · rw [abs_of_nonpos (by linarith)]; exact ⟨by linarith, fun e => absurd e (by intro e; linarith)⟩
    · split
      · push_cast
        rw [abs_of_nonpos (by linarith)]
        rcases kcase k with h | h
        · rw [abs_of_nonneg (by linarith)]; exact ⟨by linarith, fun e => absurd e (by intro e; linarith)⟩
        · rw [abs_of_nonpos (by linarith)]; exact ⟨by linarith, fun e => .inl (by linarith)⟩
      · have hh : y - f = 1 / 2 := le_antisymm (not_lt.mp ‹_›) (not_lt.mp ‹_›)
        split
        · rw [abs_of_nonneg (by linarith)]
          refine ⟨?_, fun _ => .inr ‹_›⟩
          rcases kcase k with h | h
          · rw [abs_of_nonneg (by linarith)]; linarith
          · rw [abs_of_nonpos (by linarith)]; linarith
        · push_cast
          rw [abs_of_nonpos (by linarith)]
          refine ⟨?_, fun _ => .inr (by omega)⟩
          rcases kcase k with h | h
          · rw [abs_of_nonneg (by linarith)]; linarith
          · rw [abs_of_nonpos (by linarith)]; linarith
  · push_cast
    split
    · exact .inl rfl
    · split
      · exact .inr ⟨rfl, by linarith⟩
      · split
        · exact .inl rfl
        · exact .inr ⟨rfl, not_lt.mp ‹_›⟩

/-- The pattern of a sign and magnitude bits below the infinities is finite, denotes `±N * 2^(E - 149)`, and has bit 0 set
exactly when N is odd (R12, R13). -/
theorem f32val_bits (neg : Bool) (E N : ℕ) (hE : E ≤ 253) (hN : N ≤ 2 ^ 24) (hlo : E = 0 ∨ 2 ^ 23 ≤ N)
    (hhi : E = 253 → N < 2 ^ 24) :
    let w : Word := (if neg then 0x80000000#32 else 0#32) ||| BitVec.ofNat 32 (E * 2 ^ 23 + N)
    f32Exp w ≠ 255 ∧ ((f32val w : Rat) : ℝ) = (if neg then -1 else 1) * (N * (2 : ℝ) ^ ((E : ℤ) - 126 - 23)) ∧
      (w.getLsbD 0 = true ↔ N % 2 = 1) := by
  intro w
  have hM : E * 2 ^ 23 + N < 2 ^ 31 := by omega
  have hw : w.toNat = (if neg then 2 ^ 31 else 0) + (E * 2 ^ 23 + N) := by
    simp only [w, BitVec.toNat_or, BitVec.toNat_ofNat]
    rw [Nat.mod_eq_of_lt (by omega : E * 2 ^ 23 + N < 2 ^ 32)]
    cases neg
    · simp
    · have := Nat.two_pow_add_eq_or_of_lt hM 1
      simp at this ⊢; omega
  obtain ⟨h1, h2, h3⟩ := f32_fields w
  have hs : w.getLsbD 31 = neg := by
    cases neg
    · simp at hw; by_contra c; rw [Bool.not_eq_false, h3] at c; omega
    · rw [h3]; simp at hw; omega
  have hne : f32Exp w ≠ 255 := by
    rw [h1, hw]; cases neg <;> simp <;> omega
  refine ⟨hne, ?_, ?_⟩
  · obtain ⟨m, e, -, -, -, hm, he, hv⟩ := f32val_eq w hne
    rw [hv, hs]
    congr 1
    have hx : f32Exp w = (E * 2 ^ 23 + N) / 2 ^ 23 := by rw [h1, hw]; cases neg <;> simp <;> omega
    have hy : f32Frac w = (E * 2 ^ 23 + N) % 2 ^ 23 := by rw [h2, hw]; cases neg <;> [simp; (simp; omega)]
    by_cases c0 : N < 2 ^ 23
    · have : E = 0 := by omega
      subst this
      have e0 : f32Exp w = 0 := by rw [hx]; omega
      have f0 : f32Frac w = N := by rw [hy]; omega
      rw [if_pos e0] at hm he
      rw [hm, he, f0]; norm_num
    · by_cases c1 : N < 2 ^ 24
      · have e0 : f32Exp w = E + 1 := by rw [hx]; omega
        have f0 : f32Frac w = N - 2 ^ 23 := by rw [hy]; omega
        rw [if_neg (by omega)] at hm he
        have : m = N := by omega
        rw [this, he, e0]; push_cast; congr 2; ring
      · have hN' : N = 2 ^ 24 := by omega
        have e0 : f32Exp w = E + 2 := by rw [hx]; omega
        have f0 : f32Frac w = 0 := by rw [hy]; omega
        rw [if_neg (by omega)] at hm he
        have : m = 2 ^ 23 := by omega
        rw [this, he, e0, hN']; push_cast
        rw [show ((E : ℤ) + 2 - 127 - 23) = ((E : ℤ) - 126 - 23) + 1 by ring, zpow_add₀ two_ne_zero]; norm_num; ring
  · rw [BitVec.getLsbD, Nat.testBit_eq_decide_div_mod_eq, decide_eq_true_iff, hw]
    cases neg <;> simp <;> omega

end Sys2Proof.Machine
end

