-- ==== Sys2Proof/Laws/Sequencer.lean ====
section
/-!
SUPPORT. What the note operations, SEQ.ADVANCE and the phases leave as it was, beside `OnlyNotes`: the number of voices,
STATUS but for added flags, and the clock of the sequencer (spec/45_voice_pool.md R173, R174; 46_step_sequencer.md R181;
48_orchestrator.md R204, R208).
-/

namespace Sys2Proof.Machine

/-! ### The number of voices -/

theorem nv_foldl {α : Type} {f : State → α → State} (h : ∀ s a, (f s a).nv = s.nv) (l : List α) (s : State) :
    (l.foldl f s).nv = s.nv :=
  foldl_keeps (P := fun t => t.nv = s.nv) (fun t a ht => (h t a).trans ht) l s rfl

theorem nv_poolNoteOn (s : State) (d : Degree) (oct : Int) : (s.poolNoteOn d oct).nv = s.nv := by
  rw [State.poolNoteOn_eq]
  simp [State.nv]

theorem nv_poolNoteOff (s : State) (d : Degree) : (s.poolNoteOff d).nv = s.nv := by
  rw [State.poolNoteOff_eq]
  simp [State.nv]

theorem nv_seqPlayStep (s : State) (oct : Int) (sps : Rat) : (s.seqPlayStep oct sps).nv = s.nv :=
  nv_foldl (f := fun (s : State) d => s.seqTrigger d oct sps) (fun t d => nv_poolNoteOn t d oct) _ (s.seqEnterStep sps)

theorem nv_seqLoop (oct : Int) (sps : Rat) (k : Nat) (s : State) : (State.seqLoop oct sps k s).nv = s.nv := by
  induction k generalizing s with
  | zero => rfl
  | succ k ih =>
    unfold State.seqLoop
    split
    · rw [ih, nv_seqPlayStep]
    · rfl

theorem nv_seqReleaseOne (s : State) (d : Degree) : (s.seqReleaseOne d).nv = s.nv := by
  unfold State.seqReleaseOne
  split
  · exact nv_poolNoteOff s d
  · rfl

theorem nv_seqReleaseAll (s : State) : s.seqReleaseAll.nv = s.nv := by
  have e : s.seqReleaseAll = degrees.foldl State.seqReleaseOne s := rfl
  rw [e]
  exact nv_foldl nv_seqReleaseOne _ _

theorem nv_seqAdvancePos (s : State) (n : Nat) : (s.seqAdvancePos n).nv = s.nv := rfl

theorem nv_seqAdvance (s : State) (n : Nat) (oct : Int) (bpm play : Word) : (s.seqAdvance n oct bpm play).nv = s.nv := by
  unfold State.seqAdvance
  dsimp only
  rw [nv_seqAdvancePos, nv_seqReleaseAll]
  split
  · exact nv_seqLoop _ _ _ (s.seqAdvanceAcc _ n)
  · rfl

/-! ### STATUS -/

/-- `b` is `a` with flags of `m` set in addition, if any. -/
def FlagsGrow (m a b : Word) : Prop := a &&& b = a ∧ b ||| m = a ||| m

theorem FlagsGrow.refl (m a : Word) : FlagsGrow m a a := ⟨BitVec.and_self, rfl⟩

theorem FlagsGrow.trans {m a b c : Word} (h1 : FlagsGrow m a b) (h2 : FlagsGrow m b c) : FlagsGrow m a c := by
  refine ⟨?_, h2.2.trans h1.2⟩
  have : a &&& c = a &&& (b &&& c) := by rw [← BitVec.and_assoc, h1.1]
  rw [this, h2.1, h1.1]

theorem FlagsGrow.or (m a x : Word) (h : x ||| m = m) : FlagsGrow m a (a ||| x) := by
  constructor
  · ext i hi
    simp
    tauto
  · rw [BitVec.or_assoc, h]

theorem flagsGrow_foldl {α : Type} {f : State → α → State} (m : Word)
    (h : ∀ s a, FlagsGrow m s.regs.status (f s a).regs.status) (l : List α) (s : State) :
    FlagsGrow m s.regs.status (l.foldl f s).regs.status :=
  foldl_keeps (P := fun t : State => FlagsGrow m s.regs.status t.regs.status) (fun t a ht => ht.trans (h t a)) l s
    (.refl _ _)

/-- A note-on sets STEAL or no flag (R173). -/
theorem flagsGrow_poolNoteOn (s : State) (d : Degree) (oct : Int) :
    FlagsGrow StatusFlag.steal.mask s.regs.status (s.poolNoteOn d oct).regs.status := by
  rw [State.poolNoteOn_eq]
  dsimp only
  split
  · exact .or _ _ _ (by decide)
  · exact .refl _ _

theorem flagsGrow_seqLoop (oct : Int) (sps : Rat) (fuel : Nat) (s : State) :
    FlagsGrow StatusFlag.steal.mask s.regs.status (State.seqLoop oct sps fuel s).regs.status := by
  induction fuel generalizing s with
  | zero => exact .refl _ _
  | succ k ih =>
    unfold State.seqLoop
    split
    · refine FlagsGrow.trans ?_ (ih _)
      exact flagsGrow_foldl (f := fun (s : State) d => s.seqTrigger d oct sps) _
        (fun t d => flagsGrow_poolNoteOn t d oct) _ (s.seqEnterStep sps)
    · exact .refl _ _

theorem seqReleaseAll_regs (s : State) : s.seqReleaseAll.regs = s.regs := by
  have e : s.seqReleaseAll = degrees.foldl State.seqReleaseOne s := rfl
  rw [e]
  refine foldl_keeps (P := fun t : State => t.regs = s.regs) (fun t d h => ?_) _ _ rfl
  unfold State.seqReleaseOne
  split
  · exact h
  · exact h

/-- SEQ.ADVANCE sets STEAL or no flag (R181). -/
theorem flagsGrow_seqAdvance (s : State) (n : Nat) (oct : Int) (bpm play : Word) :
    FlagsGrow StatusFlag.steal.mask s.regs.status (s.seqAdvance n oct bpm play).regs.status := by
  unfold State.seqAdvance
  simp only [State.seqAdvancePos, State.withSeq_regs, seqReleaseAll_regs]
  split
  · exact flagsGrow_seqLoop _ _ _ (s.seqAdvanceAcc _ n)
  · exact .refl _ _

/-! ### The clock -/

/-- The loop with k turns of fuel, when ACC holds at least k step lengths: k steps are entered (R181). -/
theorem seqLoop_clock {sps : Rat} (hs : 0 < sps) (oct : Int) (k : Nat) (t : State) (h1 : (k : Rat) * sps ≤ t.seq.acc) :
    (State.seqLoop oct sps k t).seq.acc = t.seq.acc - (k : Rat) * sps ∧
    (State.seqLoop oct sps k t).seq.step.val = (t.seq.step.val + k) % 16 := by
  induction k generalizing t with
  | zero => simp [State.seqLoop]; omega
  | succ k ih =>
    have hle : sps ≤ t.seq.acc := by
      have : (0 : Rat) ≤ (k : Rat) := Nat.cast_nonneg k
      push_cast at h1
      nlinarith
    obtain ⟨e1, e2, -⟩ := seqPlayStep_clock t oct sps
    simp only [State.seqLoop, hle, if_true]
    obtain ⟨a, b⟩ := ih (t.seqPlayStep oct sps) (by rw [e1]; push_cast at h1; linarith)
    rw [a, b, e1, e2]
    refine ⟨by push_cast; ring, ?_⟩
    rw [Fin.val_add]
    simp
    omega

/-- With that much in ACC the loop is k steps entered one after another (R181). -/
theorem seqLoop_iterate {sps : Rat} (hs : 0 < sps) (oct : Int) (k : Nat) (t : State) (h1 : (k : Rat) * sps ≤ t.seq.acc) :
    State.seqLoop oct sps k t = (fun u : State => u.seqPlayStep oct sps)^[k] t := by
  induction k generalizing t with
  | zero => rfl
  | succ k ih =>
    have hle : sps ≤ t.seq.acc := by
      have : (0 : Rat) ≤ (k : Rat) := Nat.cast_nonneg k
      push_cast at h1
      nlinarith
    simp only [State.seqLoop, hle, if_true, Function.iterate_succ_apply]
    exact ih _ (by rw [(seqPlayStep_clock t oct sps).1]; push_cast at h1; linarith)

theorem loopFuel_bounds {acc sps : Rat} (hs : 0 < sps) (h0 : 0 ≤ acc) :
    ((loopFuel acc sps : Nat) : Rat) * sps ≤ acc ∧ acc < ((loopFuel acc sps : Nat) : Rat) * sps + sps := by
  have hf0 : 0 ≤ ⌊acc / sps⌋ := Int.floor_nonneg.mpr (div_nonneg h0 hs.le)
  have hk : ((loopFuel acc sps : Nat) : Rat) = (⌊acc / sps⌋ : Rat) := by
    unfold loopFuel
    rw [rat_floor_eq]
    exact_mod_cast Int.toNat_of_nonneg hf0
  have h1 := (le_div_iff₀ hs).mp (Int.floor_le (acc / sps))
  have h2 := (div_lt_iff₀ hs).mp (Int.lt_floor_add_one (acc / sps))
  rw [hk]
  constructor <;> linarith

theorem seqLoop_pos (oct : Int) (sps : Rat) (fuel : Nat) (s : State) :
    (State.seqLoop oct sps fuel s).seq.pos = s.seq.pos := by
  induction fuel generalizing s with
  | zero => rfl
  | succ k ih =>
    unfold State.seqLoop
    split
    · rw [ih, (seqPlayStep_clock _ _ _).2.2]
    · rfl

/-- POS advances by the block length, whatever plays (R181). -/
theorem seqAdvance_pos (s : State) (n : Nat) (oct : Int) (bpm play : Word) :
    (s.seqAdvance n oct bpm play).seq.pos = s.seq.pos + BitVec.ofNat 64 n := by
  unfold State.seqAdvance
  simp only [State.seqAdvancePos, State.withSeq_seq, (seqReleaseAll_clock _).2.2]
  split
  · rw [seqLoop_pos]
    rfl
  · rfl

/-! ### Phases 4 to 7 -/

/-- The clamped POLY_TARGET (R204). -/
theorem targetVoices_cast (p : Params) (w : Word) :
    (targetVoices p w : Int) =
      if w.toInt < 1 then 1 else if (p.maxVoices : Int) < w.toInt then (p.maxVoices : Int) else w.toInt := by
  unfold targetVoices clampInt s32
  split
  · rfl
  · split <;> omega

theorem nv_phaseResize (s : State) (w : Word) : (s.phaseResize w).nv = targetVoices s.params w := by
  unfold State.phaseResize
  split
  · exact Eq.symm ‹_›
  · simp [State.poolResize, State.nv]

/-- Phases 4 to 7 read POLY_TARGET, and latch the registers, as the note requests left them (R204, R205). -/
theorem phasesAfterRequests_eq (s : State) (n : Nat) :
    s.phasesAfterRequests n =
      (((s.phaseResize s.regs.polyTarget).phaseLatch s.regs).phaseRender n).phaseRemote n := by
  have h : (s.phaseResize s.regs.polyTarget).regs = s.regs := by rw [State.phaseResize_eq]
  unfold State.phasesAfterRequests
  simp only [h]

/-- Frames past the block are not touched by a sum of at most n frames (R161, R208). -/
theorem addFrames_tail (os xs : List Exact) (n j : Nat) (h : xs.length ≤ n) (hj : n ≤ j) :
    (addFrames os xs).getD j .zero = os.getD j .zero := by
  induction os generalizing xs n j with
  | nil => cases xs <;> rfl
  | cons o os ih => cases xs with
    | nil => rfl
    | cons x xs => cases j with
      | zero => simp at h; omega
      | succ j => simpa [addFrames] using ih xs (n - 1) j (by simp at h; omega) (by omega)

theorem mixVoices_tail (p : Params) (n j : Nat) (hj : n ≤ j) (vs : List Voice) (out : List Exact) :
    (mixVoices p n vs out).2.getD j .zero = out.getD j .zero := by
  induction vs generalizing out with
  | nil => rfl
  | cons v vs ih =>
    simp only [mixVoices]
    rw [ih]
    unfold Voice.mixInto
    split
    · exact addFrames_tail _ _ n j (by rw [Voice.render_length]) hj
    · rfl

theorem popWithheld_iff (t : Word) (q : List (List Word)) : popWithheld t q = true ↔ q.length ≤ t.toNat :=
  decide_eq_true_iff

theorem malformed_iff (p : Params) (k : Nat) : malformed p k = true ↔ k % 4 ≠ 0 ∨ 4 * p.jbBlkMax < k := by
  unfold malformed
  rw [Bool.or_eq_true, decide_eq_true_iff, decide_eq_true_iff]

theorem payloadWords_flatMap (ws : List Word) : payloadWords (ws.flatMap wordBytes) = ws := by
  induction ws with
  | nil => rfl
  | cons w ws ih => rw [List.flatMap_cons, payloadWords_wordBytes_append, ih]

/-- The bytes sent for a block are those of its words, in order (R76). -/
theorem Sample.byte_flatMap (b : List Sample) :
    (b.flatMap Sample.bytes).map OutByte.byte = (b.map Sample.word).flatMap wordBytes := by
  induction b with
  | nil => rfl
  | cons w ws ih => rw [List.flatMap_cons, List.map_append, ih, Sample.byte_bytes, List.map_cons, List.flatMap_cons]

end Sys2Proof.Machine
end

