-- ==== Sys2Proof/Tests/Slice0.lean ====
section
/-!
SUPPORT. Tests of the model and witnesses for the statements. Expected values come from spec/95_test_vectors.md (the vector
is named in each comment), from the bit layout of spec/30_encoding.md R101 and R103, or from a hand calculation by the rule
named. `witness_<Name>` shows values that meet every hypothesis of `Obligations.<Name>`.
-/

namespace Sys2Proof.Tests

open Sys2Proof.Machine

-- One theorem at a time: each `decide +kernel` waits for the kernel, and each wait would hold a thread.
set_option Elab.async false

/-! ### Small states -/

/-- Small parameters: MAX_VOICES 4, NV_RESET 2, MAX_FRAMES 16, JB_BLK_MAX 4, EPS 0. -/
def params (fs : Rat) : Params := ⟨fs, 16, 4, 2, 16, 4, 0⟩

/-- The block after reset with FS = 48000. -/
def fresh : State := State.resetOf (params 48000)

/-- `fresh` with one word on a port and that port's turn next. -/
def given (turn : Turn) (w : Command) : State :=
  (fresh.withIo (fresh.io.setPending turn.port [w])).withSched [turn]

/-- `fresh` with STATUS holding a pattern. -/
def withStatus (s : State) (x : Word) : State := s.withRegs { s.regs with status := x }

/-- The state a step gives. -/
def after (s : State) : State :=
  match step s with
  | .next t => t
  | .fault _ => s
  | .refused _ => s

/-- The state a command gives. -/
def run (i : Instr) (s : State) : State :=
  match exec i s with
  | .next t => t
  | .fault _ => s
  | .refused _ => s

/-- A callback of 4 frames just started (PH = 1). -/
def running : State := run (.callback 4) (fresh.withGrain .split)

/-! ### WellFormed: the check and the term it refuses (R111, V30-13, V30-14) -/

theorem test_wellFormed_refuses_long_callback : (Instr.callback 17).wellFormed (params 48000) = false := by decide +kernel
theorem test_wellFormed_accepts_bound : (Instr.callback 16).wellFormed (params 48000) = true := by decide +kernel

/-! ### Decode: words written out field by field, op | rsv | addr | data (R101, R103) -/

theorem test_decode_nop : decode (0x00#8 ++ 0x00#8 ++ 0x1234#16 ++ 0x00005678#32) = .ok (.nop 0x1234 0x5678) := by decide
theorem test_decode_reset : decode (0x01#8 ++ 0x00#8 ++ 0x0000#16 ++ 0x00000000#32) = .ok .reset := by decide
theorem test_decode_wr : decode (0x10#8 ++ 0x00#8 ++ 0x0011#16 ++ 0x463B8000#32) = .ok (.wr 0x0011 0x463B8000) := by decide
theorem test_decode_rd : decode (0x11#8 ++ 0x00#8 ++ 0x0012#16 ++ 0x00000000#32) = .ok (.rd 0x0012) := by decide
theorem test_decode_noteon : decode (0x12#8 ++ 0x00#8 ++ 0x0000#16 ++ 0x00000200#32) = .ok (.noteon 0x200) := by decide
theorem test_decode_noteoff : decode (0x13#8 ++ 0x00#8 ++ 0x0000#16 ++ 0x00000FFF#32) = .ok (.noteoff 0xFFF) := by decide
theorem test_decode_callback : decode (0x20#8 ++ 0x00#8 ++ 0x0000#16 ++ 0x00000BB8#32) = .ok (.callback 3000) := by decide
theorem test_decode_jbpush : decode (0x30#8 ++ 0x00#8 ++ 0x0000#16 ++ 0x00000010#32) = .ok (.jbpush 16) := by decide

/-- Illegal words V30-3 to V30-9, V30-12 and V30-15, each refused by its own name. -/
theorem test_decode_illegal :
    [0x0001000000000000#64, 0x0100000000000001#64, 0x0200000000000000#64, 0x1100000800000001#64, 0x1200000000001000#64,
      0x1300000100000001#64, 0x2000000100000004#64, 0x3001000000000008#64, 0xFF00000000000000#64].map decode =
    [.error .reservedField, .error .dataNotZero, .error .reservedOpcode, .error .dataNotZero, .error .maskTooWide,
      .error .addrNotZero, .error .addrNotZero, .error .reservedField, .error .reservedOpcode] := by decide

/-- Wrong ports, V30-10 and V30-11. -/
theorem test_decode_wrong_port :
    decodeOn .ctrl 0x2000000000000004#64 = .error .wrongPort ∧ decodeOn .audio 0x1000000100000001#64 = .error .wrongPort := by
  decide

/-- The host's numbering of bits. -/
theorem test_decodeTableWord : decodeTableWord 64 0x1100001200000000 = some (.rd 0x0012) := by decide

/-! ### Assembler lines of the programs P1, P2, P4 (R114, R115) -/

theorem test_asm_words :
    (AsmLine.wr (.name .gain) (.float (1 / 2))).word = 0x100000053F000000#64 ∧
    (AsmLine.wr (.name (.oscPhase 2)) (.float 90)).word = 0x1000002B42B40000#64 ∧
    (AsmLine.wr (.name (.oscWave 1)) (.wave .square)).word = 0x1000002400000001#64 ∧
    (AsmLine.wr (.name .bpm) (.int (-5))).word = 0x10000002FFFFFFFB#64 ∧
    (AsmLine.callback 3000).word = 0x2000000000000BB8#64 := by decide +kernel

theorem test_pseudo_clrstatus : encode Pseudo.clrstatus.expand = 0x100000000000007F#64 := by decide

/-! ### One step per command -/

/-- `withFetchWord`: the very next step runs the word. -/
theorem test_fetchWord_wr : (after (fresh.withFetchWord 64 0x100000053F000000)).regs.gain = 0x3F000000#32 := by decide +kernel

/-- A word of NET or AUDIO on its own port. -/
theorem test_fetchWord_jbpush :
    (after (fresh.withFetchWord 64 0x3000000000000008)).queue = [[0x00000000#32, 0x00000000#32]] := by decide +kernel

/-- V30-1: NOP does nothing but pass the turn. -/
theorem test_nop : after (given .ctrl 0x0000000000000000#64) = fresh := by decide +kernel

/-- V49-23. -/
theorem test_reset : after ((given .ctrl 0x0100000000000000#64).withTick 7) = fresh := by decide +kernel

/-- RESET waits while a callback runs (R217). -/
theorem test_reset_waits : (run .reset running).io.ctrlCmd = [0x0100000000000000#64] ∧ (run .reset running).ph = 1 := by
  decide +kernel

/-- V49-5, V49-6, V49-7, V49-8, V49-10. -/
theorem test_wr_types :
    (run (.wr 0x0001 3) fresh).regs.play = 0x00000001#32 ∧
    (run (.wr 0x0040 0xFFFFF805) fresh).regs.grid[0] = 0x00000805#32 ∧
    (run (.wr 0x0010 3) fresh).regs.status = 0x00000004#32 ∧
    (run (.wr 0x0011 0x7F800000) fresh).regs.fltCutoff = 0x447A0000#32 ∧
    (run (.wr 0x0011 0x7F7FFFFF) fresh).regs.fltCutoff = 0x7F7FFFFF#32 := by decide +kernel

/-- V49-12 to V49-14, V49-16, V49-19. -/
theorem test_wr_addresses :
    [0x000C#16, 0x0008#16, 0x0009#16, 0x002C#16, 0x0050#16].all
      (fun a => (run (.wr a 1) fresh).regs == { fresh.regs with status := 0x00000002#32 }) = true ∧
    (run (.wr 0x0000 0x08) (withStatus fresh 0x28)).regs.status = 0x00000020#32 := by decide +kernel

/-- V49-1, V49-2. -/
theorem test_rd :
    (run (.rd 0x0002) fresh).io.ctrlRsp = [0x00000078#32] ∧ (run (.rd 0x0012) fresh).io.ctrlRsp = [0x3F34FDF4#32] := by
  decide +kernel

/-- V49-15, and V49-22: RD does not clear. -/
theorem test_rd_unmapped :
    (run (.rd 0x000B) fresh).io.ctrlRsp = [0x00000000#32] ∧ (run (.rd 0x000B) fresh).regs.status = 0x00000002#32 ∧
    (run (.rd 0x0000) (withStatus fresh 0x28)).regs.status = 0x00000028#32 := by decide +kernel

/-- V49-17. -/
theorem test_noteon : (run (.noteon 0x200) (run (.noteon 0x001) fresh)).regs.noteOnReq = 0x00000201#32 := by decide +kernel

theorem test_noteoff : (run (.noteoff 0x200) (run (.noteoff 0x001) fresh)).regs.noteOffReq = 0x00000201#32 := by
  decide +kernel

/-- A CALLBACK 1 right after reset: one zero word, JB_UNDERRUN (the Flags section of the vectors). -/
theorem test_callback_after_reset :
    (run (.callback 1) fresh).io.audioOut = [[.bits 0x00000000#32]] ∧ (run (.callback 1) fresh).regs.status = 0x00000008#32 ∧
    (run (.callback 1) fresh).seq.pos = 1 := by decide +kernel

/-- R202, R203: a note-on and a note-off of one degree in one callback; OCTAVE 100 counts as 9 (midi 129 for degree 9). -/
theorem test_callback_requests :
    let s := run (.callback 0) (run (.noteoff 0x200) (run (.noteon 0x200) (run (.wr 0x0003 100) fresh)))
    s.voices.map (fun v => (v.note, v.released, v.freq)) = [(some 9, true, .rat 14080), (none, false, .zero)] ∧
    s.regs.noteOnReq = 0 ∧ s.regs.noteOffReq = 0 ∧ s.tick = 1 := by decide +kernel

/-- V30-13. -/
theorem test_callback_too_long : run (.callback 17) fresh = withStatus fresh 0x01 := by decide +kernel

/-- V47-4: byte order. -/
theorem test_jbpush :
    (run (.jbpush 8) (fresh.withIo { fresh.io with netRx := [0x00, 0x00, 0x80, 0x3F, 0x00, 0x00, 0x00, 0xBF] })).queue =
      [[0x3F800000#32, 0xBF000000#32]] := by decide +kernel

/-- V47-2: a malformed payload is taken and nothing stored. -/
theorem test_jbpush_malformed :
    run (.jbpush 7) (fresh.withIo { fresh.io with netRx := [1, 2, 3, 4, 5, 6, 7] }) = withStatus fresh 0x20 := by
  decide +kernel

/-! ### Units -/

/-- V41-6 and V41-8. -/
theorem test_oscillator :
    (oscRenderSample 48000 .zero #v[⟨.rat (1 / 4), .saw, 0, 0, 0⟩, ⟨.rat (1 / 4), .square, 0, 0, 0⟩,
      ⟨.rat (1 / 4), .sine, 0, 0, 0⟩]).2 = .rat (1 / 2) ∧
    (oscRenderSample 48000 (.rat 24000) (Vector.replicate 3 ⟨.zero, .square, 0, 0, 0⟩)).2 = .rat (-1) := by
  decide +kernel

/-- V42-1, V42-2, V42-3. -/
theorem test_filter_coefficients :
    filterCoeffs 48000 .low 12000 (1 / 2) = ⟨.rat (1 / 4), .rat (1 / 2), .rat (1 / 4), .zero, .zero⟩ ∧
    filterCoeffs 48000 .high 12000 (1 / 2) = ⟨.rat (1 / 4), .rat (-1 / 2), .rat (1 / 4), .zero, .zero⟩ ∧
    filterCoeffs 48000 .band 12000 (1 / 2) = ⟨.rat (1 / 2), .zero, .rat (-1 / 2), .zero, .zero⟩ := by decide +kernel

/-- V42-10, its first output and the history it leaves. -/
theorem test_filter_section :
    let r := filterProcess ⟨.rat (1 / 2), .zero, .rat (-1 / 2), .rat (-1), .rat (1 / 2)⟩ 1
      (Vector.replicate 4 StageState.zero) (.rat 1)
    r.2 = .rat (1 / 2) ∧ r.1[0] = ⟨.rat 1, .zero, .rat (1 / 2), .zero⟩ := by decide +kernel

/-- V43-1, and the tick that reaches 1 (V43-2). -/
theorem test_envelope :
    let e : Envelope := ⟨.attack, 479 / 480, 1 / 480, 1 / 100, 1 / 10, 7 / 10, 1 / 5⟩
    (Envelope.noteOn 48000 ⟨.idle, 0, 0, 1 / 100, 1 / 10, 7 / 10, 1 / 5⟩).inc = 1 / 480 ∧
    (e.tick 48000).stage = .decay ∧ (e.tick 48000).level = 1 ∧ (e.tick 48000).inc = -1 / 16000 := by decide +kernel

/-- V45-1: the least recently used voice is stolen. -/
theorem test_steal :
    let s := ((fresh.poolNoteOn 0 4).poolNoteOn 1 4).poolNoteOn 2 4
    s.voices.map (fun v => (v.note, v.lastUsed)) = [(some 2, 3), (some 1, 2)] ∧ s.regs.status = 0x00000040#32 := by
  decide +kernel

/-- L1-4.5. -/
theorem test_concert_a : noteFreq 4 9 = .rat 440 := by decide +kernel

/-- R14: degree 3 of octave 5 is irrational (440 * 2^(1/2)); six semitones more make the increment exactly 880 / FS. -/
theorem test_exact_increment :
    noteFreq 5 3 = .pow 440 (1 / 2) ∧
    (Osc.increment 48000 (noteFreq 5 3) ⟨.zero, .saw, 6, 0, 0⟩) = .rat (880 / 48000) := by decide +kernel

/-- V46-8: the step wraps; one step length later ACC is 0. -/
theorem test_sequencer_wraps :
    let s := (fresh.withSeq { fresh.seq with step := 15, acc := 5999 }).seqAdvance 1 4 120 1
    s.seq.step = 0 ∧ s.seq.acc = 0 ∧ s.seq.pos = 1 := by decide +kernel

/-- V46-3: two steps in one call share the block's start. -/
theorem test_sequencer_triggers :
    let s := (fresh.withRegs { fresh.regs with
      grid := (fresh.regs.grid.set 1 0x001).set 2 0x002 }).seqAdvance 13000 4 120 1
    s.seq.step = 2 ∧ s.seq.acc = 1000 ∧ s.seq.relp[0] = true ∧ s.seq.relt[0] = 4800 ∧ s.seq.relt[1] = 4800 ∧ s.tick = 2 := by
  decide +kernel

/-- V48-4: the remote mix. -/
theorem test_remote_mix :
    ((fresh.mixRemote [0x40400000, 0x7FC00000, 0xBF800000] 0x3F000000).out.take 4) =
      [.rat (3 / 2), .zero, .rat (-1 / 2), .zero] := by
  decide +kernel

/-- V48-5: rounding and output bytes. -/
theorem test_output_words :
    [1 / 24, -1 / 4, 1 / 8, -1 / 6].map f32rnd = [0x3D2AAAAB#32, 0xBE800000#32, 0x3E000000#32, 0xBE2AAAAB#32] ∧
    wordBytes 0x3D2AAAAB = [0xAB, 0xAA, 0x2A, 0x3D] := by decide +kernel

/-! ### Witnesses: encoding -/

theorem witness_EncodeDecodeRoundTrip : decode 0x1300000000000FFF#64 = .ok (.noteoff 0xFFF) := by decide

/-- Both directions of the row test, at the row of RD. -/
theorem witness_DecodeSelectsTableRow :
    (⟨.rd, .ctrl, 0x1100000000000000, 0xFFFF0000FFFFFFFF⟩ : TableRow) ∈ opcodeTable ∧
    decode 0x1100000800000000#64 = .ok (.rd 0x0008) ∧ (Instr.rd 0x0008).opcode = .rd := by decide

/-- One word of each port. -/
theorem witness_PortRights :
    decode 0x0000000000000000#64 = .ok (.nop 0 0) ∧ decode 0x2000000000000004#64 = .ok (.callback 4) ∧
    decode 0x3000000000000008#64 = .ok (.jbpush 8) := by decide

/-! ### Witnesses: one step -/

/-- Any turn but an AUDIO turn of a running callback takes a word. -/
theorem takesWord_ctrl (s : State) : s.takesWord .ctrl := fun h => nomatch h
theorem takesWord_net (s : State) : s.takesWord .net := fun h => nomatch h

theorem witness_StepRunsDecodedInstruction :
    let s := given .ctrl 0x100000053F000000#64
    s.sched = Turn.ctrl :: [] ∧ s.takesWord .ctrl ∧ s.io.pending Turn.ctrl.port = 0x100000053F000000#64 :: [] ∧
    decodeOn Turn.ctrl.port 0x100000053F000000#64 = .ok (.wr 0x0005 0x3F000000) :=
  ⟨rfl, takesWord_ctrl _, rfl, by decide⟩

/-- The same for a CALLBACK on AUDIO, PH = 0. -/
theorem witness_StepRunsDecodedInstruction_audio :
    let s := given .audio 0x2000000000000004#64
    s.sched = Turn.audio :: [] ∧ s.takesWord .audio ∧ s.io.pending Turn.audio.port = 0x2000000000000004#64 :: [] ∧
    decodeOn Turn.audio.port 0x2000000000000004#64 = .ok (.callback 4) :=
  ⟨rfl, fun _ => rfl, rfl, by decide⟩

/-- The first two clauses need PH not 0 and an AUDIO turn; the third PH = 0, a split grain and n at MAX_FRAMES; the last
PH not 0. -/
theorem witness_AudioTurnsRunEvents :
    (running.withSched [.audioEvent 2]).ph ≠ 0 ∧ (running.withSched [.audio]).sched = .audio :: [] ∧
    (fresh.withGrain .split).ph = 0 ∧ (16#32).toNat ≤ fresh.params.maxFrames := by decide +kernel

theorem witness_NoCommandHoldsState :
    fresh.sched = [] ∧ (fresh.withSched [.net]).sched = Turn.net :: [] ∧ (fresh.withSched [.net]).takesWord .net ∧
    (fresh.withSched [.net]).io.pending Turn.net.port = [] :=
  ⟨rfl, rfl, takesWord_net _, rfl⟩

/-- The first clause: a reserved opcode on CTRL. -/
theorem witness_IllegalWordOnlySetsIllcmd :
    let s := given .ctrl 0x0200000000000000#64
    s.sched = Turn.ctrl :: [] ∧ s.takesWord .ctrl ∧ s.io.pending Turn.ctrl.port = 0x0200000000000000#64 :: [] ∧
    s.grain = .whole ∧ decodeOn Turn.ctrl.port 0x0200000000000000#64 = .error .reservedOpcode :=
  ⟨rfl, takesWord_ctrl _, rfl, rfl, by decide⟩

/-- The second clause: V30-13, one frame over MAX_FRAMES. -/
theorem witness_IllegalWordOnlySetsIllcmd_frames :
    let s := given .audio 0x2000000000000011#64
    s.sched = Turn.audio :: [] ∧ s.takesWord .audio ∧ s.io.pending Turn.audio.port = 0x2000000000000011#64 :: [] ∧
    s.grain = .whole ∧ decodeOn Turn.audio.port 0x2000000000000011#64 = .ok (.callback 17) ∧
    s.params.maxFrames < (17#32).toNat :=
  ⟨rfl, fun _ => rfl, rfl, rfl, by decide, by decide +kernel⟩

/-! ### Witnesses: invariants -/

theorem params_WF : (params 48000).WF := by decide +kernel

theorem witness_ResetMeetsInv : (params 48000).WF := params_WF

theorem fresh_voices_WF : ∀ v ∈ fresh.voices, v.WF := fun v hv => by
  rw [List.eq_of_mem_replicate hv]
  exact Voice.reset_WF

/-- A state of the invariant with no callback in progress. -/
theorem fresh_Inv : fresh.Inv where
  params := params_WF
  regs := regs_reset_WF _
  nv := by decide +kernel
  voices := fresh_voices_WF
  acc := by decide +kernel
  queue := by decide +kernel
  blocks := by decide +kernel
  out := by decide +kernel
  progress := (if_pos (show fresh.ph = 0 from rfl)).mpr rfl
  grain := rfl

theorem running_progress : running.ph = 1 ∧ eventsIn 1 running.cb.todo ≠ [] ∧
    running.cb.todo = eventsIn 1 running.cb.todo ++ eventsAfter 1 ∧ running.cb.todo.all Event.readsOk = true ∧
    u32 running.cb.n ≤ running.params.maxFrames := by decide +kernel

/-- A state of the invariant with a callback in progress. -/
theorem running_Inv : running.Inv where
  params := params_WF
  regs := regs_reset_WF _
  nv := by decide +kernel
  voices := fresh_voices_WF
  acc := by decide +kernel
  queue := by decide +kernel
  blocks := by decide +kernel
  out := by decide +kernel
  progress := ⟨running_progress.2.1, running_progress.2.2.1, running_progress.2.2.2.1, regs_blank_WF,
    running_progress.2.2.2.2⟩
  grain := rfl

/-- Replacing the turns keeps the invariant. -/
theorem running_withSched_Inv (l : List Turn) : (running.withSched l).Inv :=
  ⟨running_Inv.1, running_Inv.2, running_Inv.3, running_Inv.4, running_Inv.5, running_Inv.6, running_Inv.7, running_Inv.8,
    running_Inv.9, running_Inv.10⟩

/-- Replacing ports and turns keeps the invariant. -/
theorem given_Inv (turn : Turn) (w : Command) : (given turn w).Inv :=
  ⟨fresh_Inv.1, fresh_Inv.2, fresh_Inv.3, fresh_Inv.4, fresh_Inv.5, fresh_Inv.6, fresh_Inv.7, fresh_Inv.8, fresh_Inv.9,
    fresh_Inv.10⟩

theorem witness_StepKeepsInv :
    (running.withSched [.audio]).Inv ∧ step (running.withSched [.audio]) = .next (running.audioEvent 0) :=
  ⟨running_withSched_Inv _, rfl⟩

theorem witness_ParamsNeverChange : step (given .ctrl 0x0000000000000000#64) = .next fresh := by rfl

theorem witness_PhaseWalk :
    (running.withSched [.audio]).Inv ∧ step (running.withSched [.audio]) = .next (running.audioEvent 0) ∧
    (running.audioEvent 0).ph = 2 :=
  ⟨running_withSched_Inv _, rfl, by decide +kernel⟩

theorem witness_SplitRunEqualsWholeRun :
    let s := given .audio 0x2000000000000004#64
    0 < s.params.fs ∧ s.ph = 0 ∧ (4#32).toNat ≤ s.params.maxFrames ∧ s.io.audioCmd = encode (.callback 4) :: [] := by
  decide +kernel

theorem witness_CallbackAlwaysFinishes : running.Inv ∧ running.ph ≠ 0 := ⟨running_Inv, by decide +kernel⟩

/-! ### Witnesses: control-port commands -/

theorem witness_NopDoesNothing :
    opField 0x0000123400005678#64 = 0x00#8 ∧ rsvField 0x0000123400005678#64 = 0 := by decide

theorem witness_ResetSetsEverything : (withStatus fresh 0x7F).ph = 0 := by decide +kernel

theorem witness_ResetWaitsForTheCallback :
    let s := (running.withIo { running.io with ctrlCmd := [0x0100000000000000#64] }).withSched [.ctrl]
    s.ph ≠ 0 ∧ s.grain = .whole ∧ s.sched = .ctrl :: [] ∧ s.io.ctrlCmd = encode .reset :: [] := by decide +kernel

/-- An address of each clause: unmapped at each edge of the map, the three read-only registers, STATUS, and the first and
last register of the map. -/
theorem witness_WrFollowsItsRule :
    [0x000B#16, 0x000F#16, 0x0014#16, 0x001C#16, 0x002C#16, 0x003F#16, 0x0050#16, 0xFFFF#16].all
      (fun a => (regAt a).isNone) = true ∧
    [0x0008#16, 0x0009#16, 0x000A#16].map regAt = [some .jbSize, some .noteOnReq, some .noteOffReq] ∧
    regAt 0x0000#16 = some .status ∧ regAt 0x004F#16 = some (.grid 15) ∧ regAt 0x002B#16 = some (.oscPhase 2) := by
  decide

/-- A register of each kind and values on both sides of each bound. -/
theorem witness_RefusedValues :
    RegName.fltType ≠ .status ∧ RegName.fltType ≠ .jbSize ∧ RegName.fltType ≠ .noteOnReq ∧
    RegName.fltType ≠ .noteOffReq ∧ RegName.fltType.type = .enum ∧ 2 < (3#32).toNat ∧ ¬ 2 < (2#32).toNat ∧
    RegName.fltQ.type = .f32 ∧ (0x7F800000#32).extractLsb' 23 8 = 255#8 ∧ ¬ (0x7F7FFFFF#32).extractLsb' 23 8 = 255#8 := by
  decide

theorem unmapped {a : Addr} (h : regAt a = none) (r : RegName) : r.addr ≠ a := fun e => by
  rw [(regAt_iff a r).mpr e] at h
  cases h

/-- An unmapped address at the edge of the map, and a read-only one. -/
theorem witness_RefusedAddresses : (∀ r : RegName, r.addr ≠ 0x000B#16) ∧ RegName.jbSize.addr = 0x0008#16 :=
  ⟨unmapped (by decide), rfl⟩

theorem witness_RdAnswers : (∀ r : RegName, r.addr ≠ 0x0050#16) ∧ (RegName.grid 15).addr = 0x004F#16 :=
  ⟨unmapped (by decide), rfl⟩

/-- A WR that is accepted, and one that is refused. -/
theorem witness_WrIsIdempotent :
    exec (.wr 0x0005 0x3F000000) fresh = .next (run (.wr 0x0005 0x3F000000) fresh) ∧
    exec (.wr 0x0008 0) fresh = .next (run (.wr 0x0008 0) fresh) := ⟨rfl, rfl⟩

theorem witness_CtrlCommandsTouchOnlyRegisters : (Instr.rd 0x0002).port = .ctrl ∧ Instr.rd 0x0002 ≠ .reset := by decide

theorem witness_OnlyAudioOwnsSound :
    let s := given .net 0x3000000000000000#64
    s.sched = Turn.net :: [] ∧ Turn.net.port ≠ .audio ∧ step s = .next (after s) := ⟨rfl, by decide, rfl⟩

/-- A step that sets a flag, and a WR STATUS that clears one. -/
theorem witness_StatusIsSticky :
    step (given .ctrl 0x0200000000000000#64) = .next (withStatus fresh 0x01) ∧
    step (withStatus (given .ctrl 0x1000000000000008#64) 0x28) = .next (withStatus fresh 0x20) := ⟨rfl, rfl⟩

theorem witness_StatusSteersNothing :
    let s := given .ctrl 0x100000053F000000#64
    s.Inv ∧ step s = .next (after s) ∧
    ∀ (rest : List Turn) (ws : List Command), s.sched = .ctrl :: rest → s.io.ctrlCmd ≠ encode (.rd 0x0000) :: ws :=
  ⟨given_Inv _ _, rfl, fun _ _ _ h => absurd (List.cons.inj h).1 (by decide)⟩

/-! ### Witnesses: jitter buffer -/

/-- Payload lengths 7 (malformed), 20 (too long), 16 (the longest block), 0; and a full queue. -/
theorem witness_JbpushFollowsItsRule :
    let s := fresh.withIo { fresh.io with netRx := List.replicate 20 0x00#8 }
    ([7#32, 20#32, 16#32, 0#32].all fun k => decide (k.toNat ≤ s.io.netRx.length)) = true ∧ s.queue.length ≤ 64 ∧
    (s.withQueue (List.replicate 64 [])).queue.length ≤ 64 ∧ 7 % 4 ≠ 0 ∧ 4 * s.params.jbBlkMax < 20 ∧
    ¬ 4 * s.params.jbBlkMax < 16 := by decide +kernel

theorem witness_JbpushWaitsForItsPayload :
    (fresh.withIo { fresh.io with netRx := [0x00, 0x00, 0x80] }).io.netRx.length < (4#32).toNat := by decide +kernel

theorem witness_LoopbackDeliversTheBlock :
    let s := fresh.withIo { fresh.io with netRx := [0x00, 0x00, 0x80, 0x3F, 0x55] }
    let block := [Sample.bits 0x3F800000#32]
    4 * block.length < 2 ^ 32 ∧ block.length ≤ s.params.jbBlkMax ∧ s.queue.length < 64 ∧
    s.io.netRx = (block.flatMap Sample.bytes).map OutByte.byte ++ [0x55] :=
  ⟨by decide, by decide +kernel, by decide +kernel, rfl⟩

/-! ### Witnesses: callback -/

/-- The longest block and the empty one. -/
theorem witness_CallbackCompletes :
    fresh.ph = 0 ∧ fresh.grain = .whole ∧ (16#32).toNat ≤ fresh.params.maxFrames ∧ (0#32).toNat ≤ fresh.params.maxFrames ∧
    fresh.out.length = fresh.params.maxFrames := by decide +kernel

/-- OCTAVE below, at both ends of, and above [-1, 9]: the clauses of its clamp. -/
theorem witness_CallbackCompletes_octave :
    ([(0xFFFFFFFE#32, -1), (0xFFFFFFFF#32, -1), (0x00000009#32, 9), (0x0000000A#32, 9)].all
      fun (x : Word × Int) => x.2 == (if x.1.toInt < -1 then -1 else if 9 < x.1.toInt then 9 else x.1.toInt)) = true := by
  decide +kernel

theorem witness_SilentAfterReset : (params 48000).WF ∧ (16#32).toNat ≤ (params 48000).maxFrames :=
  ⟨params_WF, by decide +kernel⟩

/-- A callback that grows the pool to 3 voices. -/
theorem witness_AllVoicesLatchTheSame :
    let s := run (.wr 0x0004 3) fresh
    s.ph = 0 ∧ s.grain = .whole ∧ (0#32).toNat ≤ s.params.maxFrames ∧ exec (.callback 0) s = .next (run (.callback 0) s) ∧
    (run (.callback 0) s).voices ≠ [] :=
  ⟨by decide +kernel, by decide +kernel, by decide +kernel, rfl, by decide +kernel⟩

/-- The three codes of the waveform registers, and those of FLT_TYPE. -/
theorem witness_AllVoicesLatchTheSame_codes :
    let s := run (.wr 0x0028 2) (run (.wr 0x0024 1) fresh)
    [0, 1, 2].map (fun j : Fin 3 => s.regs.oscWave[j]) = [0, 1, 2] ∧
    (List.map (fun c : Word => (run (.wr 0x0010 c) s).regs.fltType) [0, 1, 2]) = [0, 1, 2] := by decide +kernel

/-! ### Witnesses: voice pool -/

/-- Targets below, inside and above [1, MAX_VOICES]: the clauses of the clamp. -/
theorem witness_ResizeReplacesThePool :
    1 ≤ fresh.params.maxVoices ∧
    ([(0x00000000#32, 1), (0x00000001#32, 1), (0x00000004#32, 4), (0x00000005#32, 4), (0xFFFFFFFF#32, 1)].all
      fun (x : Word × Int) => x.2 == (if x.1.toInt < 1 then 1 else
        if (fresh.params.maxVoices : Int) < x.1.toInt then (fresh.params.maxVoices : Int) else x.1.toInt)) = true := by
  decide +kernel

/-- A free voice: voice 0 of a fresh pool. -/
theorem witness_NoteOnAllocates_free :
    fresh.voices[0]? = some Voice.reset ∧ Voice.reset.note = none ∧ Voice.reset.active fresh.params.eps = false := by
  decide +kernel

/-- No free voice: after two note-ons voice 0 has the smallest stamp (V45-1). -/
theorem witness_NoteOnAllocates_steal :
    let s := (fresh.poolNoteOn 0 4).poolNoteOn 1 4
    (∀ u ∈ s.voices, ¬ (u.note = none ∧ u.active s.params.eps = false)) ∧
    s.voices.map (fun u => u.lastUsed.toNat) = [1, 2] := by decide +kernel

/-- Voice 0 bound to degree 0 and sounding, voice 1 not bound. -/
theorem witness_NoteOffReleasesEveryMatch :
    let s := fresh.poolNoteOn 0 4
    s.voices.map (fun v => (v.active s.params.eps, v.note, v.env.stage)) =
      [(true, some 0, .attack), (false, none, .idle)] := by decide +kernel

/-- The middle clause, a voice active by its level alone (EPS below 0, which no legal parameters have). -/
theorem witness_NoteOffReleasesEveryMatch_level :
    ({ Voice.reset with note := some 0 } : Voice).active (-1) = true := by decide +kernel

/-! ### Witnesses: voice, envelope, filter -/

theorem witness_PhaseAfterRender :
    0 ≤ Voice.reset.osc[(0 : Fin 3)].phase.value ∧ Voice.reset.osc[(0 : Fin 3)].phase.value < 1 := Voice.reset_WF.1.1.1

theorem witness_PhasesStayInUnitInterval :
    1 ≤ 1 ∧ fresh.Inv ∧ exec (.callback 0) fresh = .next (run (.callback 0) fresh) ∧ (run (.callback 0) fresh).voices ≠ [] :=
  ⟨le_refl _, fresh_Inv, rfl, by decide +kernel⟩

/-- One envelope for each row of the table, at the boundary where the row takes its transition and one step before. -/
theorem witness_EnvelopeTransitionTable :
    let e (st : Stage) (l i : Rat) : Envelope := ⟨st, l, i, 0, 0, 1 / 2, 0⟩
    (e .attack (1 / 2) (1 / 4)).level + (e .attack (1 / 2) (1 / 4)).inc < 1 ∧
    1 ≤ (e .attack (1 / 2) (1 / 2)).level + (e .attack (1 / 2) (1 / 2)).inc ∧
    (e .decay 1 (-1 / 4)).sustainL < (e .decay 1 (-1 / 4)).level + (e .decay 1 (-1 / 4)).inc ∧
    (e .decay 1 (-1 / 2)).level + (e .decay 1 (-1 / 2)).inc ≤ (e .decay 1 (-1 / 2)).sustainL ∧
    0 < (e .release 1 (-1 / 2)).level + (e .release 1 (-1 / 2)).inc ∧
    (e .release 1 (-1)).level + (e .release 1 (-1)).inc ≤ 0 := by decide +kernel

/-- Both clauses: k below samples(R) and k at it, with samples(R) = 2. -/
theorem witness_ReleaseRampReachesZero :
    let e : Envelope := ⟨.sustain, 1 / 2, 0, 0, 0, 1 / 2, 1 / 24000⟩
    e.stage ≠ .idle ∧ 0 < e.level ∧ ((1 : Nat) : Rat) < max 1 (e.releaseT * 48000) ∧
    max 1 (e.releaseT * 48000) ≤ ((2 : Nat) : Rat) := by decide +kernel

/-- Both clauses: samples(A) = 2, from level 1/2 the second tick reaches 1. -/
theorem witness_AttackRampReachesOne :
    let e : Envelope := ⟨.sustain, 1 / 4, 0, 1 / 24000, 0, 1 / 2, 0⟩
    e.level + ((1 : Nat) : Rat) / max 1 (e.attackT * 48000) < 1 ∧
    1 ≤ e.level + ((1 + 1 : Nat) : Rat) / max 1 (e.attackT * 48000) := by decide +kernel

/-- The lowest sample rate, at which the cutoff clamp leaves one value. -/
theorem witness_FilterDcGain : (400 / 9 : Rat) ≤ 400 / 9 := le_refl _

theorem witness_FilterCoefficients : (400 / 9 : Rat) ≤ 48000 := by decide +kernel

/-- Every number of sections, with the sections in use and the ones not in use. -/
theorem witness_FilterCascade : 0 ≤ 4 ∧ 2 ≤ 4 ∧ 4 ≤ 4 ∧ 2 ≤ (2 : Fin 4).val ∧ (1 : Fin 4).val < 2 := by decide

/-- Voice.reset is dirty and inactive; the same values latched, and another cutoff. -/
theorem witness_FilterSetAndRefresh :
    Voice.reset.dirty = true ∧ Voice.reset.active 0 = false ∧ ({ Voice.reset with dirty := false } : Voice).dirty = false ∧
    (Voice.reset.ftype, Voice.reset.cutoff, Voice.reset.q, Voice.reset.nst) =
      (filterTypeOf 0, f32val 0x447A0000, f32val 0x3F34FDF4, (max 0 (min (1#32).toInt 4)).toNat) ∧
    Voice.reset.cutoff ≠ f32val 0x447A2000 := by decide +kernel

/-! ### Witnesses: sequencer, numerics, register map -/

/-- Both sides of bpm = 0. -/
theorem witness_StepLengthRule : (0 : Int) ≤ 0 ∧ (0 : Int) < 1 ∧ (0 : Rat) < 48000 := by decide +kernel

theorem witness_SequencerClock :
    0 < fresh.params.fs ∧ 0 ≤ fresh.seq.acc ∧ (1#32).getLsbD 0 = true ∧ (0xFFFFFFFE#32).getLsbD 0 = false := by
  decide +kernel

theorem witness_ContinuousPlay : 0 < fresh.params.fs ∧ fresh.seq.acc = 0 ∧ (1#32).getLsbD 0 = true := by decide +kernel

/-- A degree of the step entered, and one that is not. -/
theorem witness_StepTriggersItsDegrees :
    let s := fresh.withRegs { fresh.regs with grid := fresh.regs.grid.set 1 0x011 }
    (s.regs.grid[s.seq.step + 1]).getLsbD 4 = true ∧ (s.regs.grid[s.seq.step + 1]).getLsbD 5 = false := by decide +kernel

/-- V46-7: a release due at the very position, one not due, and a voice bound to the degree that is due. -/
theorem witness_ReleaseCheck :
    let s := (fresh.poolNoteOn 3 4).withSeq { fresh.seq with
      pos := 500, relp := (fresh.seq.relp.set 3 true).set 4 true, relt := (fresh.seq.relt.set 3 500).set 4 501 }
    (s.seq.relp[3] = true ∧ s.seq.relt[3] ≤ s.seq.pos.toNat) ∧ ¬ (s.seq.relp[4] = true ∧ s.seq.relt[4] ≤ s.seq.pos.toNat) ∧
    s.voices.map (fun v => (v.active s.params.eps, v.note)) = [(true, some 3), (false, none)] := by decide +kernel

/-- A real below the overflow bound and one at it; the smallest and the largest finite pattern, and the negative zero. -/
theorem witness_Binary32RoundTrip :
    |(0 : ℝ)| < 2 ^ 128 - 2 ^ 103 ∧ (2 : ℝ) ^ 128 - 2 ^ 103 ≤ |-(2 ^ 128 - 2 ^ 103)| ∧
    ([0x00000000#32, 0x00000001#32, 0x7F7FFFFF#32, 0x80000000#32].all fun w => w.extractLsb' 23 8 != 255#8) = true := by
  refine ⟨?_, ?_, by decide⟩
  · rw [abs_zero]
    norm_num
  · rw [abs_neg]
    exact le_abs_self _

theorem witness_RegisterMap : RegName.gain ≠ .jbSize ∧ RegName.gain.addr = RegName.gain.addr := by decide

end Sys2Proof.Tests
end

section
/-!
PROOF. No step changes an OPEN parameter (spec/00_scope.md R8): one lemma per operation that a command or an event of a
callback is made of, then one for the turn and one for the command it runs.
-/

namespace Sys2Proof.Machine

/-! ### The phases and the events of a callback -/

theorem params_requestOns (s : State) (on : Word) (oct : Int) : (s.requestOns on oct).params = s.params :=
  (onlyNotes_requestOns s on oct).fields.1

theorem params_requestOffs (s : State) (off : Word) : (s.requestOffs off).params = s.params :=
  (onlyNotes_requestOffs s off).fields.1

theorem params_phaseRequests (s : State) (oct : Int) : (s.phaseRequests oct).params = s.params := by
  rw [State.phaseRequests, params_requestOffs, params_requestOns, State.regWrite_params, State.regWrite_params]

theorem params_phaseResize (s : State) (poly : Word) : (s.phaseResize poly).params = s.params := by
  rw [State.phaseResize_eq]

theorem params_phaseRemote (s : State) (n : Nat) : (s.phaseRemote n).params = s.params := by
  rw [State.phaseRemote_eq]
  split <;> rfl

theorem params_phasesAfterRequests (s : State) (n : Nat) : (s.phasesAfterRequests n).params = s.params := by
  rw [phasesAfterRequests_eq, params_phaseRemote]
  exact params_phaseResize s _

theorem params_phaseSequencer (s : State) (n : Nat) : (s.phaseSequencer n).params = s.params :=
  (onlyNotes_seqAdvance s n _ _ _).fields.1

theorem params_phaseEmit (s : State) (n : Nat) : (s.phaseEmit n).params = s.params := rfl

theorem params_callbackWhole (s : State) (n : Nat) : (s.callbackWhole n).params = s.params := by
  unfold State.callbackWhole
  rw [State.callbackDone_params, params_phaseEmit, params_phasesAfterRequests, params_phaseRequests,
    params_phaseSequencer, State.phaseZero_eq]

theorem params_readOneOf (s : State) (group : List RegName → Event) (pick : Nat) (rs : List RegName) :
    (s.readOneOf group pick rs).params = s.params := by
  unfold State.readOneOf
  split
  · rfl
  · dsimp only
    split <;> rfl

theorem params_runEvent (s : State) (pick : Nat) (e : Event) : (s.runEvent pick e).params = s.params := by
  cases e with
  | readTiming rs | readPoly rs | readParams rs | readRemote rs => exact params_readOneOf s _ pick rs
  | seqTrigger d => exact (onlyNotes_seqTrigger s d s.cb.octave s.progressSps).fields.1
  | seqRelease =>
    rw [State.runEvent, State.seqAdvancePos, State.withSeq_params]
    exact (onlyNotes_seqReleaseAll s).fields.1
  | requestOn d => exact (onlyNotes_poolNoteOn s d s.cb.octave).fields.1
  | requestOffs => exact params_requestOffs s s.cb.seen.noteOffReq
  | resize => exact params_phaseResize s s.cb.seen.polyTarget
  | seqAdvance | seqStep | pop =>
    simp only [State.runEvent]
    split <;> rfl
  | zero | drainOn | drainOff | latch | render | underrun | mix | emit => rfl

theorem params_settlePh (s : State) : s.settlePh.params = s.params := by
  unfold State.settlePh
  split <;> rfl

theorem params_audioEvent (s : State) (pick : Nat) : (s.audioEvent pick).params = s.params := by
  unfold State.audioEvent
  split
  · rfl
  · rw [params_settlePh, params_runEvent, State.withCb_params]

/-! ### A turn, and the command it runs -/

/-- The state a turn has come to before any instruction runs. -/
def Fetched.state : Fetched → State
  | .over s => s
  | .run _ s => s

theorem params_takeCommand (p : Port) (g : Grain) (s : State) : (takeCommand p g s).state.params = s.params := by
  unfold takeCommand
  split
  · rfl
  · dsimp only
    split <;> rfl

theorem params_audioTurn (g : Grain) (pick : Nat) (s : State) : (audioTurn g pick s).state.params = s.params := by
  unfold audioTurn
  split
  · exact params_takeCommand .audio g s
  · exact params_audioEvent s pick

theorem params_serveTurn (t : Turn) (s : State) : (serveTurn t s).state.params = s.params := by
  cases t with
  | ctrl => exact params_takeCommand .ctrl .whole s
  | net => exact params_takeCommand .net .whole s
  | audio => exact params_audioTurn .whole 0 s
  | audioEvent pick => exact params_audioTurn .split pick s

theorem params_fetch (s : State) : (fetch s).state.params = s.params := by
  unfold fetch
  split
  · rfl
  · exact params_serveTurn _ _

theorem params_writeReg (s : State) (name : RegName) (data : Word) : (s.writeReg name data).params = s.params := by
  unfold State.writeReg
  split
  · rfl
  · split <;> rfl

theorem params_jbPush (s : State) (blk : List Word) : (s.jbPush blk).params = s.params := by
  unfold State.jbPush
  dsimp only
  split <;> rfl

theorem params_execCallback {n : Word} {s t : State} (h : execCallback n s = .next t) : t.params = s.params := by
  unfold execCallback at h
  split at h
  · cases h; rfl
  · split at h
    · split at h
      · cases h; exact params_callbackWhole s _
      · cases h; rfl
    · cases h; rfl

theorem params_execJbpush {nbytes : Word} {s t : State} (h : execJbpush nbytes s = .next t) : t.params = s.params := by
  unfold execJbpush at h
  dsimp only at h
  split at h
  · cases h; rfl
  · split at h
    · cases h; rfl
    · cases h; exact params_jbPush _ _

/-- No command changes an OPEN parameter, RESET included: it takes the reset values of the same parameters (R217). -/
theorem params_exec {i : Instr} {s t : State} (h : exec i s = .next t) : t.params = s.params := by
  cases i with
  | nop addr data => cases h; rfl
  | reset =>
    simp only [exec, execReset] at h
    split at h <;> cases h <;> rfl
  | wr addr data =>
    simp only [exec, execWr] at h
    split at h
    · cases h; rfl
    · split at h <;> cases h
      · rfl
      · exact params_writeReg s _ data
  | rd addr =>
    simp only [exec, execRd] at h
    split at h <;> cases h <;> rfl
  | noteon mask => cases h; rfl
  | noteoff mask => cases h; rfl
  | callback n => exact params_execCallback h
  | jbpush nbytes => exact params_execJbpush h

/-- Settles O14: neither taking the turn nor running its command changes them. -/
theorem paramsNeverChange : Obligations.ParamsNeverChange := by
  intro s t h
  have hfetch := params_fetch s
  unfold step at h
  split at h
  · rename_i u hu
    rw [hu] at hfetch
    cases h
    exact hfetch
  · rename_i i u hu
    rw [hu] at hfetch
    exact (params_exec h).trans hfetch

end Sys2Proof.Machine
end

section
/-!
PROOF. Binary32 over the reals (spec/00_scope.md R12, R13). A value of the format is a whole number below 2^24 times a power
of two from 2^-149 on, and the rounded magnitude is the nearest whole number of quanta, the quantum being that of the real's
own binade (`QuantaOf`). Below that binade no value of the format comes nearer; from it on every value is a whole number of
quanta. So the rounded pattern is nearest (`nearest_of_quantaOf`), and the round trip follows, since a non-zero value has one
pattern (`word_eq_of_f32val_eq`).
-/

namespace Sys2Proof.Machine

/-! ### Signs -/

/-- The factor a sign bit stands for. -/
def signFactor (neg : Bool) : ℝ := if neg then -1 else 1

theorem signFactor_injective {a b : Bool} (h : signFactor a = signFactor b) : a = b := by
  have h1 : (-1 : ℝ) ≠ 1 := by norm_num
  cases a <;> cases b
  · rfl
  · exact absurd h h1.symm
  · exact absurd h h1
  · rfl

theorem signFactor_mul_self (neg : Bool) (x : ℝ) : signFactor neg * (signFactor neg * x) = x := by
  cases neg <;> simp [signFactor]

theorem abs_signFactor (neg : Bool) : |signFactor neg| = 1 := by
  cases neg <;> simp [signFactor]

theorem signFactor_mul_abs (x : ℝ) : signFactor (decide (x < 0)) * |x| = x := by
  by_cases h : x < 0
  · simp [signFactor, h, abs_of_neg h]
  · simp [signFactor, h, abs_of_nonneg (not_lt.mp h)]

/-- The distance of two numbers is kept when both take the sign of the first. -/
theorem abs_sub_eq_abs_sub_signFactor_mul (x v : ℝ) : |x - v| = |(|x|) - signFactor (decide (x < 0)) * v| := by
  set σ := signFactor (decide (x < 0)) with hσ
  calc |x - v|
    _ = |σ * (|x|) - σ * (σ * v)| := by rw [hσ, signFactor_mul_abs, signFactor_mul_self]
    _ = |(|x|) - σ * v| := by rw [← mul_sub, abs_mul, abs_signFactor, one_mul]

/-! ### What a finite pattern denotes (R12) -/

/-- The significand of a pattern, in units of its scale. -/
def f32Sig (w : Word) : ℕ := if f32Exp w = 0 then f32Frac w else 2 ^ 23 + f32Frac w

/-- The exponent of a pattern, the same for the subnormals and the lowest normals. -/
def f32Scale (w : Word) : ℤ := if f32Exp w = 0 then -126 else (f32Exp w : ℤ) - 127

theorem f32Exp_ne_iff (w : Word) : f32Exp w ≠ 255 ↔ w.extractLsb' 23 8 ≠ 255#8 := by
  rw [f32Exp, ne_eq, ne_eq, ← BitVec.toNat_inj]
  rfl

theorem f32Sig_lt (w : Word) : f32Sig w < 2 ^ 24 := by
  have hF : f32Frac w < 2 ^ 23 := by rw [(f32_fields w).2.1]; omega
  unfold f32Sig
  split <;> omega

/-- Above the lowest scale the leading bit is there. -/
theorem f32Scale_or_f32Sig (w : Word) : f32Scale w = -126 ∨ -126 < f32Scale w ∧ 2 ^ 23 ≤ f32Sig w := by
  unfold f32Scale f32Sig
  split <;> omega

theorem f32Scale_le {w : Word} (h : f32Exp w ≠ 255) : f32Scale w ≤ 127 := by
  have hE : f32Exp w < 256 := by rw [(f32_fields w).1]; omega
  unfold f32Scale
  split <;> omega

theorem f32val_sig {w : Word} (h : f32Exp w ≠ 255) :
    ((f32val w : Rat) : ℝ) = signFactor (w.getLsbD 31) * (f32Sig w * (2 : ℝ) ^ (f32Scale w - 23)) := by
  obtain ⟨m, e, -, -, -, rfl, rfl, hv⟩ := f32val_eq w h
  exact hv

theorem abs_f32val {w : Word} (h : f32Exp w ≠ 255) :
    |((f32val w : Rat) : ℝ)| = f32Sig w * (2 : ℝ) ^ (f32Scale w - 23) := by
  rw [f32val_sig h, abs_mul, abs_signFactor, one_mul, abs_of_nonneg (by positivity)]

/-- A finite pattern lies below the overflow bound (R13). -/
theorem abs_f32val_lt {w : Word} (h : f32Exp w ≠ 255) : |((f32val w : Rat) : ℝ)| < 2 ^ 128 - 2 ^ 103 := by
  have hm : (f32Sig w : ℝ) ≤ 2 ^ 24 - 1 := by
    have := f32Sig_lt w
    rw [le_sub_iff_add_le]
    exact_mod_cast this
  have he : (2 : ℝ) ^ (f32Scale w - 23) ≤ 2 ^ (104 : ℤ) :=
    zpow_le_zpow_right₀ one_le_two (by have := f32Scale_le h; omega)
  calc |((f32val w : Rat) : ℝ)|
    _ = f32Sig w * (2 : ℝ) ^ (f32Scale w - 23) := abs_f32val h
    _ ≤ (2 ^ 24 - 1) * 2 ^ (104 : ℤ) := by gcongr
    _ < 2 ^ 128 - 2 ^ 103 := by norm_num

/-- Significand, scale and sign make the pattern. -/
theorem word_eq_of_fields {w w' : Word} (hm : f32Sig w = f32Sig w') (he : f32Scale w = f32Scale w')
    (hs : w.getLsbD 31 = w'.getLsbD 31) : w = w' := by
  obtain ⟨hE, hF, hN⟩ := f32_fields w
  obtain ⟨hE', hF', hN'⟩ := f32_fields w'
  rw [hs, hN'] at hN
  have hw := w.isLt
  have hw' := w'.isLt
  apply BitVec.eq_of_toNat_eq
  unfold f32Sig at hm
  unfold f32Scale at he
  split at hm <;> split at hm <;> omega

/-- A significand with its leading bit at a higher scale is the greater. -/
theorem sig_mul_scale_lt {m m' : ℕ} {e e' : ℤ} (hm : m < 2 ^ 24) (hm' : 2 ^ 23 ≤ m') (he : e < e') :
    (m : ℝ) * 2 ^ (e - 23) < m' * 2 ^ (e' - 23) :=
  calc (m : ℝ) * 2 ^ (e - 23)
    _ < 2 ^ 24 * 2 ^ (e - 23) := by gcongr; exact_mod_cast hm
    _ = 2 ^ 23 * 2 ^ (e + 1 - 23) := by rw [← two_zpow_shift, ← two_zpow_shift]; congr 1; push_cast; ring
    _ ≤ m' * 2 ^ (e' - 23) := by
      gcongr
      · exact_mod_cast hm'
      · exact one_le_two
      · omega

/-- Two patterns of one magnitude have one scale. -/
theorem f32Scale_not_lt {w w' : Word}
    (h : (f32Sig w : ℝ) * 2 ^ (f32Scale w - 23) = f32Sig w' * 2 ^ (f32Scale w' - 23)) : ¬ f32Scale w < f32Scale w' := by
  intro hlt
  rcases f32Scale_or_f32Sig w' with h' | ⟨-, hm'⟩
  · rcases f32Scale_or_f32Sig w with h0 | ⟨h0, -⟩ <;> omega
  · exact absurd h (sig_mul_scale_lt (f32Sig_lt w) hm' hlt).ne

/-- A non-zero value has one pattern (R12). -/
theorem word_eq_of_f32val_eq {w w' : Word} (h : f32Exp w ≠ 255) (h' : f32Exp w' ≠ 255) (hv : f32val w = f32val w')
    (h0 : f32val w ≠ 0) : w = w' := by
  have habs : (f32Sig w : ℝ) * 2 ^ (f32Scale w - 23) = f32Sig w' * 2 ^ (f32Scale w' - 23) := by
    rw [← abs_f32val h, ← abs_f32val h', hv]
  have he : f32Scale w = f32Scale w' :=
    le_antisymm (not_lt.mp (f32Scale_not_lt habs.symm)) (not_lt.mp (f32Scale_not_lt habs))
  have hq : (2 : ℝ) ^ (f32Scale w' - 23) ≠ 0 := by positivity
  have hm : f32Sig w = f32Sig w' := by
    rw [he] at habs
    exact_mod_cast mul_right_cancel₀ hq habs
  refine word_eq_of_fields hm he ?_
  have hmag : (f32Sig w' : ℝ) * 2 ^ (f32Scale w' - 23) ≠ 0 := by
    rw [← habs, ← abs_f32val h]
    exact abs_ne_zero.mpr (by exact_mod_cast h0)
  have hv' : ((f32val w : Rat) : ℝ) = f32val w' := by rw [hv]
  rw [f32val_sig h, f32val_sig h', habs] at hv'
  exact signFactor_injective (mul_right_cancel₀ hmag hv')

/-- The value 0 has two patterns (R12). -/
theorem f32val_eq_zero {w : Word} (h : f32Exp w ≠ 255) (h0 : f32val w = 0) : w = 0x00000000#32 ∨ w = 0x80000000#32 := by
  have hq : (2 : ℝ) ^ (f32Scale w - 23) ≠ 0 := by positivity
  have hm : f32Sig w = 0 := by
    have := abs_f32val h
    rw [h0, Rat.cast_zero, abs_zero, eq_comm, mul_eq_zero, or_iff_left hq] at this
    exact_mod_cast this
  have hz : f32Sig 0x00000000#32 = 0 ∧ f32Scale 0x00000000#32 = -126 := by decide
  have hn : f32Sig 0x80000000#32 = 0 ∧ f32Scale 0x80000000#32 = -126 := by decide
  have he : f32Scale w = -126 := by
    rcases f32Scale_or_f32Sig w with h | ⟨-, h⟩ <;> omega
  cases hs : w.getLsbD 31 with
  | false => exact .inl (word_eq_of_fields (hm.trans hz.1.symm) (he.trans hz.2.symm) hs)
  | true => exact .inr (word_eq_of_fields (hm.trans hn.1.symm) (he.trans hn.2.symm) hs)

/-! ### The values of the format -/

/-- A value of the format, its exponent not bounded above: a whole number below 2^24 in magnitude times a power of two from
2^-149 on. -/
def OnGrid (v : ℝ) : Prop := ∃ k e : ℤ, |k| < 2 ^ 24 ∧ -126 ≤ e ∧ v = k * (2 : ℝ) ^ (e - 23)

theorem OnGrid.neg {v : ℝ} (h : OnGrid v) : OnGrid (-v) := by
  obtain ⟨k, e, hk, he, rfl⟩ := h
  exact ⟨-k, e, by rwa [abs_neg], he, by push_cast; ring⟩

theorem OnGrid.signFactor_mul (neg : Bool) {v : ℝ} (h : OnGrid v) : OnGrid (signFactor neg * v) := by
  cases neg with
  | false => simpa [signFactor] using h
  | true => simpa [signFactor] using h.neg

theorem f32val_onGrid {w : Word} (h : f32Exp w ≠ 255) : OnGrid (f32val w) := by
  have he : -126 ≤ f32Scale w := by rcases f32Scale_or_f32Sig w with h | h <;> omega
  have hm : |(f32Sig w : ℤ)| < 2 ^ 24 := by
    rw [abs_of_nonneg (Int.natCast_nonneg _)]
    exact_mod_cast f32Sig_lt w
  have hpos : OnGrid (f32Sig w * (2 : ℝ) ^ (f32Scale w - 23)) := ⟨f32Sig w, f32Scale w, hm, he, by push_cast; rfl⟩
  rw [f32val_sig h]
  exact hpos.signFactor_mul _

/-! ### The quanta of a positive real (R13) -/

/-- The quantum of the binade with biased exponent `E`, the lowest binade being that of the subnormals too. -/
noncomputable def quantum (E : ℕ) : ℝ := (2 : ℝ) ^ ((E : ℤ) - 126 - 23)

theorem quantum_pos (E : ℕ) : 0 < quantum E := by
  unfold quantum
  positivity

/-- `a` lies in the binade `E`, and `N` is its number of quanta rounded to the nearest whole number, ties to even. -/
structure QuantaOf (a : ℝ) (E N : ℕ) : Prop where
  binade : E = 0 ∨ 2 ^ 23 * quantum E ≤ a
  rounded : N = roundHalfEvenReal (a / quantum E)

theorem two_pow_mul_quantum (n E : ℕ) : 2 ^ n * quantum E = (2 : ℝ) ^ ((E : ℤ) + n - 126 - 23) := by
  rw [quantum, ← two_zpow_shift]
  congr 1
  ring

/-- The binade of a positive real below the overflow bound: its exponent is the greater of -126 and the real's own. -/
theorem exists_binade {a : ℝ} (ha : 0 < a) (hb : a < 2 ^ 128 - 2 ^ 103) :
    ∃ E : ℕ, max (-126) (Int.log 2 a) = (E : ℤ) - 126 ∧ E ≤ 253 ∧ (E = 0 ∨ 2 ^ 23 * quantum E ≤ a) ∧
      a < 2 ^ 24 * quantum E := by
  obtain ⟨E, hE⟩ : ∃ E : ℕ, max (-126) (Int.log 2 a) = (E : ℤ) - 126 :=
    ⟨(max (-126) (Int.log 2 a) + 126).toNat, by omega⟩
  refine ⟨E, hE, ?_, ?_, ?_⟩
  · have : Int.log 2 a < 128 := (Int.lt_zpow_iff_log_lt one_lt_two ha).mp (lt_trans hb (by norm_num))
    omega
  · refine or_iff_not_imp_left.mpr fun h0 => ?_
    rw [two_pow_mul_quantum]
    exact (Int.zpow_le_iff_le_log one_lt_two ha).mpr (by omega)
  · rw [two_pow_mul_quantum]
    exact (Int.lt_zpow_iff_log_lt one_lt_two ha).mpr (by omega)

/-- Every positive real below the overflow bound has its quanta; they fit the fields of a finite pattern, and its magnitude
bits are made of them. -/
theorem exists_quantaOf {a : ℝ} (ha : 0 < a) (hb : a < 2 ^ 128 - 2 ^ 103) :
    ∃ E N : ℕ, QuantaOf a E N ∧ f32MagnitudeReal a = E * 2 ^ 23 + N ∧
      E ≤ 253 ∧ N ≤ 2 ^ 24 ∧ (E = 0 ∨ 2 ^ 23 ≤ N) ∧ (E = 253 → N < 2 ^ 24) := by
  obtain ⟨E, hE, hE253, hlow, hhigh⟩ := exists_binade ha hb
  have hq := quantum_pos E
  set y := a / quantum E with hy
  have hy0 : 0 ≤ y := by positivity
  have hy24 : y < 2 ^ 24 := (div_lt_iff₀ hq).mpr hhigh
  have hfloor : ⌊y⌋ < 2 ^ 24 := Int.floor_lt.mpr (by exact_mod_cast hy24)
  have hround := (roundHalfEvenReal_spec hy0).2
  refine ⟨E, roundHalfEvenReal y, ⟨hlow, rfl⟩, ?_, hE253, ?_, ?_, ?_⟩
  · simp only [f32MagnitudeReal, hE]
    rw [show ((E : ℤ) - 126 + 126).toNat = E by omega]
    rfl
  · omega
  · refine hlow.imp_right fun h => ?_
    have h23 : (2 ^ 23 : ℤ) ≤ ⌊y⌋ := Int.le_floor.mpr (by exact_mod_cast (le_div_iff₀ hq).mpr h)
    omega
  · rintro rfl
    rcases hround with h | ⟨h, hhalf⟩
    · omega
    · have hlt : y < 2 ^ 24 - 1 / 2 := by
        rw [hy, div_lt_iff₀ hq]
        refine lt_of_lt_of_eq hb ?_
        norm_num [quantum]
      have : ⌊y⌋ < 2 ^ 24 - 1 := by
        have : (⌊y⌋ : ℝ) < ((2 ^ 24 - 1 : ℤ) : ℝ) := by push_cast; linarith
        exact_mod_cast this
      omega

/-! ### The nearest value (R13) -/

/-- Among the whole numbers of quanta the rounded one is nearest, and even in a tie. -/
theorem nearest_multiple {a : ℝ} (ha : 0 ≤ a) {E N : ℕ} (h : QuantaOf a E N) (k : ℤ) :
    |a - N * quantum E| ≤ |a - k * quantum E| ∧
      (|a - N * quantum E| = |a - k * quantum E| → (k : ℝ) * quantum E = N * quantum E ∨ N % 2 = 0) := by
  have hq := quantum_pos E
  have scale : ∀ z : ℝ, |a - z * quantum E| = |a / quantum E - z| * quantum E := by
    intro z
    conv_rhs => rw [← abs_of_pos hq, ← abs_mul, sub_mul, abs_of_pos hq, div_mul_cancel₀ _ hq.ne']
  have hspec := (roundHalfEvenReal_spec (div_nonneg ha hq.le)).1 k
  rw [← h.rounded] at hspec
  rw [scale, scale]
  refine ⟨mul_le_mul_of_nonneg_right hspec.1 hq.le, fun heq => ?_⟩
  exact (hspec.2 (mul_right_cancel₀ hq.ne' heq)).imp_left fun hk => by rw [hk]

/-- From the binade on, a value of the format is a whole number of quanta. -/
theorem multiple_of_binade_le {E : ℕ} {k e : ℤ} (he : (E : ℤ) - 126 ≤ e) :
    ∃ j : ℤ, (k : ℝ) * 2 ^ (e - 23) = j * quantum E := by
  obtain ⟨n, hn⟩ := Int.eq_ofNat_of_zero_le (sub_nonneg.mpr he)
  refine ⟨k * 2 ^ n, ?_⟩
  rw [show e - 23 = (n : ℤ) + ((E : ℤ) - 126 - 23) by omega, two_zpow_shift, quantum]
  push_cast
  ring

/-- Below the binade, a value of the format is below its least number. -/
theorem lt_of_lt_binade {E : ℕ} {k e : ℤ} (hk : |k| < 2 ^ 24) (he : e < (E : ℤ) - 126) :
    (k : ℝ) * 2 ^ (e - 23) < 2 ^ 23 * quantum E :=
  calc (k : ℝ) * 2 ^ (e - 23)
    _ ≤ (k.natAbs : ℝ) * 2 ^ (e - 23) := by
      gcongr
      rw [Nat.cast_natAbs]
      exact_mod_cast le_abs_self k
    _ < ((2 ^ 23 : ℕ) : ℝ) * 2 ^ ((E : ℤ) - 126 - 23) :=
      sig_mul_scale_lt (by rw [Int.abs_eq_natAbs] at hk; omega) le_rfl he
    _ = 2 ^ 23 * quantum E := by norm_num [quantum]

/-- The rounded magnitude is nearest among all values of the format, and of two nearest the one with an even significand. -/
theorem nearest_of_quantaOf {a : ℝ} (ha : 0 ≤ a) {E N : ℕ} (h : QuantaOf a E N) {v : ℝ} (hv : OnGrid v) :
    |a - N * quantum E| ≤ |a - v| ∧ (|a - N * quantum E| = |a - v| → v = N * quantum E ∨ N % 2 = 0) := by
  obtain ⟨k, e, hk, he, rfl⟩ := hv
  rcases le_or_gt ((E : ℤ) - 126) e with hle | hlt
  · obtain ⟨j, hj⟩ := multiple_of_binade_le (k := k) hle
    rw [hj]
    exact nearest_multiple ha h j
  · have hbin : 2 ^ 23 * quantum E ≤ a := h.binade.resolve_left (by omega)
    have hval := lt_of_lt_binade hk hlt
    have hnear := (nearest_multiple ha h (2 ^ 23)).1
    rw [Int.cast_pow, Int.cast_ofNat] at hnear
    have hcloser : |a - 2 ^ 23 * quantum E| < |a - k * 2 ^ (e - 23)| := by
      rw [abs_of_nonneg (by linarith), abs_of_pos (by linarith)]
      linarith
    exact ⟨(hnear.trans_lt hcloser).le, fun heq => absurd heq (hnear.trans_lt hcloser).ne⟩

/-! ### Rounding a real (R13) -/

theorem f32rndReal_zero : f32rndReal 0 = 0x00000000#32 := by
  rw [f32rndReal, if_pos rfl]

theorem f32val_zero : f32val 0x00000000#32 = 0 := by decide +kernel

/-- At or above the overflow bound stands the infinity of the sign. -/
theorem f32rndReal_overflow {x : ℝ} (h : (2 : ℝ) ^ 128 - 2 ^ 103 ≤ |x|) :
    f32rndReal x = if x < 0 then 0xFF800000#32 else 0x7F800000#32 := by
  have hx : x ≠ 0 := by
    rintro rfl
    norm_num at h
  unfold f32rndReal
  rw [if_neg hx]
  simp only [h, if_true]
  split <;> rfl

/-- Below it stands the pattern of the sign and the rounded magnitude. -/
theorem f32rndReal_of_lt {x : ℝ} (hx : x ≠ 0) (h : |x| < 2 ^ 128 - 2 ^ 103) :
    f32rndReal x = (if decide (x < 0) then 0x80000000#32 else 0#32) ||| BitVec.ofNat 32 (f32MagnitudeReal |x|) := by
  unfold f32rndReal
  rw [if_neg hx]
  simp only [not_le.mpr h, if_false, decide_eq_true_eq]

/-- What rounding a non-zero real below the overflow bound gives: a finite pattern of the real's sign, whose magnitude is the
rounded number of quanta and whose bit 0 is that number's parity. -/
theorem f32rndReal_quanta {x : ℝ} (hx : x ≠ 0) (h : |x| < 2 ^ 128 - 2 ^ 103) :
    ∃ E N : ℕ, QuantaOf |x| E N ∧ f32Exp (f32rndReal x) ≠ 255 ∧
      ((f32val (f32rndReal x) : Rat) : ℝ) = signFactor (decide (x < 0)) * (N * quantum E) ∧
      ((f32rndReal x).getLsbD 0 = true ↔ N % 2 = 1) := by
  obtain ⟨E, N, hquanta, hmag, hE, hN, hlo, hhi⟩ := exists_quantaOf (abs_pos.mpr hx) h
  obtain ⟨hfin, hval, hbit⟩ := f32val_bits (decide (x < 0)) E N hE hN hlo hhi
  rw [← hmag, ← f32rndReal_of_lt hx h] at hfin hval hbit
  exact ⟨E, N, hquanta, hfin, hval, hbit⟩

theorem f32rndReal_finite {x : ℝ} (h : |x| < 2 ^ 128 - 2 ^ 103) : f32Exp (f32rndReal x) ≠ 255 := by
  by_cases hx : x = 0
  · rw [hx, f32rndReal_zero]
    decide
  · obtain ⟨E, N, -, hfin, -, -⟩ := f32rndReal_quanta hx h
    exact hfin

/-- Rounding gives the nearest value of the format, and of two nearest the one whose pattern has bit 0 clear. -/
theorem f32rndReal_nearest {x : ℝ} (h : |x| < 2 ^ 128 - 2 ^ 103) {v : ℝ} (hv : OnGrid v) :
    |x - f32val (f32rndReal x)| ≤ |x - v| ∧
      (|x - f32val (f32rndReal x)| = |x - v| → v = f32val (f32rndReal x) ∨ (f32rndReal x).getLsbD 0 = false) := by
  by_cases hx : x = 0
  · subst hx
    rw [f32rndReal_zero, f32val_zero, Rat.cast_zero, sub_zero, abs_zero]
    exact ⟨abs_nonneg _, fun _ => .inr (by decide)⟩
  · obtain ⟨E, N, hquanta, -, hval, hbit⟩ := f32rndReal_quanta hx h
    have hmag : signFactor (decide (x < 0)) * f32val (f32rndReal x) = N * quantum E := by rw [hval, signFactor_mul_self]
    obtain ⟨hle, htie⟩ := nearest_of_quantaOf (abs_nonneg x) hquanta (hv.signFactor_mul (decide (x < 0)))
    rw [abs_sub_eq_abs_sub_signFactor_mul x v, abs_sub_eq_abs_sub_signFactor_mul x (f32val _), hmag]
    refine ⟨hle, fun heq => (htie heq).imp (fun e => ?_) fun heven => ?_⟩
    · rw [hval, ← e, signFactor_mul_self]
    · rw [← Bool.not_eq_true, hbit]
      omega

/-- Decoding and rounding gives a finite pattern back, but for the negative zero. -/
theorem f32rndReal_f32val {w : Word} (h : f32Exp w ≠ 255) :
    f32rndReal (f32val w) = if w = 0x80000000#32 then 0x00000000#32 else w := by
  by_cases h0 : f32val w = 0
  · rw [h0, Rat.cast_zero, f32rndReal_zero]
    rcases f32val_eq_zero h h0 with rfl | rfl <;> rfl
  · have hb := abs_f32val_lt h
    have hle := (f32rndReal_nearest hb (f32val_onGrid h)).1
    rw [sub_self, abs_zero, abs_nonpos_iff, sub_eq_zero, Rat.cast_inj] at hle
    have hne : w ≠ 0x80000000#32 := by
      rintro rfl
      exact h0 (by decide +kernel)
    rw [if_neg hne]
    exact (word_eq_of_f32val_eq h (f32rndReal_finite hb) hle h0).symm

/-- Settles O58, part by part: finite and nearest, overflow, zero, round trip. -/
theorem binary32RoundTrip : Obligations.Binary32RoundTrip := by
  refine ⟨fun x hx => ⟨(f32Exp_ne_iff _).mp (f32rndReal_finite hx), fun w hw => ?_⟩, fun x hx => f32rndReal_overflow hx,
    f32rndReal_zero, fun w hw => f32rndReal_f32val ((f32Exp_ne_iff w).mpr hw)⟩
  have hnear := f32rndReal_nearest hx (f32val_onGrid ((f32Exp_ne_iff w).mpr hw))
  exact ⟨hnear.1, fun heq => (hnear.2 heq).imp_left fun e => by exact_mod_cast e⟩

end Sys2Proof.Machine
end

section
/-!
PROOF. What one step can be, said once (`StepCase`; spec/20_memory.md R78, R81): no turn, an event of the callback in
progress, an empty port, an illegal word, or a command. Every step is of one case (`StepCase.of_step`), and each case is a
step (`StepCase.step_eq`). Before it, a word that decodes is the word of its command (R101, R103).
-/

namespace Sys2Proof.Machine

/-! ### The word of a command -/

theorem guard_eq_ok {α : Type} [DecidableEq α] {x y : α} {e : DecodeError} {k : Except DecodeError Instr} {i : Instr}
    (h : (if x ≠ y then .error e else k) = .ok i) : x = y ∧ k = .ok i := by
  split at h
  · cases h
  · exact ⟨not_not.mp ‹_›, h⟩

theorem setWidth_maskField {w : Command} (h : maskHighField w = 0) : (maskField w).setWidth 32 = dataField w := by
  rw [maskField_eq]
  exact setWidth_mask_of_high_zero _ (maskHighField_eq w ▸ h)

/-- A word that decodes is the word of its command: no field is left free but NOP's. -/
theorem encode_of_decode {w : Command} {i : Instr} (h : decode w = .ok i) : encode i = w := by
  obtain ⟨hrsv, h⟩ := guard_eq_ok h
  cases hop : opcodeOf (opField w) with
  | none => rw [hop] at h; cases h
  | some op =>
    have hword := formatC_of_fields w op (opcodeOf_eq_some hop) hrsv
    rw [hop] at h
    cases op with
    | nop | wr => cases h; exact hword
    | reset =>
      obtain ⟨haddr, h⟩ := guard_eq_ok h
      obtain ⟨hdata, h⟩ := guard_eq_ok h
      cases h
      rwa [haddr, hdata] at hword
    | rd =>
      obtain ⟨hdata, h⟩ := guard_eq_ok h
      cases h
      rwa [hdata] at hword
    | noteon | noteoff =>
      obtain ⟨haddr, h⟩ := guard_eq_ok h
      obtain ⟨hmask, h⟩ := guard_eq_ok h
      cases h
      rwa [haddr, ← setWidth_maskField hmask] at hword
    | callback | jbpush =>
      obtain ⟨haddr, h⟩ := guard_eq_ok h
      cases h
      rwa [haddr] at hword

/-- A port brings only its own commands (R112). -/
theorem decodeOn_eq_ok {p : Port} {w : Command} {i : Instr} (h : decodeOn p w = .ok i) : i.port = p ∧ encode i = w := by
  unfold decodeOn at h
  cases hd : decode w with
  | error e => rw [hd] at h; cases h
  | ok j =>
    rw [hd] at h
    dsimp only at h
    split at h
    · cases h; exact ⟨‹_›, encode_of_decode hd⟩
    · cases h

/-! ### The cases of a step -/

/-- Which of the pending reads of an unordered group the turn makes (R81). -/
def Turn.pick : Turn → Nat
  | .audioEvent pick => pick
  | _ => 0

/-- The turn is taken off the schedule, and `ws` is what still waits on its port. -/
def State.taken (s : State) (turn : Turn) (rest : List Turn) (ws : List Command) : State :=
  (s.withSched rest).withIo (s.io.setPending turn.port ws)

/-- What a step from `s` to `t` is. -/
inductive StepCase (s t : State) : Prop where
  /-- No turn is given (R252). -/
  | idle (hsched : s.sched = []) (ht : t = s)
  /-- The next event of the callback in progress (R80). -/
  | event (turn : Turn) (rest : List Turn) (hsched : s.sched = turn :: rest) (hport : turn.port = .audio) (hph : s.ph ≠ 0)
      (ht : t = (s.withSched rest).audioEvent turn.pick)
  /-- Nothing waits on the port. -/
  | empty (turn : Turn) (rest : List Turn) (hsched : s.sched = turn :: rest) (htakes : s.takesWord turn)
      (hpend : s.io.pending turn.port = []) (ht : t = s.withSched rest)
  /-- The port brings an illegal word (R113). -/
  | illegal (turn : Turn) (rest : List Turn) (w : Command) (ws : List Command) (e : DecodeError)
      (hsched : s.sched = turn :: rest) (htakes : s.takesWord turn) (hpend : s.io.pending turn.port = w :: ws)
      (hdec : decodeOn turn.port w = .error e) (ht : t = (s.taken turn rest ws).flag .illcmd)
  /-- The port brings a command (R78). -/
  | command (turn : Turn) (rest : List Turn) (w : Command) (ws : List Command) (i : Instr)
      (hsched : s.sched = turn :: rest) (htakes : s.takesWord turn) (hpend : s.io.pending turn.port = w :: ws)
      (hdec : decodeOn turn.port w = .ok i) (ht : exec i ((s.taken turn rest ws).withGrain turn.grain) = .next t)

theorem serveTurn_takes {turn : Turn} {s : State} (h : s.takesWord turn) :
    serveTurn turn s = takeCommand turn.port turn.grain s := by
  cases turn with
  | ctrl | net => rfl
  | audio | audioEvent pick => exact if_pos (h rfl)

theorem serveTurn_event {turn : Turn} {s : State} (hport : turn.port = .audio) (hph : s.ph ≠ 0) :
    serveTurn turn s = .over (s.audioEvent turn.pick) := by
  cases turn with
  | ctrl | net => cases hport
  | audio | audioEvent pick => exact if_neg hph

theorem fetch_cons {s : State} {turn : Turn} {rest : List Turn} (h : s.sched = turn :: rest) :
    fetch s = serveTurn turn (s.withSched rest) := by
  unfold fetch
  rw [h]

theorem fetch_takes {s : State} {turn : Turn} {rest : List Turn} (h : s.sched = turn :: rest) (ht : s.takesWord turn) :
    fetch s = takeCommand turn.port turn.grain (s.withSched rest) :=
  (fetch_cons h).trans (serveTurn_takes ht)

theorem takeCommand_nil {p : Port} {g : Grain} {s : State} (h : s.io.pending p = []) : takeCommand p g s = .over s := by
  unfold takeCommand
  rw [h]

theorem takeCommand_error {p : Port} {g : Grain} {s : State} {w : Command} {ws : List Command} {e : DecodeError}
    (h : s.io.pending p = w :: ws) (hd : decodeOn p w = .error e) :
    takeCommand p g s = .over ((s.withIo (s.io.setPending p ws)).flag .illcmd) := by
  unfold takeCommand
  rw [h]
  dsimp only
  rw [hd]
  rfl

theorem takeCommand_ok {p : Port} {g : Grain} {s : State} {w : Command} {ws : List Command} {i : Instr}
    (h : s.io.pending p = w :: ws) (hd : decodeOn p w = .ok i) :
    takeCommand p g s = .run i ((s.withIo (s.io.setPending p ws)).withGrain g) := by
  unfold takeCommand
  rw [h]
  dsimp only
  rw [hd]

theorem step_of_over {s t : State} (h : fetch s = .over t) : step s = .next t := by
  unfold step
  rw [h]

theorem step_of_run {s u : State} {i : Instr} (h : fetch s = .run i u) : step s = exec i u := by
  unfold step
  rw [h]

theorem StepCase.step_eq {s t : State} (h : StepCase s t) : step s = .next t := by
  cases h with
  | idle hsched ht =>
    subst ht
    refine step_of_over ?_
    unfold fetch
    rw [hsched]
  | event turn rest hsched hport hph ht =>
    subst ht
    exact step_of_over ((fetch_cons hsched).trans (serveTurn_event hport hph))
  | empty turn rest hsched htakes hpend ht =>
    subst ht
    exact step_of_over ((fetch_takes hsched htakes).trans (takeCommand_nil hpend))
  | illegal turn rest w ws e hsched htakes hpend hdec ht =>
    subst ht
    exact step_of_over ((fetch_takes hsched htakes).trans (takeCommand_error hpend hdec))
  | command turn rest w ws i hsched htakes hpend hdec ht =>
    exact (step_of_run ((fetch_takes hsched htakes).trans (takeCommand_ok hpend hdec))).trans ht

/-- A step is of one of the cases, for a turn that serves AUDIO while a callback runs has an event, and any other takes what
its port brings. -/
theorem StepCase.of_step {s t : State} (h : step s = .next t) : StepCase s t := by
  have next_inj : ∀ {u : State}, step s = .next u → t = u := fun hu => Host.Outcome.next.inj (h.symm.trans hu)
  cases hsched : s.sched with
  | nil => exact .idle hsched (next_inj (StepCase.idle hsched rfl).step_eq)
  | cons turn rest =>
    by_cases htakes : s.takesWord turn
    · cases hpend : s.io.pending turn.port with
      | nil => exact .empty turn rest hsched htakes hpend (next_inj (StepCase.empty turn rest hsched htakes hpend rfl).step_eq)
      | cons w ws =>
        cases hdec : decodeOn turn.port w with
        | error e =>
          exact .illegal turn rest w ws e hsched htakes hpend hdec
            (next_inj (StepCase.illegal turn rest w ws e hsched htakes hpend hdec rfl).step_eq)
        | ok i =>
          refine .command turn rest w ws i hsched htakes hpend hdec ?_
          exact (step_of_run ((fetch_takes hsched htakes).trans (takeCommand_ok hpend hdec))).symm.trans h
    · obtain ⟨hport, hph⟩ := Classical.not_imp.mp htakes
      exact .event turn rest hsched hport hph (next_inj (StepCase.event turn rest hsched hport hph rfl).step_eq)

end Sys2Proof.Machine
end

section
/-!
PROOF. The state after reset (spec/10_state.md R62, 49_host_commands.md R217): it meets the invariant, and RESET gives it.
-/

namespace Sys2Proof.Machine

theorem State.Inv.resetOf {p : Params} (h : p.WF) : (State.resetOf p).Inv where
  params := h
  regs := regs_reset_WF p
  nv := by
    obtain ⟨-, hnv, hmax, -⟩ := h
    simpa [State.nv, State.resetOf] using And.intro hnv hmax
  voices v hv := by
    rw [List.eq_of_mem_replicate hv]
    exact Voice.reset_WF
  acc := le_rfl
  queue := Nat.zero_le _
  blocks b hb := absurd hb List.not_mem_nil
  out := List.length_replicate
  progress := (if_pos (show (State.resetOf p).ph = 0 from rfl)).mpr rfl
  grain := rfl

theorem Config.params_WF : Config.params.WF := by
  norm_num [Params.WF, Config.params]

/-- Settles O13. -/
theorem resetMeetsInv : Obligations.ResetMeetsInv :=
  ⟨fun _ hp => State.Inv.resetOf hp, State.Inv.resetOf Config.params_WF⟩

theorem execReset_idle {s : State} (h : s.ph = 0) : exec .reset s = .next s.resetCommand := if_neg (not_not.mpr h)

/-- What each register reads as after RESET: the reset column of the table under R35. JB_SIZE is that of the empty queue. -/
theorem regRead_resetCommand (s : State) (r : RegName) : s.resetCommand.regRead r = (RegFile.reset s.params).read r := by
  cases r <;> rfl

/-- Settles O19. -/
theorem resetSetsEverything : Obligations.ResetSetsEverything := by
  intro s hph
  refine ⟨s.resetCommand, execReset_idle hph, rfl, fun r => ?_, rfl, rfl, rfl, rfl, rfl,
    fun d => ⟨Vector.getElem_replicate d.isLt, Vector.getElem_replicate d.isLt⟩, rfl, rfl, rfl⟩
  rw [regRead_resetCommand]
  cases r with
  | oscWave j | oscOct j | oscDetune j | oscPhase j => exact Vector.getElem_replicate j.isLt
  | grid k => exact Vector.getElem_replicate k.isLt
  | _ => rfl

end Sys2Proof.Machine
end

section
/-!
PROOF. The register map (spec/10_state.md R35, 20_memory.md R71), and that a write changes one register alone.
-/

namespace Sys2Proof.Machine

/-- The mapped addresses (R71). -/
abbrev Mapped (n : Nat) : Prop :=
  n ≤ 0x000A ∨ (0x0010 ≤ n ∧ n ≤ 0x0013) ∨ (0x0018 ≤ n ∧ n ≤ 0x001B) ∨ (0x0020 ≤ n ∧ n ≤ 0x002B) ∨
  (0x0040 ≤ n ∧ n ≤ 0x004F)

/-- An address of a bank of registers is not wrapped round: the banks end at 0x50. -/
theorem toNat_bankAddr {n : Nat} (h : n < 0x50) : (BitVec.ofNat 16 n).toNat = n := by
  rw [BitVec.toNat_ofNat]
  omega

theorem mapped_addr (r : RegName) : Mapped r.addr.toNat := by
  cases r with
  | oscWave j | oscOct j | oscDetune j | oscPhase j => rw [RegName.addr, toNat_bankAddr (by omega)]; unfold Mapped; omega
  | grid k => rw [RegName.addr, toNat_bankAddr (by omega)]; unfold Mapped; omega
  | _ => decide

/-- A register answers at each mapped address. -/
theorem regAt_isSome_of_mapped : ∀ n : Fin 0x50, Mapped n.val → (regAt (BitVec.ofNat 16 n.val)).isSome = true := by decide

/-- The mapped addresses are those of the registers. -/
theorem exists_addr_eq_iff (a : Addr) : (∃ r : RegName, r.addr = a) ↔ Mapped a.toNat := by
  constructor
  · rintro ⟨r, rfl⟩
    exact mapped_addr r
  · intro h
    have hsome := regAt_isSome_of_mapped ⟨a.toNat, by unfold Mapped at h; omega⟩ h
    rw [BitVec.ofNat_toNat, BitVec.setWidth_eq] at hsome
    obtain ⟨r, hr⟩ := Option.isSome_iff_exists.mp hsome
    exact ⟨r, regAt_eq_some hr⟩

theorem addr_injective {r r' : RegName} (h : r.addr = r'.addr) : r = r' :=
  Option.some.inj ((regAt_addr r).symm.trans ((congrArg regAt h).trans (regAt_addr r')))

theorem regRead_of_ne_jbSize (s : State) {r : RegName} (h : r ≠ .jbSize) : s.regRead r = s.regs.read r := by
  cases r with
  | jbSize => exact absurd rfl h
  | _ => rfl

theorem stores_regWrite (s : State) {r : RegName} (w : Word) (h : r ≠ .jbSize) : s.Stores r w (s.regWrite r w) := by
  refine ⟨?_, fun r' hne => ?_, rfl⟩
  · rw [regRead_of_ne_jbSize _ h]
    exact read_write_same s.regs r w h
  · by_cases hj : r' = .jbSize
    · rw [hj]; rfl
    · rw [regRead_of_ne_jbSize _ hj, regRead_of_ne_jbSize _ hj]
      exact read_write_other s.regs w hne

/-- Settles O59: the addresses one by one, then the map as a whole through `regAt`, then the write. -/
theorem registerMap : Obligations.RegisterMap := by
  refine ⟨fun r => ?_, exists_addr_eq_iff, fun _ _ => addr_injective, fun s _ w h => stores_regWrite s w h⟩
  cases r with
  | oscWave j | oscOct j | oscDetune j | oscPhase j => exact toNat_bankAddr (by omega)
  | grid k => exact toNat_bankAddr (by omega)
  | _ => rfl

end Sys2Proof.Machine
end

section
/-!
PROOF. The commands of CTRL and NET: but for a RESET that executes, they change registers, the queue and the ports only
(`exec_shared`), and keep the invariant.
-/

namespace Sys2Proof.Machine

/-- `t` differs from `s` only in what the ports share: registers, the queue, and what stands on the ports. -/
def OnlyShared (s t : State) : Prop := t = ((s.withRegs t.regs).withQueue t.queue).withIo t.io

theorem OnlyShared.refl (s : State) : OnlyShared s s := rfl

theorem OnlyShared.trans {s t u : State} (h1 : OnlyShared s t) (h2 : OnlyShared t u) : OnlyShared s u := by
  unfold OnlyShared at h1 h2 ⊢
  rw [h2, h1]
  rfl

/-- What `OnlyShared` leaves: everything AUDIO owns (R20), the parameters and the grain. -/
theorem OnlyShared.fields {s t : State} (h : OnlyShared s t) : t.params = s.params ∧ t.voices = s.voices ∧ t.tick = s.tick ∧
    t.seq = s.seq ∧ t.out = s.out ∧ t.ph = s.ph ∧ t.cb = s.cb ∧ t.grain = s.grain := by
  unfold OnlyShared at h
  rw [h]
  exact ⟨rfl, rfl, rfl, rfl, rfl, rfl, rfl, rfl⟩

theorem onlyShared_withRegs (s : State) (x : RegFile) : OnlyShared s (s.withRegs x) := rfl

theorem onlyShared_withIo (s : State) (x : Channels) : OnlyShared s (s.withIo x) := rfl

theorem onlyShared_flag (s : State) (f : StatusFlag) : OnlyShared s (s.flag f) := rfl

theorem onlyShared_writeReg (s : State) (name : RegName) (data : Word) : OnlyShared s (s.writeReg name data) := by
  unfold State.writeReg
  split
  · rfl
  · split <;> rfl

theorem onlyShared_jbPush (s : State) (blk : List Word) : OnlyShared s (s.jbPush blk) := by
  unfold State.jbPush
  dsimp only
  split <;> rfl

theorem execReset_busy {s : State} (h : s.ph ≠ 0) : exec .reset s = .next (s.hold .reset) := if_pos h

/-- What WR can do: a refused address, or the write (R218, R222). -/
theorem execWr_cases {addr : Addr} {data : Word} {s t : State} (h : exec (.wr addr data) s = .next t) :
    t = s.flag .badaddr ∨ ∃ name, t = s.writeReg name data := by
  simp only [exec, execWr] at h
  split at h
  · cases h; exact .inl rfl
  · split at h <;> cases h
    · exact .inl rfl
    · exact .inr ⟨_, rfl⟩

/-- What RD can do: an unmapped address, or the answer (R219, R222). -/
theorem execRd_cases {addr : Addr} {s t : State} (h : exec (.rd addr) s = .next t) :
    t = (s.flag .badaddr).respond 0 ∨ ∃ name, t = s.respond (s.regRead name) := by
  simp only [exec, execRd] at h
  split at h <;> cases h
  · exact .inl rfl
  · exact .inr ⟨_, rfl⟩

/-- What JBPUSH can do: it waits, or takes its payload and discards or stores it (R190). -/
theorem execJbpush_cases {nbytes : Word} {s t : State} (h : exec (.jbpush nbytes) s = .next t) :
    t = s.hold (.jbpush nbytes) ∨ t = (s.takeRx (u32 nbytes)).flag .jbMalformed ∨
    malformed s.params (u32 nbytes) = false ∧
      t = (s.takeRx (u32 nbytes)).jbPush (payloadWords (s.io.netRx.take (u32 nbytes))) := by
  simp only [exec, execJbpush] at h
  split at h
  · cases h; exact .inl rfl
  · split at h <;> cases h
    · exact .inr (.inl rfl)
    · exact .inr (.inr ⟨Bool.eq_false_iff.mpr ‹_›, rfl⟩)

/-- The frame of the commands of CTRL and NET (R20): all but a RESET with no callback running leave what AUDIO owns. -/
theorem exec_shared {i : Instr} {s t : State} (hport : i.port ≠ .audio) (h : exec i s = .next t) :
    OnlyShared s t ∨ i = .reset ∧ s.ph = 0 ∧ t = s.resetCommand := by
  cases i with
  | callback n => exact absurd rfl hport
  | reset =>
    by_cases hph : s.ph = 0
    · rw [execReset_idle hph] at h
      cases h
      exact .inr ⟨rfl, hph, rfl⟩
    · rw [execReset_busy hph] at h
      cases h
      exact .inl (onlyShared_withIo s _)
  | nop addr data => cases h; exact .inl (.refl s)
  | noteon mask | noteoff mask => cases h; exact .inl (onlyShared_withRegs s _)
  | wr addr data =>
    rcases execWr_cases h with rfl | ⟨name, rfl⟩
    · exact .inl (onlyShared_flag s _)
    · exact .inl (onlyShared_writeReg s name data)
  | rd addr =>
    rcases execRd_cases h with rfl | ⟨name, rfl⟩
    · exact .inl ((onlyShared_flag s _).trans (onlyShared_withIo _ _))
    · exact .inl (onlyShared_withIo s _)
  | jbpush nbytes =>
    rcases execJbpush_cases h with rfl | rfl | ⟨-, rfl⟩
    · exact .inl (onlyShared_withIo s _)
    · exact .inl ((onlyShared_withIo s _).trans (onlyShared_flag _ _))
    · exact .inl ((onlyShared_withIo s _).trans (onlyShared_jbPush _ _))

/-- Settles O28: the frame of the command, and a RESET is its one word. -/
theorem onlyAudioOwnsSound : Obligations.OnlyAudioOwnsSound := by
  intro s t turn rest hsched hport h
  have turn_eq : ∀ {turn' rest'}, s.sched = turn' :: rest' → turn' = turn := fun h' =>
    (List.cons.inj (h'.symm.trans hsched)).1
  cases StepCase.of_step h with
  | idle hnil ht => rw [hnil] at hsched; cases hsched
  | event turn' rest' hcons haudio hph ht => exact absurd (turn_eq hcons ▸ haudio) hport
  | empty turn' rest' hcons htakes hpend ht => subst ht; exact .inl ⟨rfl, rfl, rfl, rfl, rfl, rfl⟩
  | illegal turn' rest' w ws e hcons htakes hpend hdec ht => subst ht; exact .inl ⟨rfl, rfl, rfl, rfl, rfl, rfl⟩
  | command turn' rest' w ws i hcons htakes hpend hdec hexec =>
    obtain rfl := turn_eq hcons
    obtain ⟨hown, hword⟩ := decodeOn_eq_ok hdec
    rcases exec_shared (hown ▸ hport) hexec with hshared | ⟨rfl, hph, -⟩
    · obtain ⟨-, hvoices, htick, hseq, hout, hph, hcb, -⟩ := hshared.fields
      exact .inl ⟨hvoices, htick, hseq, hout, hph, hcb⟩
    · have hctrl : turn'.port = .ctrl := hown.symm
      rw [hctrl] at hpend
      exact .inr ⟨hctrl, hph, ws, hword ▸ hpend⟩

end Sys2Proof.Machine
end

section
/-!
PROOF. The invariant of the block is kept by every step, and PH walks through the phases (spec/10_state.md R22, R29 to R36).
Both come from what one event of a callback leaves (`runEvent_ok`): the events still to do are some of its own phase and then
all of the later phases, so PH stays or goes on to the next phase (`settlePh_ok`).
-/

namespace Sys2Proof.Machine

/-! ### Ports, turns and flags -/

theorem State.Inv.withSched {s : State} (h : s.Inv) (x : List Turn) : (s.withSched x).Inv :=
  (h.core.withSched x).inv h.progress h.grain

theorem State.Inv.withIo {s : State} (h : s.Inv) (x : Channels) : (s.withIo x).Inv :=
  (h.core.withIo x).inv h.progress h.grain

theorem State.Inv.flag {s : State} (h : s.Inv) (f : StatusFlag) : (s.flag f).Inv :=
  (h.core.flag f).inv h.progress h.grain

theorem State.Inv.taken {s : State} (h : s.Inv) (turn : Turn) (rest : List Turn) (ws : List Command) :
    (s.taken turn rest ws).Inv := (h.withSched rest).withIo _

/-! ### The commands of CTRL and NET -/

theorem type_ne_flags {name : RegName} (h : name ≠ .status) : name.type ≠ .flags := by
  cases name with
  | status => exact absurd rfl h
  | _ => exact RegType.noConfusion

theorem State.CoreInv.regWrite {s : State} (h : s.CoreInv) {r : RegName} {w : Word} (hw : r.type.admits w = true) :
    (s.regWrite r w).CoreInv := h.withRegs (RegFile.WF.write h.pool.regs hw)

/-- Every value WR stores is one the register may hold (R218, R221). -/
theorem State.CoreInv.writeReg {s : State} (h : s.CoreInv) (name : RegName) (data : Word) :
    (s.writeReg name data).CoreInv := by
  unfold State.writeReg
  split
  · exact h.regWrite (r := .status) (clearFlags_admits (h.pool.regs .status))
  · split
    · exact h.flag _
    · exact h.regWrite (storedPattern_admits (type_ne_flags ‹_›) ‹_›)

theorem admits_request (mask : BitVec 12) (w : Word) (hw : RegType.mask12.admits w = true) :
    RegType.mask12.admits (w ||| mask.setWidth 32) = true := by
  rw [admits_mask12] at hw ⊢
  refine or_toNat_lt 12 hw ?_
  rw [BitVec.toNat_setWidth]
  omega

theorem State.CoreInv.withQueue {s : State} (h : s.CoreInv) {q : List (List Word)} (hlen : q.length ≤ Config.jbCap)
    (hblocks : ∀ b ∈ q, b.length ≤ s.params.jbBlkMax) : (s.withQueue q).CoreInv :=
  ⟨⟨h.pool.params, h.pool.regs, h.pool.nv, h.pool.voices⟩, h.acc, hlen, hblocks, h.out⟩

/-- A push keeps the cap by evicting, and each block is an old one or the one pushed (R191). -/
theorem State.CoreInv.jbPush {s : State} (h : s.CoreInv) {blk : List Word} (hblk : blk.length ≤ s.params.jbBlkMax) :
    (s.jbPush blk).CoreInv := by
  have hlen := (jbPush_queue_length s blk).2
  have hblocks : ∀ b ∈ (s.jbPush blk).queue, b.length ≤ s.params.jbBlkMax := by
    intro b hb
    rcases jbPush_queue_mem s blk hb with hold | rfl
    · exact h.blocks b hold
    · exact hblk
  unfold State.jbPush at hlen hblocks ⊢
  dsimp only at hlen hblocks ⊢
  split
  · rw [if_pos ‹_›] at hlen hblocks
    exact h.withQueue hlen hblocks
  · rw [if_neg ‹_›] at hlen hblocks
    exact (h.withQueue hlen hblocks).flag _

/-- A payload that is not malformed is no longer than the largest block (R190). -/
theorem payloadWords_take_length {p : Params} {nbytes : Nat} (h : malformed p nbytes = false) (bs : List Byte) :
    (payloadWords (bs.take nbytes)).length ≤ p.jbBlkMax := by
  have hlen : nbytes ≤ 4 * p.jbBlkMax := by
    have := mt (malformed_iff p nbytes).mpr (Bool.eq_false_iff.mp h)
    omega
  rw [payloadWords_length, List.length_take]
  omega

theorem State.CoreInv.exec {i : Instr} {s t : State} (h : s.CoreInv) (hport : i.port ≠ .audio) (hreset : i ≠ .reset)
    (hexec : exec i s = .next t) : t.CoreInv := by
  cases i with
  | callback n => exact absurd rfl hport
  | reset => exact absurd rfl hreset
  | nop addr data => cases hexec; exact h
  | noteon mask => cases hexec; exact h.regWrite (admits_request mask _ (h.pool.regs .noteOnReq))
  | noteoff mask => cases hexec; exact h.regWrite (admits_request mask _ (h.pool.regs .noteOffReq))
  | wr addr data =>
    rcases execWr_cases hexec with rfl | ⟨name, rfl⟩
    · exact h.flag _
    · exact h.writeReg name data
  | rd addr =>
    rcases execRd_cases hexec with rfl | ⟨name, rfl⟩
    · exact (h.flag _).withIo _
    · exact h.withIo _
  | jbpush nbytes =>
    rcases execJbpush_cases hexec with rfl | rfl | ⟨hwell, rfl⟩
    · exact h.withIo _
    · exact (h.withIo _).flag _
    · exact (h.withIo _).jbPush (payloadWords_take_length hwell _)

/-- `q` comes after `ph` in the walk of PH: the same phase, the next one, or 0 after 8 (R22). -/
def PhaseMove (ph q : Fin 9) : Prop := q = ph ∨ q.val = ph.val + 1 ∨ (ph.val = 8 ∧ q = 0)

/-- A command of CTRL or NET keeps the invariant and PH. -/
theorem State.Inv.exec_shared {i : Instr} {s t : State} (h : s.Inv) (hport : i.port ≠ .audio) (hexec : exec i s = .next t) :
    t.Inv ∧ t.ph = s.ph := by
  by_cases hreset : i = .reset
  · subst hreset
    by_cases hph : s.ph = 0
    · rw [execReset_idle hph] at hexec
      cases hexec
      exact ⟨((State.Inv.resetOf h.params).withIo _).withSched _, hph.symm⟩
    · rw [execReset_busy hph] at hexec
      cases hexec
      exact ⟨h.withIo _, rfl⟩
  · rcases Machine.exec_shared hport hexec with hshared | ⟨heq, -, -⟩
    · obtain ⟨hparams, -, -, -, -, hph, hcb, hgrain⟩ := hshared.fields
      refine ⟨(h.core.exec hport hreset hexec).inv ?_ (hgrain.trans h.grain), hph⟩
      rw [hparams, hph, hcb]
      exact h.progress
    · exact absurd heq hreset

/-! ### CALLBACK -/

/-- A callback just started has all its events to do, those of phase 1 first (R200). -/
theorem callbackEvents_split : eventsIn 1 callbackEvents ≠ [] ∧
    callbackEvents = eventsIn 1 callbackEvents ++ eventsAfter 1 ∧ callbackEvents.all Event.readsOk = true := by decide

/-- What CALLBACK can do with none in progress: run whole, start, or be an illegal word (R111, R200). -/
theorem execCallback_cases {n : Word} {s t : State} (hph : s.ph = 0) (h : exec (.callback n) s = .next t) :
    t = s.callbackWhole (u32 n) ∨ (u32 n ≤ s.params.maxFrames ∧ t = s.callbackBegin n) ∨
    t = (s.withGrain .whole).flag .illcmd := by
  simp only [exec, execCallback, hph, ne_eq, not_true_eq_false, if_false] at h
  split at h
  · split at h <;> cases h
    · exact .inl rfl
    · exact .inr (.inl ⟨of_decide_eq_true ‹_›, rfl⟩)
  · cases h; exact .inr (.inr rfl)

/-- A CALLBACK taken with none in progress ends with PH 0, or starts with PH 1, whatever the grain of its turn. -/
theorem State.Inv.exec_callback {n : Word} {s t : State} {g : Grain} (h : s.Inv) (hph : s.ph = 0)
    (hexec : exec (.callback n) (s.withGrain g) = .next t) : t.Inv ∧ PhaseMove s.ph t.ph := by
  have hcore : (s.withGrain g).CoreInv := h.core.withGrain g
  rcases execCallback_cases (s := s.withGrain g) hph hexec with rfl | ⟨hn, rfl⟩ | rfl
  · exact ⟨hcore.callbackWhole _, .inl hph.symm⟩
  · obtain ⟨hnow, hsplit, hreads⟩ := callbackEvents_split
    have hprog : progressOk s.params 1 ⟨n, callbackEvents, RegFile.blank, []⟩ := ⟨hnow, hsplit, hreads, regs_blank_WF, hn⟩
    exact ⟨State.CoreInv.inv (((hcore.withPh 1).withCb _).withGrain .whole) hprog rfl, .inr (.inl (hph ▸ rfl))⟩
  · exact ⟨State.CoreInv.inv ((hcore.withGrain .whole).flag _) h.progress rfl, .inl rfl⟩

/-! ### One event of the callback in progress -/

theorem settlePh_nil {s : State} (h : s.cb.todo = []) : s.settlePh = s.callbackDone := by
  unfold State.settlePh
  rw [h]

theorem settlePh_head {s : State} {ph : Fin 9} (h : s.cb.todo.head?.map Event.phase = some ph) :
    s.settlePh = s.withPh ph := by
  unfold State.settlePh
  cases htodo : s.cb.todo with
  | nil => rw [htodo] at h; cases h
  | cons e rest => rw [htodo] at h; cases h; rfl

theorem State.CoreInv.callbackDone {s : State} (h : s.CoreInv) : s.callbackDone.Inv :=
  State.CoreInv.inv (((h.withPh 0).withCb _).withGrain .whole) ((if_pos rfl).mpr rfl) rfl

theorem eventsIn_of_forall {ph : Fin 9} {es : List Event} (h : ∀ e ∈ es, e.phase = ph) : eventsIn ph es = es :=
  List.filter_eq_self.mpr fun e he => decide_eq_true (h e he)

/-- Some events of phase `ph` to do, then all of the later phases: the callback in progress agrees with PH = `ph`. -/
theorem progressOk_of_events {p : Params} {ph : Fin 9} {c : Progress} {es : List Event} (hph : ph ≠ 0) (hne : es ≠ [])
    (hes : ∀ e ∈ es, e.phase = ph) (htodo : c.todo = es ++ eventsAfter ph.val) (hreads : es.all Event.readsOk = true)
    (hseen : c.seen.WF) (hn : u32 c.n ≤ p.maxFrames) : progressOk p ph c := by
  have hin : eventsIn ph c.todo = es := by
    rw [htodo, eventsIn_append, eventsIn_eventsAfter, List.append_nil, eventsIn_of_forall hes]
  refine (if_neg hph).mpr ⟨hin ▸ hne, hin.symm ▸ htodo, ?_, hseen, hn⟩
  rw [htodo, List.all_append, hreads, eventsAfter_reads, Bool.and_self]

/-- What an event of phase `ph` leaves to do is of that phase, or starts with the next one: PH stays, goes on by one, or
after phase 8 to 0. -/
theorem settlePh_ok {s : State} {p : Params} {ph : Fin 9} {n : Word} {es : List Event} (hph : ph ≠ 0)
    (hok : EventOk p ph n (es ++ eventsAfter ph.val) s) (hes : ∀ e ∈ es, e.phase = ph) (hreads : es.all Event.readsOk = true)
    (hn : u32 n ≤ p.maxFrames) : s.settlePh.Inv ∧ PhaseMove ph s.settlePh.ph := by
  obtain ⟨hcore, hseen, hpar, hcount, ⟨new, htodo, hnew, hnewReads⟩, hgrain⟩ := hok
  have hframes : u32 s.cb.n ≤ s.params.maxFrames := by rw [hcount, hpar]; exact hn
  have hall : ∀ e ∈ new ++ es, e.phase = ph := by
    intro e he
    rcases List.mem_append.mp he with hmem | hmem
    · exact of_decide_eq_true (List.all_eq_true.mp hnew e hmem)
    · exact hes e hmem
  have hallReads : (new ++ es).all Event.readsOk = true := by rw [List.all_append, hnewReads, hreads, Bool.and_self]
  rw [← List.append_assoc] at htodo
  cases hrem : new ++ es with
  | cons e tail =>
    have hhead : s.cb.todo.head?.map Event.phase = some ph := by
      rw [htodo, hrem]
      exact congrArg some (hall e (hrem ▸ List.mem_cons_self))
    rw [settlePh_head hhead]
    refine ⟨(hcore.withPh ph).inv ?_ hgrain, .inl rfl⟩
    exact progressOk_of_events hph (hrem ▸ List.cons_ne_nil e tail) hall htodo hallReads hseen hframes
  | nil =>
    rw [hrem, List.nil_append] at htodo
    rcases eventsAfter_split ph with ⟨hlast, hnone⟩ | ⟨q, hq, hne, hsplit, hhead⟩
    · rw [settlePh_nil (htodo.trans hnone)]
      exact ⟨hcore.callbackDone, .inr (.inr ⟨hlast, rfl⟩)⟩
    · rw [settlePh_head (htodo ▸ hhead)]
      refine ⟨(hcore.withPh q).inv ?_ hgrain, .inr (.inl hq)⟩
      have hq0 : q ≠ 0 := by rintro rfl; simp at hq
      refine (if_neg hq0).mpr ?_
      rw [State.withPh_cb, htodo]
      exact ⟨hne, hsplit, eventsAfter_reads _, hseen, hframes⟩

/-- The events to do while a callback runs: the next one, others of its phase, and all of the later phases. -/
theorem State.Inv.todo_cons {s : State} (h : s.Inv) (hph : s.ph ≠ 0) :
    ∃ e es, s.cb.todo = e :: (es ++ eventsAfter s.ph.val) ∧ (∀ e' ∈ e :: es, e'.phase = s.ph) ∧
      (e :: es).all Event.readsOk = true ∧ s.cb.seen.WF ∧ u32 s.cb.n ≤ s.params.maxFrames := by
  obtain ⟨hne, hsplit, hreads, hseen, hn⟩ := (if_neg hph).mp h.progress
  obtain ⟨e, es, hin⟩ := List.exists_cons_of_ne_nil hne
  refine ⟨e, es, by rw [hsplit, hin]; rfl, fun e' he' => ?_, ?_, hseen, hn⟩
  · exact of_decide_eq_true (List.mem_filter.mp (hin ▸ he' : e' ∈ eventsIn s.ph s.cb.todo)).2
  · rw [hsplit, List.all_append, Bool.and_eq_true, hin] at hreads
    exact hreads.1

theorem audioEvent_cons {s : State} {e : Event} {rest : List Event} (h : s.cb.todo = e :: rest) (pick : Nat) :
    s.audioEvent pick = ((s.withCb { s.cb with todo := rest }).runEvent pick e).settlePh := by
  unfold State.audioEvent
  rw [h]

theorem State.Inv.audioEvent {s : State} (h : s.Inv) (hph : s.ph ≠ 0) (pick : Nat) :
    (s.audioEvent pick).Inv ∧ PhaseMove s.ph (s.audioEvent pick).ph := by
  obtain ⟨e, es, htodo, hphase, hreads, hseen, hn⟩ := h.todo_cons hph
  obtain ⟨he, hes⟩ := List.forall_mem_cons.mp hphase
  obtain ⟨hread, hreadsRest⟩ := Bool.and_eq_true_iff.mp hreads
  rw [audioEvent_cons htodo]
  have hok := runEvent_ok (h.core.withCb { s.cb with todo := es ++ eventsAfter s.ph.val }) hseen h.grain pick e hread
  rw [he] at hok
  exact settlePh_ok hph hok hes hreadsRest hn

/-! ### One step -/

/-- The grain of a turn matters to a CALLBACK alone. -/
theorem Turn.grain_of_port {turn : Turn} (h : turn.port ≠ .audio) : turn.grain = .whole := by
  cases turn with
  | ctrl | net => rfl
  | audio | audioEvent pick => exact absurd rfl h

theorem port_audio {i : Instr} (h : i.port = .audio) : ∃ n, i = .callback n := by
  cases i with
  | callback n => exact ⟨n, rfl⟩
  | _ => cases h

/-- A step keeps the invariant, and PH walks. -/
theorem State.Inv.step {s t : State} (h : s.Inv) (hstep : step s = .next t) : t.Inv ∧ PhaseMove s.ph t.ph := by
  cases StepCase.of_step hstep with
  | idle hsched ht => subst ht; exact ⟨h, .inl rfl⟩
  | event turn rest hsched hport hph ht => subst ht; exact (h.withSched rest).audioEvent hph _
  | empty turn rest hsched htakes hpend ht => subst ht; exact ⟨h.withSched rest, .inl rfl⟩
  | illegal turn rest w ws e hsched htakes hpend hdec ht => subst ht; exact ⟨(h.taken turn rest ws).flag _, .inl rfl⟩
  | command turn rest w ws i hsched htakes hpend hdec hexec =>
    have hown := (decodeOn_eq_ok hdec).1
    by_cases hport : turn.port = .audio
    · obtain ⟨n, rfl⟩ := port_audio (hown.trans hport)
      exact (h.taken turn rest ws).exec_callback (htakes hport) hexec
    · rw [Turn.grain_of_port hport] at hexec
      have hgrain : (s.taken turn rest ws).withGrain .whole = s.taken turn rest ws := by
        rw [← (h.taken turn rest ws).grain]
        rfl
      rw [hgrain] at hexec
      obtain ⟨hinv, hph⟩ := (h.taken turn rest ws).exec_shared (hown ▸ hport) hexec
      exact ⟨hinv, .inl hph⟩

/-- Settles O12: case by case of the step, from what a command and what an event of a callback leave. -/
theorem stepKeepsInv : Obligations.StepKeepsInv := fun _ _ h hstep => (h.step hstep).1

/-- Settles O15. -/
theorem phaseWalk : Obligations.PhaseWalk := fun _ _ h hstep => (h.step hstep).2

end Sys2Proof.Machine
end

section
/-!
PROOF. STATUS steers nothing (spec/10_state.md R36, R60; 60_exceptions.md R241). Two states that differ in STATUS alone are
related by `SameButStatus`, and each operation of the block takes related states to related states: no test and no operand is
STATUS, the registers a callback in progress has still to read are not STATUS (`Event.readsOk`), and of the commands only
RD STATUS answers with it.
-/

namespace Sys2Proof.Machine

/-- Replace STATUS alone. -/
def State.withStatus (s : State) (x : Word) : State := s.withRegs { s.regs with status := x }

/-- `s'` is `s` but for STATUS. -/
def SameButStatus (s s' : State) : Prop := ∃ x, s' = s.withStatus x

namespace SameButStatus

variable {s s' : State}

/-- A test that does not read STATUS comes out alike in both states. -/
theorem ite {c : Prop} [Decidable c] {a a' b b' : State} (ha : c → SameButStatus a a') (hb : ¬ c → SameButStatus b b') :
    SameButStatus (if c then a else b) (if c then a' else b') := by
  by_cases hc : c
  · rw [if_pos hc, if_pos hc]; exact ha hc
  · rw [if_neg hc, if_neg hc]; exact hb hc

theorem foldl {α : Type} {f g : State → α → State}
    (hf : ∀ s s' a, SameButStatus s s' → SameButStatus (f s a) (g s' a)) (l : List α) (h : SameButStatus s s') :
    SameButStatus (l.foldl f s) (l.foldl g s') := by
  induction l generalizing s s' with
  | nil => exact h
  | cons a l ih => exact ih (hf _ _ a h)

/-! ### Updates and the register space -/

theorem withQueue (h : SameButStatus s s') (q : List (List Word)) : SameButStatus (s.withQueue q) (s'.withQueue q) := by
  obtain ⟨x, rfl⟩ := h; exact ⟨x, rfl⟩
theorem withCb (h : SameButStatus s s') (c : Progress) : SameButStatus (s.withCb c) (s'.withCb c) := by
  obtain ⟨x, rfl⟩ := h; exact ⟨x, rfl⟩
theorem withPh (h : SameButStatus s s') (ph : Fin 9) : SameButStatus (s.withPh ph) (s'.withPh ph) := by
  obtain ⟨x, rfl⟩ := h; exact ⟨x, rfl⟩
theorem withGrain (h : SameButStatus s s') (g : Grain) : SameButStatus (s.withGrain g) (s'.withGrain g) := by
  obtain ⟨x, rfl⟩ := h; exact ⟨x, rfl⟩
theorem withSched (h : SameButStatus s s') (l : List Turn) : SameButStatus (s.withSched l) (s'.withSched l) := by
  obtain ⟨x, rfl⟩ := h; exact ⟨x, rfl⟩
theorem withIo (h : SameButStatus s s') (c : Channels) : SameButStatus (s.withIo c) (s'.withIo c) := by
  obtain ⟨x, rfl⟩ := h; exact ⟨x, rfl⟩

theorem flag (h : SameButStatus s s') (f : StatusFlag) : SameButStatus (s.flag f) (s'.flag f) := by
  obtain ⟨x, rfl⟩ := h; exact ⟨x ||| f.mask, rfl⟩

theorem regWrite (h : SameButStatus s s') (r : RegName) (w : Word) : SameButStatus (s.regWrite r w) (s'.regWrite r w) := by
  obtain ⟨x, rfl⟩ := h
  cases r with
  | status => exact ⟨w, rfl⟩
  | _ => exact ⟨x, rfl⟩

theorem regRead_eq (h : SameButStatus s s') {r : RegName} (hr : r ≠ .status) : s'.regRead r = s.regRead r := by
  obtain ⟨x, rfl⟩ := h
  cases r with
  | status => exact absurd rfl hr
  | _ => rfl

/-- The old value of STATUS enters only what is stored in STATUS. -/
theorem writeReg (h : SameButStatus s s') (name : RegName) (data : Word) :
    SameButStatus (s.writeReg name data) (s'.writeReg name data) := by
  unfold State.writeReg
  refine ite (fun _ => ?_) (fun _ => ?_)
  · obtain ⟨x, rfl⟩ := h
    exact ⟨clearFlags x data, rfl⟩
  · cases storedPattern name.type data with
    | none => exact h.flag .badval
    | some w => exact h.regWrite name w

/-! ### Voices, sequencer and jitter buffer -/

theorem poolNoteOn (h : SameButStatus s s') (d : Degree) (oct : Int) :
    SameButStatus (s.poolNoteOn d oct) (s'.poolNoteOn d oct) := by
  obtain ⟨x, rfl⟩ := h
  rw [State.poolNoteOn_eq, State.poolNoteOn_eq]
  exact ⟨_, rfl⟩

theorem poolNoteOff (h : SameButStatus s s') (d : Degree) : SameButStatus (s.poolNoteOff d) (s'.poolNoteOff d) := by
  obtain ⟨x, rfl⟩ := h; exact ⟨x, rfl⟩

theorem seqAdvanceAcc (h : SameButStatus s s') (playing : Bool) (n : Nat) :
    SameButStatus (s.seqAdvanceAcc playing n) (s'.seqAdvanceAcc playing n) := by
  obtain ⟨x, rfl⟩ := h; exact ⟨x, rfl⟩

theorem seqEnterStep (h : SameButStatus s s') (sps : Rat) : SameButStatus (s.seqEnterStep sps) (s'.seqEnterStep sps) := by
  obtain ⟨x, rfl⟩ := h; exact ⟨x, rfl⟩

theorem seqTrigger (h : SameButStatus s s') (d : Degree) (oct : Int) (sps : Rat) :
    SameButStatus (s.seqTrigger d oct sps) (s'.seqTrigger d oct sps) := by
  obtain ⟨x, hx⟩ := h.poolNoteOn d oct
  unfold State.seqTrigger
  rw [hx]
  exact ⟨x, rfl⟩

theorem seqPlayStep (h : SameButStatus s s') (oct : Int) (sps : Rat) :
    SameButStatus (s.seqPlayStep oct sps) (s'.seqPlayStep oct sps) := by
  obtain ⟨x, rfl⟩ := h
  exact foldl (fun _ _ d h => h.seqTrigger d oct sps) _ (seqEnterStep ⟨x, rfl⟩ sps)

theorem seqLoop (oct : Int) (sps : Rat) (fuel : Nat) (h : SameButStatus s s') :
    SameButStatus (State.seqLoop oct sps fuel s) (State.seqLoop oct sps fuel s') := by
  induction fuel generalizing s s' with
  | zero => exact h
  | succ k ih =>
    obtain ⟨x, rfl⟩ := h
    exact ite (fun _ => ih (seqPlayStep ⟨x, rfl⟩ oct sps)) (fun _ => ⟨x, rfl⟩)

theorem seqReleaseOne (h : SameButStatus s s') (d : Degree) : SameButStatus (s.seqReleaseOne d) (s'.seqReleaseOne d) := by
  obtain ⟨x, rfl⟩ := h
  exact ite (fun _ => ⟨x, rfl⟩) (fun _ => ⟨x, rfl⟩)

theorem seqReleaseAll (h : SameButStatus s s') : SameButStatus s.seqReleaseAll s'.seqReleaseAll :=
  foldl (fun _ _ d h => h.seqReleaseOne d) degrees h

theorem seqAdvancePos (h : SameButStatus s s') (n : Nat) : SameButStatus (s.seqAdvancePos n) (s'.seqAdvancePos n) := by
  obtain ⟨x, rfl⟩ := h; exact ⟨x, rfl⟩

theorem seqAdvance (h : SameButStatus s s') (n : Nat) (oct : Int) (bpm play : Word) :
    SameButStatus (s.seqAdvance n oct bpm play) (s'.seqAdvance n oct bpm play) := by
  obtain ⟨x, rfl⟩ := h
  refine seqAdvancePos (seqReleaseAll ?_) n
  exact ite (fun _ => seqLoop _ _ _ (seqAdvanceAcc ⟨x, rfl⟩ _ _)) (fun _ => seqAdvanceAcc ⟨x, rfl⟩ _ _)

theorem jbPush (h : SameButStatus s s') (blk : List Word) : SameButStatus (s.jbPush blk) (s'.jbPush blk) := by
  obtain ⟨x, rfl⟩ := h
  exact ite (fun _ => ⟨x, rfl⟩) (fun _ => flag ⟨x, rfl⟩ .jbEvict)

/-! ### The phases of a callback -/

theorem phaseZero (h : SameButStatus s s') (n : Nat) : SameButStatus (s.phaseZero n) (s'.phaseZero n) := by
  obtain ⟨x, rfl⟩ := h; exact ⟨x, rfl⟩

theorem requestOns (h : SameButStatus s s') (on : Word) (oct : Int) :
    SameButStatus (s.requestOns on oct) (s'.requestOns on oct) :=
  foldl (fun _ _ d h => h.poolNoteOn d oct) _ h

theorem requestOffs (h : SameButStatus s s') (off : Word) : SameButStatus (s.requestOffs off) (s'.requestOffs off) :=
  foldl (fun _ _ d h => h.poolNoteOff d) _ h

theorem phaseSequencer (h : SameButStatus s s') (n : Nat) : SameButStatus (s.phaseSequencer n) (s'.phaseSequencer n) := by
  obtain ⟨x, rfl⟩ := h
  exact seqAdvance ⟨x, rfl⟩ n _ _ _

theorem phaseRequests (h : SameButStatus s s') (oct : Int) : SameButStatus (s.phaseRequests oct) (s'.phaseRequests oct) := by
  obtain ⟨x, rfl⟩ := h
  exact requestOffs (requestOns ((regWrite ⟨x, rfl⟩ .noteOnReq 0).regWrite .noteOffReq 0) _ oct) _

theorem phaseResize (h : SameButStatus s s') (poly : Word) : SameButStatus (s.phaseResize poly) (s'.phaseResize poly) := by
  obtain ⟨x, rfl⟩ := h
  exact ite (fun _ => ⟨x, rfl⟩) (fun _ => ⟨x, rfl⟩)

/-- The setters of phase 5 read the parameter registers, not STATUS (R205). -/
theorem phaseLatch (h : SameButStatus s s') (r : RegFile) (x : Word) :
    SameButStatus (s.phaseLatch r) (s'.phaseLatch { r with status := x }) := by
  obtain ⟨y, rfl⟩ := h; exact ⟨y, rfl⟩

theorem phaseRender (h : SameButStatus s s') (n : Nat) : SameButStatus (s.phaseRender n) (s'.phaseRender n) := by
  obtain ⟨x, rfl⟩ := h; exact ⟨x, rfl⟩

theorem mixRemote (h : SameButStatus s s') (xs : List Word) (g : Word) :
    SameButStatus (s.mixRemote xs g) (s'.mixRemote xs g) := by
  obtain ⟨x, rfl⟩ := h; exact ⟨x, rfl⟩

theorem phaseRemote (h : SameButStatus s s') (n : Nat) : SameButStatus (s.phaseRemote n) (s'.phaseRemote n) := by
  obtain ⟨x, rfl⟩ := h
  exact ite (fun _ => flag ⟨x, rfl⟩ .jbUnderrun) (fun _ => ⟨x, rfl⟩)

theorem phaseEmit (h : SameButStatus s s') (n : Nat) : SameButStatus (s.phaseEmit n) (s'.phaseEmit n) := by
  obtain ⟨x, rfl⟩ := h; exact ⟨x, rfl⟩

theorem phasesAfterRequests (h : SameButStatus s s') (n : Nat) :
    SameButStatus (s.phasesAfterRequests n) (s'.phasesAfterRequests n) := by
  obtain ⟨x, rfl⟩ := h
  rw [phasesAfterRequests_eq, phasesAfterRequests_eq]
  have hresize : SameButStatus (s.phaseResize s.regs.polyTarget) ((s.withStatus x).phaseResize s.regs.polyTarget) :=
    phaseResize ⟨x, rfl⟩ _
  exact ((hresize.phaseLatch s.regs x).phaseRender n).phaseRemote n

theorem callbackDone (h : SameButStatus s s') : SameButStatus s.callbackDone s'.callbackDone :=
  ((h.withPh 0).withCb _).withGrain .whole

theorem callbackWhole (h : SameButStatus s s') (n : Nat) : SameButStatus (s.callbackWhole n) (s'.callbackWhole n) := by
  obtain ⟨x, rfl⟩ := h
  exact (((((phaseZero ⟨x, rfl⟩ n).phaseSequencer n).phaseRequests _).phasesAfterRequests n).phaseEmit n).callbackDone

theorem callbackBegin (h : SameButStatus s s') (n : Word) : SameButStatus (s.callbackBegin n) (s'.callbackBegin n) :=
  ((h.withPh 1).withCb _).withGrain .whole

/-! ### The events of a callback -/

theorem pushEvents (h : SameButStatus s s') (es : List Event) : SameButStatus (s.pushEvents es) (s'.pushEvents es) := by
  obtain ⟨x, rfl⟩ := h; exact ⟨x, rfl⟩

theorem see (h : SameButStatus s s') {r : RegName} (hr : r ≠ .status) : SameButStatus (s.see r) (s'.see r) := by
  have hread := h.regRead_eq hr
  obtain ⟨x, rfl⟩ := h
  unfold State.see
  rw [hread]
  exact ⟨x, rfl⟩

theorem readOneOf (h : SameButStatus s s') (group : List RegName → Event) (pick : Nat) {rs : List RegName}
    (hrs : ∀ r ∈ rs, r ≠ .status) : SameButStatus (s.readOneOf group pick rs) (s'.readOneOf group pick rs) := by
  unfold State.readOneOf
  cases hr : rs[pick % rs.length]? with
  | none => exact h
  | some r =>
    have hsee := h.see (hrs r (List.mem_of_getElem? hr))
    exact ite (fun _ => hsee) (fun _ => hsee.pushEvents _)

end SameButStatus

/-- A register of one of the callback's groups is not STATUS (R80). -/
theorem ne_status_of_group {group rs : List RegName} (hgroup : .status ∉ group)
    (h : (!rs.isEmpty && rs.all (group.contains ·)) = true) : ∀ r ∈ rs, r ≠ .status := by
  rintro r hr rfl
  exact hgroup (List.contains_iff_mem.mp (List.all_eq_true.mp (Bool.and_eq_true_iff.mp h).2 _ hr))

namespace SameButStatus

variable {s s' : State}

theorem runEvent (h : SameButStatus s s') (pick : Nat) {e : Event} (he : e.readsOk = true) :
    SameButStatus (s.runEvent pick e) (s'.runEvent pick e) := by
  obtain ⟨x, rfl⟩ := h
  have h : SameButStatus s (s.withStatus x) := ⟨x, rfl⟩
  cases e with
  | zero => exact h.phaseZero _
  | readTiming rs => exact h.readOneOf _ pick (ne_status_of_group (by decide) he)
  | seqAdvance => exact ite (fun _ => (h.seqAdvanceAcc _ _).pushEvents _) (fun _ => h.seqAdvanceAcc _ _)
  | seqStep =>
    refine ite (fun _ => ?_) (fun _ => h)
    exact ((h.seqEnterStep _).see (r := .grid _) RegName.noConfusion).pushEvents _
  | seqTrigger d => exact h.seqTrigger d _ _
  | seqRelease => exact h.seqReleaseAll.seqAdvancePos _
  | drainOn => exact (h.see (r := .noteOnReq) RegName.noConfusion).regWrite .noteOnReq 0
  | drainOff => exact ((h.see (r := .noteOffReq) RegName.noConfusion).regWrite .noteOffReq 0).pushEvents _
  | requestOn d => exact h.poolNoteOn d _
  | requestOffs => exact h.requestOffs _
  | readPoly rs => exact h.readOneOf _ pick (ne_status_of_group (by decide) he)
  | resize => exact h.phaseResize _
  | readParams rs => exact h.readOneOf _ pick (ne_status_of_group (by decide) he)
  | latch => exact h.phaseLatch s.cb.seen s.cb.seen.status
  | render => exact h.phaseRender _
  | pop => exact ite (fun _ => h.pushEvents _) (fun _ => (h.withCb _).withQueue _)
  | underrun => exact h.flag .jbUnderrun
  | readRemote rs => exact h.readOneOf _ pick (ne_status_of_group (by decide) he)
  | mix => exact h.mixRemote _ _
  | emit => exact h.phaseEmit _

theorem settlePh (h : SameButStatus s s') : SameButStatus s.settlePh s'.settlePh := by
  obtain ⟨x, rfl⟩ := h
  unfold State.settlePh
  rw [show (s.withStatus x).cb = s.cb from rfl]
  cases s.cb.todo with
  | nil => exact callbackDone ⟨x, rfl⟩
  | cons e rest => exact ⟨x, rfl⟩

theorem audioEvent (h : SameButStatus s s') (pick : Nat) (hreads : s.cb.todo.all Event.readsOk = true) :
    SameButStatus (s.audioEvent pick) (s'.audioEvent pick) := by
  obtain ⟨x, rfl⟩ := h
  unfold State.audioEvent
  rw [show (s.withStatus x).cb = s.cb from rfl]
  cases htodo : s.cb.todo with
  | nil => exact callbackDone ⟨x, rfl⟩
  | cons e rest =>
    rw [htodo, List.all_cons, Bool.and_eq_true] at hreads
    exact (runEvent (withCb ⟨x, rfl⟩ _) pick hreads.1).settlePh

end SameButStatus

/-! ### Commands -/

/-- Both runs go on, to states that differ in STATUS alone. -/
def BothNext (o o' : Host.Outcome State Fault Refusal) : Prop := ∃ t t', o = .next t ∧ o' = .next t' ∧ SameButStatus t t'

theorem BothNext.of {t t' : State} (h : SameButStatus t t') : BothNext (.next t) (.next t') := ⟨t, t', rfl, rfl, h⟩

theorem BothNext.ite {c : Prop} [Decidable c] {a a' b b' : Host.Outcome State Fault Refusal} (ha : BothNext a a')
    (hb : BothNext b b') : BothNext (if c then a else b) (if c then a' else b') := by
  split
  · exact ha
  · exact hb

variable {s s' : State}

theorem SameButStatus.execWr (h : SameButStatus s s') (addr : Addr) (data : Word) :
    BothNext (execWr addr data s) (execWr addr data s') := by
  unfold Machine.execWr
  cases regAt addr with
  | none => exact .of (h.flag .badaddr)
  | some name => exact .ite (.of (h.flag .badaddr)) (.of (h.writeReg name data))

theorem SameButStatus.respond (h : SameButStatus s s') (w : Word) : SameButStatus (s.respond w) (s'.respond w) := by
  obtain ⟨x, rfl⟩ := h; exact ⟨x, rfl⟩

theorem SameButStatus.hold (h : SameButStatus s s') (i : Instr) : SameButStatus (s.hold i) (s'.hold i) := by
  obtain ⟨x, rfl⟩ := h; exact ⟨x, rfl⟩

/-- An RD of another register than STATUS answers alike in both states. -/
theorem SameButStatus.execRd (h : SameButStatus s s') {addr : Addr} (haddr : addr ≠ 0x0000) :
    BothNext (execRd addr s) (execRd addr s') := by
  unfold Machine.execRd
  cases hname : regAt addr with
  | none => exact .of ((h.flag .badaddr).respond 0)
  | some name =>
    have hne : name ≠ .status := by
      rintro rfl
      exact haddr (regAt_eq_some hname).symm
    dsimp only
    rw [h.regRead_eq hne]
    exact .of (h.respond _)

theorem SameButStatus.execJbpush (h : SameButStatus s s') (nbytes : Word) :
    BothNext (execJbpush nbytes s) (execJbpush nbytes s') := by
  obtain ⟨x, rfl⟩ := h
  have htake : SameButStatus (s.takeRx (u32 nbytes)) ((s.withStatus x).takeRx (u32 nbytes)) := ⟨x, rfl⟩
  exact .ite (.of ⟨x, rfl⟩) (.ite (.of (htake.flag .jbMalformed)) (.of (htake.jbPush _)))

theorem SameButStatus.execCallback (h : SameButStatus s s') (n : Word) :
    BothNext (execCallback n s) (execCallback n s') := by
  obtain ⟨x, rfl⟩ := h
  have h : SameButStatus s (s.withStatus x) := ⟨x, rfl⟩
  refine .ite (.of (h.hold _)) (.ite ?_ (.of ((h.withGrain .whole).flag .illcmd)))
  rw [show (s.withStatus x).grain = s.grain from rfl]
  cases s.grain with
  | whole => exact .of (h.callbackWhole _)
  | split => exact .of (h.callbackBegin n)

/-- STATUS steers no command but an RD of STATUS itself. -/
theorem SameButStatus.exec (h : SameButStatus s s') {i : Instr} (hi : i ≠ .rd 0x0000) : BothNext (exec i s) (exec i s') := by
  cases i with
  | nop addr data => exact .of h
  | reset =>
    obtain ⟨x, rfl⟩ := h
    exact .ite (.of ⟨x, rfl⟩) (.of ⟨0, rfl⟩)
  | wr addr data => exact h.execWr addr data
  | rd addr => exact h.execRd fun e => hi (e ▸ rfl)
  | noteon mask | noteoff mask => obtain ⟨x, rfl⟩ := h; exact .of ⟨x, rfl⟩
  | callback n => exact h.execCallback n
  | jbpush nbytes => exact h.execJbpush nbytes

/-! ### One step -/

theorem todo_readsOk {s : State} (h : s.Inv) (hph : s.ph ≠ 0) : s.cb.todo.all Event.readsOk = true := by
  obtain ⟨-, -, hreads, -, -⟩ := (if_neg hph).mp h.progress
  exact hreads

theorem Turn.eq_ctrl {turn : Turn} (h : turn.port = .ctrl) : turn = .ctrl := by
  cases turn with
  | ctrl => rfl
  | net | audio | audioEvent pick => cases h

theorem SameButStatus.taken (h : SameButStatus s s') (turn : Turn) (rest : List Turn) (ws : List Command) :
    SameButStatus (s.taken turn rest ws) (s'.taken turn rest ws) := by
  obtain ⟨x, rfl⟩ := h; exact ⟨x, rfl⟩

/-- Settles O30: STATUS does not enter which case a step is of, and in each case the two runs stay alike. -/
theorem statusSteersNothing : Obligations.StatusSteersNothing := by
  intro s t x hinv hstep hrd
  have h : SameButStatus s (s.withStatus x) := ⟨x, rfl⟩
  suffices ∃ t', StepCase (s.withStatus x) t' ∧ SameButStatus t t' by
    obtain ⟨t', hcase, y, rfl⟩ := this
    exact ⟨y, hcase.step_eq⟩
  cases StepCase.of_step hstep with
  | idle hsched ht =>
    subst ht
    exact ⟨_, .idle hsched rfl, h⟩
  | event turn rest hsched hport hph ht =>
    subst ht
    exact ⟨_, .event turn rest hsched hport hph rfl, (h.withSched rest).audioEvent _ (todo_readsOk (hinv.withSched rest) hph)⟩
  | empty turn rest hsched htakes hpend ht =>
    subst ht
    exact ⟨_, .empty turn rest hsched htakes hpend rfl, h.withSched rest⟩
  | illegal turn rest w ws e hsched htakes hpend hdec ht =>
    subst ht
    exact ⟨_, .illegal turn rest w ws e hsched htakes hpend hdec rfl, (h.taken turn rest ws).flag .illcmd⟩
  | command turn rest w ws i hsched htakes hpend hdec hexec =>
    have hi : i ≠ .rd 0x0000 := by
      rintro rfl
      obtain ⟨hport, rfl⟩ := decodeOn_eq_ok hdec
      obtain rfl := Turn.eq_ctrl hport.symm
      exact hrd rest ws hsched hpend
    obtain ⟨t₁, t', hnext, hnext', hsame⟩ := ((h.taken turn rest ws).withGrain turn.grain).exec hi
    obtain rfl : t₁ = t := Host.Outcome.next.inj (hnext.symm.trans hexec)
    exact ⟨t', .command turn rest w ws i hsched htakes hpend hdec hnext', hsame⟩

end Sys2Proof.Machine
end

section
/-!
PROOF. One AUDIO or command turn of a port (spec/20_memory.md R78, R80, R81).
-/

namespace Sys2Proof.Machine

/-- Settles O7: the turn takes the word off its port, and the word decodes. -/
theorem stepRunsDecodedInstruction : Obligations.StepRunsDecodedInstruction :=
  fun _ _ _ _ _ _ hsched htakes hpend hdec => step_of_run ((fetch_takes hsched htakes).trans (takeCommand_ok hpend hdec))

/-! ### An event takes no word of AUDIO.cmd -/

theorem OnlyNotes.io {s t : State} (h : OnlyNotes s t) : t.io = s.io := by
  obtain ⟨-, -, -, -, -, -, -, hio⟩ := h.fields
  exact hio

theorem readOneOf_io (s : State) (group : List RegName → Event) (pick : Nat) (rs : List RegName) :
    (s.readOneOf group pick rs).io = s.io := by
  unfold State.readOneOf
  split
  · rfl
  · dsimp only
    split <;> rfl

/-- Of the events only the emission uses the ports, and it only sends (R209). -/
theorem runEvent_audioCmd (s : State) (pick : Nat) (e : Event) : (s.runEvent pick e).io.audioCmd = s.io.audioCmd := by
  cases e with
  | emit => rfl
  | readTiming rs | readPoly rs | readParams rs | readRemote rs =>
    exact congrArg Channels.audioCmd (readOneOf_io s _ pick rs)
  | seqTrigger d => exact congrArg Channels.audioCmd (onlyNotes_seqTrigger s d s.cb.octave s.progressSps).io
  | seqRelease =>
    rw [State.runEvent, State.seqAdvancePos, State.withSeq_io, (onlyNotes_seqReleaseAll s).io]
  | requestOn d => exact congrArg Channels.audioCmd (onlyNotes_poolNoteOn s d s.cb.octave).io
  | requestOffs => exact congrArg Channels.audioCmd (onlyNotes_requestOffs s s.cb.seen.noteOffReq).io
  | resize => rw [State.runEvent, State.phaseResize_eq]
  | seqAdvance | seqStep | pop =>
    simp only [State.runEvent]
    split <;> rfl
  | zero | drainOn | drainOff | latch | render | underrun | mix => rfl

theorem settlePh_io (s : State) : s.settlePh.io = s.io := by
  unfold State.settlePh
  split <;> rfl

theorem audioEvent_audioCmd (s : State) (pick : Nat) : (s.audioEvent pick).io.audioCmd = s.io.audioCmd := by
  unfold State.audioEvent
  split
  · rfl
  · rw [settlePh_io, runEvent_audioCmd, State.withCb_io]

/-! ### CALLBACK, by what it meets -/

theorem exec_callback_busy {s : State} {n : Word} (h : s.ph ≠ 0) : exec (.callback n) s = .next (s.hold (.callback n)) :=
  if_pos h

theorem exec_callback_whole {s : State} {n : Word} (hph : s.ph = 0) (hn : u32 n ≤ s.params.maxFrames)
    (hg : s.grain = .whole) : exec (.callback n) s = .next (s.callbackWhole (u32 n)) := by
  have hlegal : (Instr.callback n).wellFormed s.params = true := decide_eq_true hn
  simp only [exec, execCallback, hph, hlegal, hg, ne_eq, not_true_eq_false, if_false, if_true]

theorem exec_callback_split {s : State} {n : Word} (hph : s.ph = 0) (hn : u32 n ≤ s.params.maxFrames)
    (hg : s.grain = .split) : exec (.callback n) s = .next (s.callbackBegin n) := by
  have hlegal : (Instr.callback n).wellFormed s.params = true := decide_eq_true hn
  simp only [exec, execCallback, hph, hlegal, hg, ne_eq, not_true_eq_false, if_false, if_true]

/-- Settles O8: AUDIO's turn is an event of the step's cases, and CALLBACK starts or is held by its own cases. -/
theorem audioTurnsRunEvents : Obligations.AudioTurnsRunEvents := by
  refine ⟨fun s pick rest hph => ⟨fun hsched => ?_, fun hsched => ?_, audioEvent_audioCmd s pick⟩, ?_, ?_⟩
  · exact (StepCase.event (.audioEvent pick) rest hsched rfl hph rfl).step_eq
  · exact (StepCase.event .audio rest hsched rfl hph rfl).step_eq
  · intro s n hph hg hn
    exact exec_callback_split hph hn hg
  · intro s n hph
    exact exec_callback_busy hph

end Sys2Proof.Machine
end

section
/-!
PROOF. WR twice is WR once (spec/20_memory.md R77): the register it writes, and what it writes there, do not depend on what
an earlier WR of the same pattern left; a flag once set stays set, and a cleared one cleared.
-/

namespace Sys2Proof.Machine

theorem write_write (f : RegFile) (r : RegName) (v w : Word) : (f.write r v).write r w = f.write r w := by
  cases r with
  | oscWave j | oscOct j | oscDetune j | oscPhase j | grid j => simp only [RegFile.write, Vector.set_set]
  | _ => rfl

theorem regWrite_regWrite (s : State) (r : RegName) (v w : Word) : (s.regWrite r v).regWrite r w = s.regWrite r w :=
  congrArg s.withRegs (write_write s.regs r v w)

theorem flag_flag (s : State) (f : StatusFlag) : (s.flag f).flag f = s.flag f := by
  have hor : s.regs.status ||| f.mask ||| f.mask = s.regs.status ||| f.mask := by rw [BitVec.or_assoc, BitVec.or_self]
  exact congrArg (fun w => s.regWrite .status w) hor

theorem clearFlags_clearFlags (status data : Word) : clearFlags (clearFlags status data) data = clearFlags status data := by
  unfold clearFlags
  rw [BitVec.and_assoc, BitVec.and_self]

theorem writeReg_writeReg (s : State) (name : RegName) (data : Word) :
    (s.writeReg name data).writeReg name data = s.writeReg name data := by
  unfold State.writeReg
  by_cases hstatus : name = .status
  · rw [if_pos hstatus, if_pos hstatus, regWrite_regWrite]
    exact congrArg (fun w => s.regWrite .status w) (clearFlags_clearFlags s.regs.status data)
  · rw [if_neg hstatus, if_neg hstatus]
    cases storedPattern name.type data with
    | none => exact flag_flag s .badval
    | some w => exact regWrite_regWrite s name w w

/-- Settles O25: whether WR is refused is a matter of its address and data alone, and each thing it can do is idempotent. -/
theorem wrIsIdempotent : Obligations.WrIsIdempotent := by
  intro s t addr data h
  simp only [exec, execWr] at h ⊢
  cases hname : regAt addr with
  | none =>
    rw [hname] at h
    cases h
    exact congrArg _ (flag_flag s .badaddr)
  | some name =>
    rw [hname] at h
    dsimp only at h ⊢
    by_cases hro : name.readOnly = true
    · rw [if_pos hro] at h ⊢
      cases h
      exact congrArg _ (flag_flag s .badaddr)
    · rw [if_neg hro] at h ⊢
      cases h
      exact congrArg _ (writeReg_writeReg s name data)

end Sys2Proof.Machine
end

section
/-!
PROOF. The payload of an emitted block, received, is queued as the block's words (spec/20_memory.md R74, R76;
47_jitter_buffer.md R190).
-/

namespace Sys2Proof.Machine

/-- JBPUSH of a payload that is there and is well formed: it leaves NET.rx, and its words go to the queue (R190). -/
theorem exec_jbpush_payload {s : State} {nbytes : Word} {payload later : List Byte} (hrx : s.io.netRx = payload ++ later)
    (hlen : payload.length = u32 nbytes) (hok : malformed s.params (u32 nbytes) = false) :
    exec (.jbpush nbytes) s = .next ((s.withIo { s.io with netRx := later }).jbPush (payloadWords payload)) := by
  have hthere : ¬ s.io.netRx.length < u32 nbytes := by rw [hrx, List.length_append]; omega
  have htake : s.io.netRx.take (u32 nbytes) = payload := by rw [hrx, List.take_left' hlen]
  have hdrop : s.takeRx (u32 nbytes) = s.withIo { s.io with netRx := later } := by
    rw [State.takeRx, hrx, List.drop_left' hlen]
  simp only [exec, execJbpush]
  rw [if_neg hthere, htake, State.takeRx_params, hok, hdrop]
  rfl

theorem jbPush_of_room {s : State} (blk : List Word) (h : s.queue.length < Config.jbCap) :
    s.jbPush blk = s.withQueue (s.queue ++ [blk]) :=
  (State.jbPush_eq s blk (le_of_lt h)).trans (if_pos h)

theorem length_flatMap_wordBytes (ws : List Word) : (ws.flatMap wordBytes).length = 4 * ws.length := by
  induction ws with
  | nil => rfl
  | cons w ws ih => rw [List.flatMap_cons, List.length_append, ih, wordBytes_length, List.length_cons]; omega

/-- Settles O33: the bytes are those of the block's words, four each, and the words are read back from them. -/
theorem loopbackDeliversTheBlock : Obligations.LoopbackDeliversTheBlock := by
  intro s block later h32 hmax hqueue hrx
  rw [Sample.byte_flatMap] at hrx
  have hbytes : u32 (BitVec.ofNat 32 (4 * block.length)) = 4 * block.length :=
    (BitVec.toNat_ofNat _ _).trans (Nat.mod_eq_of_lt h32)
  have hok : malformed s.params (u32 (BitVec.ofNat 32 (4 * block.length))) = false := by
    rw [Bool.eq_false_iff, Ne, malformed_iff, hbytes]
    omega
  have hlen : ((block.map Sample.word).flatMap wordBytes).length = u32 (BitVec.ofNat 32 (4 * block.length)) := by
    rw [length_flatMap_wordBytes, List.length_map, hbytes]
  rw [exec_jbpush_payload hrx hlen hok, payloadWords_flatMap]
  exact congrArg _ (jbPush_of_room _ (s := s.withIo _) hqueue)

end Sys2Proof.Machine
end

section
/-!
PROOF. A callback run event by event is the callback run whole (spec/20_memory.md R80, R81; 48_orchestrator.md R200). A state
in the middle of the event-by-event run is written `b.inProgress c l`: the block `b` as the whole run has it at that point,
the callback `c` in progress, and the turns `l` left. `Finishes b c t` says that AUDIO turns alone lead from there to `t`,
whatever reads they pick; each event and each phase has one rule for it.
-/

namespace Sys2Proof.Machine

/-! ### The block, apart from the callback that serves it -/

/-- The block `b` with PH, the callback in progress and the turns left replaced. -/
def State.serving (b : State) (ph : Fin 9) (c : Progress) (l : List Turn) : State := ((b.withPh ph).withCb c).withSched l

section

variable (b : State) (ph : Fin 9) (c : Progress) (l : List Turn)

@[simp] theorem State.serving_cb : (b.serving ph c l).cb = c := rfl

theorem foldl_serving {α : Type} {f : State → α → State} (h : ∀ s a, f (s.serving ph c l) a = (f s a).serving ph c l)
    (as : List α) : as.foldl f (b.serving ph c l) = (as.foldl f b).serving ph c l := by
  induction as generalizing b with
  | nil => rfl
  | cons a as ih => rw [List.foldl_cons, h, ih, List.foldl_cons]

theorem poolNoteOn_serving (d : Degree) (oct : Int) :
    (b.serving ph c l).poolNoteOn d oct = (b.poolNoteOn d oct).serving ph c l := by
  rw [State.poolNoteOn_eq, State.poolNoteOn_eq]
  rfl

theorem seqTrigger_serving (d : Degree) (oct : Int) (sps : Rat) :
    (b.serving ph c l).seqTrigger d oct sps = (b.seqTrigger d oct sps).serving ph c l := by
  rw [State.seqTrigger, poolNoteOn_serving]
  rfl

theorem seqReleaseOne_serving (d : Degree) : (b.serving ph c l).seqReleaseOne d = (b.seqReleaseOne d).serving ph c l := by
  unfold State.seqReleaseOne
  by_cases hdue : b.seq.relp[d] = true ∧ b.seq.relt[d] ≤ (b.seq.pos.toNat : Rat)
  · rw [if_pos hdue]; exact if_pos hdue
  · rw [if_neg hdue]; exact if_neg hdue

theorem seqReleaseAll_serving : (b.serving ph c l).seqReleaseAll = b.seqReleaseAll.serving ph c l :=
  foldl_serving b ph c l (fun s => seqReleaseOne_serving s ph c l) degrees

theorem seqAdvancePos_serving (k : Nat) : (b.serving ph c l).seqAdvancePos k = (b.seqAdvancePos k).serving ph c l := rfl

theorem requestOffs_serving (off : Word) : (b.serving ph c l).requestOffs off = (b.requestOffs off).serving ph c l :=
  foldl_serving b ph c l (f := State.poolNoteOff) (fun _ _ => rfl) (degreesIn off)

theorem phaseResize_serving (poly : Word) : (b.serving ph c l).phaseResize poly = (b.phaseResize poly).serving ph c l := by
  rw [State.phaseResize_eq, State.phaseResize_eq]
  rfl

end

/-! ### A callback in progress -/

/-- The block `b` between two events of the callback `c`, or after its last (R22). -/
def State.inProgress (b : State) (c : Progress) (l : List Turn) : State := (b.serving 0 c l).settlePh

theorem settlePh_serving (b : State) (ph : Fin 9) (c : Progress) (l : List Turn) :
    (b.serving ph c l).settlePh = b.inProgress c l := by
  obtain ⟨n, todo, seen, popped⟩ := c
  cases todo with
  | nil => rfl
  | cons e rest => rfl

theorem Event.phase_ne_zero (e : Event) : e.phase ≠ 0 := by
  cases e <;> exact Fin.ne_of_val_ne (Nat.succ_ne_zero _)

theorem step_inProgress {b : State} {n : Word} {e : Event} {todo : List Event} {seen : RegFile} {popped : List Word}
    {pick : Nat} {l : List Turn} :
    step (b.inProgress ⟨n, e :: todo, seen, popped⟩ (.audioEvent pick :: l)) =
      .next ((b.serving e.phase ⟨n, todo, seen, popped⟩ l).runEvent pick e).settlePh :=
  (StepCase.event (.audioEvent pick) l rfl rfl e.phase_ne_zero rfl).step_eq

/-- One AUDIO turn for each choice of `pick`, the j-th making the choice `pick j`. -/
def eventTurns (pick : Nat → Nat) (k : Nat) : List Turn := (List.range k).map fun j => Turn.audioEvent (pick j)

theorem eventTurns_succ (pick : Nat → Nat) (k : Nat) :
    eventTurns pick (k + 1) = .audioEvent (pick 0) :: eventTurns (fun j => pick (j + 1)) k := by
  rw [eventTurns, List.range_succ_eq_map, List.map_cons, List.map_map]
  rfl

theorem run_succ_of_step (M : Host.Core) {s s' : M.State} (h : M.step s = .next s') (k : Nat) :
    M.run (k + 1) s = M.run k s' := by
  rw [Host.Core.run, h]

/-- AUDIO turns with no other agent in between take the callback `c` in progress on `b` to its end, in the state `t`, whatever
reads they pick. -/
def Finishes (b : State) (c : Progress) (t : State) : Prop :=
  ∀ (pick : Nat → Nat) (rest : List Turn), ∃ k,
    Host.Core.run Sys2Proof.core k (b.inProgress c (eventTurns pick k ++ rest)) = .next (t.withSched rest)

/-! ### One event -/

section

variable {b b' t : State} {n : Word} {todo : List Event} {seen : RegFile} {popped : List Word}

theorem Finishes.done : Finishes b ⟨n, [], seen, popped⟩ b.callbackDone := fun _ _ => ⟨0, rfl⟩

/-- One event: what it leaves for each pick finishes. -/
theorem Finishes.of_picks {e : Event}
    (h : ∀ pick, ∃ b' c', (∀ ph l, (b.serving ph ⟨n, todo, seen, popped⟩ l).runEvent pick e = b'.serving ph c' l) ∧
      Finishes b' c' t) : Finishes b ⟨n, e :: todo, seen, popped⟩ t := by
  intro pick rest
  obtain ⟨b', c', hrun, hfin⟩ := h (pick 0)
  obtain ⟨k, hk⟩ := hfin (fun j => pick (j + 1)) rest
  refine ⟨k + 1, ?_⟩
  rw [eventTurns_succ, List.cons_append, run_succ_of_step Sys2Proof.core step_inProgress, hrun, settlePh_serving, hk]

/-- One event that has no choice of reads. -/
theorem Finishes.event {e : Event} (c' : Progress) (h : Finishes b' c' t)
    (hrun : ∀ pick ph l, (b.serving ph ⟨n, todo, seen, popped⟩ l).runEvent pick e = b'.serving ph c' l) :
    Finishes b ⟨n, e :: todo, seen, popped⟩ t :=
  .of_picks fun pick => ⟨b', c', hrun pick, h⟩

/-! ### The reads of an unordered group (R81) -/

theorem readOneOf_eq (s : State) (g : List RegName → Event) {pick : Nat} {rs : List RegName} {r : RegName}
    (h : rs[pick % rs.length]? = some r) :
    s.readOneOf g pick rs =
      (s.see r).pushEvents (if (rs.eraseIdx (pick % rs.length)).isEmpty then [] else [g (rs.eraseIdx (pick % rs.length))]) := by
  unfold State.readOneOf
  rw [h]
  dsimp only
  split <;> rfl

theorem eq_or_mem_eraseIdx {α : Type} {l : List α} {i : Nat} {a x : α} (h : l[i]? = some a) (hx : x ∈ l) :
    x = a ∨ x ∈ l.eraseIdx i := by
  obtain ⟨j, hj⟩ := List.mem_iff_getElem?.mp hx
  by_cases hij : j = i
  · subst hij
    exact .inl (Option.some.inj (hj.symm.trans h))
  · exact .inr (List.mem_eraseIdx_iff_getElem?.mpr ⟨j, hij, hj⟩)

/-- In whatever order a group is read, in the end `seen` holds what the registers hold. -/
theorem Finishes.reads {g : List RegName → Event} {group : List RegName}
    (hrun : ∀ (s : State) pick rs, s.runEvent pick (g rs) = s.readOneOf g pick rs) (hgroup : .jbSize ∉ group)
    (h : ∀ seen' : RegFile, (∀ r ∈ group, seen'.read r = b.regs.read r) → Finishes b ⟨n, todo, seen', popped⟩ t)
    {rs : List RegName} (hne : rs ≠ []) (hsub : ∀ r ∈ rs, r ∈ group)
    (hseen : ∀ r ∈ group, r ∈ rs ∨ seen.read r = b.regs.read r) :
    Finishes b ⟨n, g rs :: todo, seen, popped⟩ t := by
  induction hlen : rs.length generalizing rs seen with
  | zero => exact absurd (List.length_eq_zero_iff.mp hlen) hne
  | succ m ih =>
    refine .of_picks fun pick => ?_
    have hi : pick % rs.length < rs.length := Nat.mod_lt _ (List.length_pos_iff.mpr hne)
    have hr := List.getElem?_eq_getElem hi
    set r := rs[pick % rs.length]
    set left := rs.eraseIdx (pick % rs.length) with hleft
    have hrj : r ≠ .jbSize := fun e => hgroup (e ▸ hsub r (List.mem_of_getElem? hr))
    have hseen' : ∀ x ∈ group, x ∈ left ∨ (seen.write r (b.regRead r)).read x = b.regs.read x := by
      intro x hx
      by_cases hxr : x = r
      · subst hxr
        exact .inr ((read_write_same seen _ _ hrj).trans (regRead_of_ne_jbSize b hrj))
      · rw [read_write_other seen _ hxr]
        exact (hseen x hx).imp_left fun hmem => (eq_or_mem_eraseIdx hr hmem).resolve_left hxr
    refine ⟨b, ⟨n, (if left.isEmpty then [] else [g left]) ++ todo, seen.write r (b.regRead r), popped⟩, ?_, ?_⟩
    · intro ph l
      rw [hrun, readOneOf_eq _ g hr]
      rfl
    · by_cases hnil : left = []
      · rw [hnil]
        exact h _ fun x hx => (hseen' x hx).resolve_left (hnil ▸ List.not_mem_nil)
      · rw [if_neg (by simpa using hnil)]
        refine ih hnil (fun x hx => hsub x (List.mem_of_mem_eraseIdx hx)) hseen' ?_
        rw [hleft, List.length_eraseIdx_of_lt hi, hlen]
        rfl

/-- A whole group, none of it read yet. -/
theorem Finishes.readGroup {g : List RegName → Event} {group : List RegName}
    (hrun : ∀ (s : State) pick rs, s.runEvent pick (g rs) = s.readOneOf g pick rs) (hgroup : .jbSize ∉ group)
    (hne : group ≠ [])
    (h : ∀ seen' : RegFile, (∀ r ∈ group, seen'.read r = b.regs.read r) → Finishes b ⟨n, todo, seen', popped⟩ t) :
    Finishes b ⟨n, g group :: todo, seen, popped⟩ t :=
  .reads hrun hgroup h hne (fun _ hr => hr) fun _ hr => .inl hr

/-! ### Phase 2: the sequencer (R181, R202) -/

theorem Finishes.triggers {o m : Word} (ho : seen.octave = o) (hm : seen.bpm = m) {sps : Rat}
    (hsps : stepLength b.params.fs (s32 m) = sps) (ds : List Degree)
    (h : Finishes (ds.foldl (fun s d => s.seqTrigger d (clampedOctave o) sps) b) ⟨n, todo, seen, popped⟩ t) :
    Finishes b ⟨n, ds.map .seqTrigger ++ todo, seen, popped⟩ t := by
  induction ds generalizing b with
  | nil => exact h
  | cons d ds ih =>
    have hparams := (onlyNotes_seqTrigger b d (clampedOctave o) sps).fields.1
    refine .event ⟨n, ds.map .seqTrigger ++ todo, seen, popped⟩ (ih (by rw [hparams, hsps]) h) fun pick ph l => ?_
    subst ho hm hsps
    exact seqTrigger_serving b ph _ l d _ _

/-- The test of the advance loop fails. -/
theorem Finishes.seqStop (hacc : b.seq.acc < stepLength b.params.fs (s32 seen.bpm))
    (h : Finishes b ⟨n, todo, seen, popped⟩ t) : Finishes b ⟨n, .seqStep :: todo, seen, popped⟩ t :=
  .event _ h fun _ _ _ => if_neg (not_le.mpr hacc)

/-- The test succeeds: a step is entered, its grid register read, its degrees triggered, and the test comes again. -/
theorem Finishes.seqEnter {sps : Rat} (hsps : stepLength b.params.fs (s32 seen.bpm) = sps) (hacc : sps ≤ b.seq.acc)
    (h : Finishes (b.seqPlayStep (clampedOctave seen.octave) sps)
      ⟨n, .seqStep :: todo, seen.write (.grid (b.seq.step + 1)) b.regs.grid[b.seq.step + 1], popped⟩ t) :
    Finishes b ⟨n, .seqStep :: todo, seen, popped⟩ t := by
  set seen' := seen.write (.grid (b.seq.step + 1)) b.regs.grid[b.seq.step + 1] with hseen'
  have hgrid : seen'.grid[b.seq.step + 1] = b.regs.grid[b.seq.step + 1] :=
    read_write_same seen (.grid (b.seq.step + 1)) _ RegName.noConfusion
  have htrig : Finishes (b.seqEnterStep sps)
      ⟨n, (degreesIn seen'.grid[b.seq.step + 1]).map .seqTrigger ++ [.seqStep] ++ todo, seen', popped⟩ t := by
    rw [List.append_assoc, hgrid]
    exact .triggers (b := b.seqEnterStep sps) (seen := seen') (o := seen.octave) (m := seen.bpm) rfl rfl hsps _ h
  refine .event _ htrig fun pick ph l => ?_
  subst hsps
  exact if_pos hacc

/-- The advance loop, when its fuel lasts until its test fails. -/
theorem Finishes.seqLoop {o m : Word} (ho : seen.octave = o) (hm : seen.bpm = m) {sps : Rat}
    (hsps : stepLength b.params.fs (s32 m) = sps) (fuel : Nat)
    (hend : (State.seqLoop (clampedOctave o) sps fuel b).seq.acc < sps)
    (h : ∀ seen' : RegFile, seen'.octave = o →
      Finishes (State.seqLoop (clampedOctave o) sps fuel b) ⟨n, todo, seen', popped⟩ t) :
    Finishes b ⟨n, .seqStep :: todo, seen, popped⟩ t := by
  induction fuel generalizing b seen with
  | zero =>
    subst hm hsps
    exact .seqStop hend (h seen ho)
  | succ fuel ih =>
    by_cases hacc : sps ≤ b.seq.acc
    · rw [State.seqLoop, if_pos hacc] at hend h
      have hparams := (onlyNotes_seqPlayStep b (clampedOctave o) sps).fields.1
      subst ho hm
      exact .seqEnter hsps hacc (ih rfl rfl (by rw [hparams, hsps]) hend h)
    · rw [State.seqLoop, if_neg hacc] at h
      subst hm hsps
      exact .seqStop (not_le.mp hacc) (h seen ho)

/-- The fuel of the whole run lasts until the test fails. -/
theorem seqLoop_ends {sps : Rat} (hs : 0 < sps) (oct : Int) (s : State) :
    (State.seqLoop oct sps (loopFuel s.seq.acc sps) s).seq.acc < sps := by
  rcases le_or_gt 0 s.seq.acc with h0 | hneg
  · exact (seqLoop_acc hs oct s h0).2
  · have hacc : s.seq.acc < sps := hneg.trans hs
    cases loopFuel s.seq.acc sps with
    | zero => exact hacc
    | succ fuel => rwa [State.seqLoop, if_neg (not_le.mpr hacc)]

theorem seqAdvance_playing {play : Word} (hp : isPlaying play = true) (s : State) (k : Nat) (oct : Int) (bpm : Word) {sps : Rat}
    (hsps : stepLength s.params.fs (s32 bpm) = sps) :
    s.seqAdvance k oct bpm play =
      (State.seqLoop oct sps (loopFuel (s.seqAdvanceAcc true k).seq.acc sps) (s.seqAdvanceAcc true k)).seqReleaseAll.seqAdvancePos
        k := by
  subst hsps
  rw [State.seqAdvance, hp]
  rfl

theorem seqAdvance_stopped {play : Word} (hp : isPlaying play = false) (s : State) (k : Nat) (oct : Int) (bpm : Word) :
    s.seqAdvance k oct bpm play = (s.seqAdvanceAcc false k).seqReleaseAll.seqAdvancePos k := by
  rw [State.seqAdvance, hp]
  rfl

theorem Finishes.seqRelease (h : Finishes (b.seqReleaseAll.seqAdvancePos (u32 n)) ⟨n, todo, seen, popped⟩ t) :
    Finishes b ⟨n, .seqRelease :: todo, seen, popped⟩ t := by
  refine .event _ h fun pick ph l => ?_
  rw [State.runEvent, seqReleaseAll_serving, seqAdvancePos_serving]
  rfl

theorem Finishes.seqAdvance_playing (hp : isPlaying seen.play = true)
    (h : Finishes (b.seqAdvanceAcc true (u32 n)) ⟨n, .seqStep :: todo, seen, popped⟩ t) :
    Finishes b ⟨n, .seqAdvance :: todo, seen, popped⟩ t := by
  refine .event _ h fun pick ph l => ?_
  simp only [State.runEvent, State.serving_cb, hp, if_true]
  rfl

theorem Finishes.seqAdvance_stopped (hp : isPlaying seen.play = false)
    (h : Finishes (b.seqAdvanceAcc false (u32 n)) ⟨n, todo, seen, popped⟩ t) :
    Finishes b ⟨n, .seqAdvance :: todo, seen, popped⟩ t := by
  refine .event _ h fun pick ph l => ?_
  simp only [State.runEvent, State.serving_cb, hp, if_false, Bool.false_eq_true]
  rfl

/-- SEQ.ADVANCE, its three registers read first. -/
theorem Finishes.phaseSequencer (hfs : 0 < b.params.fs)
    (h : ∀ seen' : RegFile, seen'.octave = b.regs.octave →
      Finishes (b.phaseSequencer (u32 n)) ⟨n, todo, seen', popped⟩ t) :
    Finishes b ⟨n, .readTiming timingRegs :: .seqAdvance :: .seqRelease :: todo, seen, popped⟩ t := by
  refine .readGroup (fun _ _ _ => rfl) (by decide) (by decide) fun seen' hseen => ?_
  have hoct : seen'.octave = b.regs.octave := hseen .octave (by decide)
  have hbpm : seen'.bpm = b.regs.bpm := hseen .bpm (by decide)
  have hplay : seen'.play = b.regs.play := hseen .play (by decide)
  cases hp : isPlaying b.regs.play with
  | false =>
    refine .seqAdvance_stopped (hplay ▸ hp) (.seqRelease ?_)
    rw [← Machine.seqAdvance_stopped hp b _ (clampedOctave b.regs.octave) b.regs.bpm]
    exact h seen' hoct
  | true =>
    refine .seqAdvance_playing (hplay ▸ hp) ?_
    refine .seqLoop hoct hbpm rfl _ (seqLoop_ends (stepLength_pos hfs _) _ _) fun seen'' hoct'' => .seqRelease ?_
    have hwhole := Machine.seqAdvance_playing hp b (u32 n) (clampedOctave b.regs.octave) b.regs.bpm rfl
    exact hwhole ▸ h seen'' hoct''

/-! ### Phase 3: the note requests (R203) -/

theorem Finishes.requestOns {o : Word} (ho : seen.octave = o) (ds : List Degree)
    (h : Finishes (ds.foldl (fun s d => s.poolNoteOn d (clampedOctave o)) b) ⟨n, todo, seen, popped⟩ t) :
    Finishes b ⟨n, ds.map .requestOn ++ todo, seen, popped⟩ t := by
  induction ds generalizing b with
  | nil => exact h
  | cons d ds ih =>
    refine .event ⟨n, ds.map .requestOn ++ todo, seen, popped⟩ (ih h) fun pick ph l => ?_
    subst ho
    exact poolNoteOn_serving b ph _ l d _

theorem Finishes.phaseRequests {o : Word} (ho : seen.octave = o)
    (h : ∀ seen' : RegFile, Finishes (b.phaseRequests (clampedOctave o)) ⟨n, todo, seen', popped⟩ t) :
    Finishes b ⟨n, .drainOn :: .drainOff :: .requestOffs :: todo, seen, popped⟩ t := by
  set drained := { seen with noteOnReq := b.regs.noteOnReq, noteOffReq := b.regs.noteOffReq }
  have hoffs : Finishes (((b.regWrite .noteOnReq 0).regWrite .noteOffReq 0).requestOns b.regs.noteOnReq (clampedOctave o))
      ⟨n, .requestOffs :: todo, drained, popped⟩ t :=
    .event _ (h drained) fun pick ph l => requestOffs_serving _ ph _ l b.regs.noteOffReq
  have hons : Finishes ((b.regWrite .noteOnReq 0).regWrite .noteOffReq 0)
      ⟨n, (degreesIn b.regs.noteOnReq).map .requestOn ++ .requestOffs :: todo, drained, popped⟩ t :=
    .requestOns (seen := drained) ho (degreesIn b.regs.noteOnReq) hoffs
  have hoff : Finishes (b.regWrite .noteOnReq 0)
      ⟨n, .drainOff :: .requestOffs :: todo, { seen with noteOnReq := b.regs.noteOnReq }, popped⟩ t :=
    .event _ hons fun _ _ _ => rfl
  exact .event _ hoff fun _ _ _ => rfl

/-! ### Phases 4 to 8 -/

theorem Finishes.phaseResize
    (h : ∀ seen' : RegFile, Finishes (b.phaseResize b.regs.polyTarget) ⟨n, todo, seen', popped⟩ t) :
    Finishes b ⟨n, .readPoly [.polyTarget] :: .resize :: todo, seen, popped⟩ t := by
  refine .readGroup (fun _ _ _ => rfl) (by decide) (by decide) fun seen' hseen => ?_
  have hpoly : seen'.polyTarget = b.regs.polyTarget := hseen .polyTarget (by decide)
  refine .event _ (h seen') fun pick ph l => ?_
  rw [← hpoly]
  exact phaseResize_serving b ph _ l _

/-- The latch reads the registers of its group alone (R205). -/
theorem latch_congr {f g : RegFile} (h : ∀ r ∈ paramRegs, f.read r = g.read r) (v : Voice) : v.latch f = v.latch g := by
  simp only [paramRegs, List.forall_mem_cons, RegFile.read] at h
  simp only [Voice.latch, Osc.latch, h]

theorem Finishes.phaseLatch (h : ∀ seen' : RegFile, Finishes (b.phaseLatch b.regs) ⟨n, todo, seen', popped⟩ t) :
    Finishes b ⟨n, .readParams paramRegs :: .latch :: todo, seen, popped⟩ t := by
  refine .readGroup (fun _ _ _ => rfl) (by decide) (by decide) fun seen' hseen => ?_
  have hlatch : b.phaseLatch b.regs = b.phaseLatch seen' :=
    congrArg (fun f => b.withVoices (b.voices.map f)) (funext fun v => (latch_congr hseen v).symm)
  exact .event _ (hlatch ▸ h seen') fun _ _ _ => rfl

/-- JB.POP, its flag or its mix; with nothing popped the mix adds nothing (R192, R208). -/
theorem Finishes.phaseRemote
    (h : ∀ (seen' : RegFile) (popped' : List Word), Finishes (b.phaseRemote (u32 n)) ⟨n, todo, seen', popped'⟩ t) :
    Finishes b ⟨n, .pop :: .readRemote [.remoteGain] :: .mix :: todo, seen, []⟩ t := by
  -- The mix, of the samples popped into the block the pop has left.
  have hmix : ∀ (u : State) (seen' : RegFile) (popped' : List Word),
      u.mixRemote popped' u.regs.remoteGain = b.phaseRemote (u32 n) →
      Finishes u ⟨n, .readRemote [.remoteGain] :: .mix :: todo, seen', popped'⟩ t := by
    intro u seen' popped' hu
    refine .readGroup (fun _ _ _ => rfl) (by decide) (by decide) fun seen'' hseen => ?_
    have hgain : seen''.remoteGain = u.regs.remoteGain := hseen .remoteGain (by decide)
    refine .event _ (hu ▸ h seen'' popped') fun pick ph l => ?_
    rw [← hgain]
    rfl
  cases hpop : popWithheld b.regs.jbTarget b.queue with
  | true =>
    refine .event ⟨n, .underrun :: .readRemote [.remoteGain] :: .mix :: todo, seen, []⟩
      (.event _ (hmix (b.flag .jbUnderrun) seen [] ?_) fun _ _ _ => rfl) fun _ _ _ => if_pos hpop
    rw [State.phaseRemote, if_pos hpop, State.mixRemote, List.map_nil, addFrames_nil]
    rfl
  | false =>
    have hnot := Bool.eq_false_iff.mp hpop
    refine .event _ (hmix (b.withQueue b.queue.tail) seen (popSamples (u32 n) b.queue) ?_) fun _ _ _ => if_neg hnot
    rw [State.phaseRemote, if_neg hnot]
    rfl

theorem Finishes.phaseZero (h : Finishes (b.phaseZero (u32 n)) ⟨n, todo, seen, popped⟩ t) :
    Finishes b ⟨n, .zero :: todo, seen, popped⟩ t := .event _ h fun _ _ _ => rfl

theorem Finishes.phaseRender (h : Finishes (b.phaseRender (u32 n)) ⟨n, todo, seen, popped⟩ t) :
    Finishes b ⟨n, .render :: todo, seen, popped⟩ t := .event _ h fun _ _ _ => rfl

theorem Finishes.phaseEmit (h : Finishes (b.phaseEmit (u32 n)) ⟨n, todo, seen, popped⟩ t) :
    Finishes b ⟨n, .emit :: todo, seen, popped⟩ t := .event _ h fun _ _ _ => rfl

/-- The events of a callback make of the block what its phases make of it. -/
theorem Finishes.callback (hfs : 0 < b.params.fs) :
    Finishes b ⟨n, callbackEvents, RegFile.blank, []⟩ (b.callbackWhole (u32 n)) := by
  refine .phaseZero <| .phaseSequencer hfs fun seen hoct => .phaseRequests hoct fun seen => ?_
  refine .phaseResize fun seen => .phaseLatch fun seen => .phaseRender <| .phaseRemote fun seen popped => .phaseEmit ?_
  unfold State.callbackWhole State.phasesAfterRequests
  exact .done

end

/-! ### The two runs -/

theorem withSched_of_eq {s : State} {l : List Turn} (h : s.sched = l) : s.withSched l = s := by
  subst h
  rfl

theorem OnlyNotes.sched {s t : State} (h : OnlyNotes s t) : t.sched = s.sched := by
  obtain ⟨-, -, -, -, -, -, hsched, -⟩ := h.fields
  exact hsched

theorem sched_phaseSequencer (s : State) (k : Nat) : (s.phaseSequencer k).sched = s.sched :=
  OnlyNotes.sched (onlyNotes_seqAdvance s k (clampedOctave s.regs.octave) s.regs.bpm s.regs.play)

theorem sched_phaseRequests (s : State) (oct : Int) : (s.phaseRequests oct).sched = s.sched := by
  have hons := OnlyNotes.sched (onlyNotes_requestOns ((s.regWrite .noteOnReq 0).regWrite .noteOffReq 0) s.regs.noteOnReq oct)
  exact (OnlyNotes.sched (onlyNotes_requestOffs _ s.regs.noteOffReq)).trans hons

theorem sched_phaseResize (s : State) (poly : Word) : (s.phaseResize poly).sched = s.sched := by
  rw [State.phaseResize_eq]

theorem sched_phaseRemote (s : State) (k : Nat) : (s.phaseRemote k).sched = s.sched := by
  rw [State.phaseRemote_eq]
  split <;> rfl

theorem sched_phasesAfterRequests (s : State) (k : Nat) : (s.phasesAfterRequests k).sched = s.sched := by
  rw [phasesAfterRequests_eq, sched_phaseRemote]
  exact sched_phaseResize s _

theorem sched_callbackWhole (s : State) (k : Nat) : (s.callbackWhole k).sched = s.sched := by
  rw [State.callbackWhole, State.callbackDone_sched, State.phaseEmit_eq]
  dsimp only
  rw [sched_phasesAfterRequests, sched_phaseRequests, sched_phaseSequencer, State.phaseZero_eq]

theorem decodeOn_callback (n : Word) : decodeOn .audio (encode (.callback n)) = .ok (.callback n) := by
  obtain ⟨hop, hrsv, haddr, hdata⟩ := formatC_fields .callback 0 n
  have hdecode : decode (formatC .callback 0 n) = .ok (.callback n) := by
    simp only [decode, hop, hrsv, haddr, hdata, opcodeOf_byte, ne_eq, not_true_eq_false, if_false]
  rw [decodeOn, encode, hdecode]
  rfl

/-- A CALLBACK at the head of AUDIO.cmd, none in progress, its turn next: the step is `exec` of it. -/
theorem step_callback {s : State} {n : Word} {ws : List Command} {turn : Turn} (hport : turn.port = .audio) (hph : s.ph = 0)
    (hcmd : s.io.audioCmd = encode (.callback n) :: ws) (rest : List Turn) :
    step (s.withSched (turn :: rest)) =
      exec (.callback n) (((s.withSched rest).withIo (s.io.setPending .audio ws)).withGrain turn.grain) := by
  have hstep := stepRunsDecodedInstruction (s.withSched (turn :: rest)) turn rest (encode (.callback n)) ws (.callback n) rfl
    fun _ => hph
  rw [hport] at hstep
  exact hstep hcmd (decodeOn_callback n)

/-- Settles O16: both runs take the CALLBACK off its port; the events then make of the block what the phases make of it. -/
theorem splitRunEqualsWholeRun : Obligations.SplitRunEqualsWholeRun := by
  intro s n ws pick rest hfs hph hn hcmd
  set b := ((s.withSched rest).withIo (s.io.setPending .audio ws)).withGrain .whole with hb
  have hwhole : step (s.withSched (.audio :: rest)) = .next (b.callbackWhole (u32 n)) :=
    (step_callback rfl hph hcmd rest).trans (exec_callback_whole (s := b) hph hn rfl)
  obtain ⟨k, hk⟩ := Finishes.callback (b := b) (n := n) hfs (fun j => pick (j + 1)) rest
  have hstart : step (s.withSched (eventTurns pick (k + 1) ++ rest)) =
      .next (b.inProgress ⟨n, callbackEvents, RegFile.blank, []⟩ (eventTurns (fun j => pick (j + 1)) k ++ rest)) := by
    rw [eventTurns_succ, List.cons_append]
    refine (step_callback rfl hph hcmd _).trans ?_
    exact exec_callback_split hph hn rfl
  have hsched : (b.callbackWhole (u32 n)).withSched rest = b.callbackWhole (u32 n) :=
    withSched_of_eq (sched_callbackWhole b (u32 n))
  refine ⟨k, ?_⟩
  rw [hwhole]
  exact (run_succ_of_step Sys2Proof.core hstart k).trans (hk.trans (congrArg _ hsched))

end Sys2Proof.Machine
end

section
/-!
PROOF. The decoder and the encoder of the command words (spec/30_encoding.md R101 to R112). A word decodes to a command
exactly when it is the word of that command (`decode_eq_ok_iff`), and to some command of an opcode exactly when its `op` is
that opcode's, `rsv` is 0 and the fields the opcode leaves unused are 0 (`exists_decode_opcode_iff`).
-/

namespace Sys2Proof.Machine

/-! ### The fields of a word of format C -/

section

variable (op : Opcode) (a : Addr) (d : Word)

@[simp] theorem opField_formatC : opField (formatC op a d) = op.byte :=
  have ⟨h, _⟩ := formatC_fields op a d
  h

@[simp] theorem rsvField_formatC : rsvField (formatC op a d) = 0 :=
  have ⟨_, h, _⟩ := formatC_fields op a d
  h

@[simp] theorem addrField_formatC : addrField (formatC op a d) = a :=
  have ⟨_, _, h, _⟩ := formatC_fields op a d
  h

@[simp] theorem dataField_formatC : dataField (formatC op a d) = d :=
  have ⟨_, _, _, h⟩ := formatC_fields op a d
  h

end

/-! ### Decoding an encoded command -/

theorem decode_encode (i : Instr) : decode (encode i) = .ok i := by
  cases i with
  | nop addr data | wr addr data | reset | rd addr | callback n | jbpush nbytes => simp [encode, decode, opcodeOf_byte]
  | noteon mask | noteoff mask =>
    obtain ⟨hhigh, hlow⟩ := extract_setWidth_mask mask
    simp [encode, decode, opcodeOf_byte, maskHighField_eq, maskField_eq, hhigh, hlow]

theorem decode_eq_ok_iff {w : Command} {i : Instr} : decode w = .ok i ↔ encode i = w :=
  ⟨encode_of_decode, fun h => h ▸ decode_encode i⟩

theorem decodeOn_of_decode {w : Command} {i : Instr} (h : decode w = .ok i) (p : Port) :
    decodeOn p w = if i.port = p then .ok i else .error .wrongPort := by
  unfold decodeOn
  rw [h]

theorem decodeTableWord_of_decode {w : Command} {i : Instr} (h : decode w = .ok i) :
    decodeTableWord 64 w.toNat = some i := by
  have hword : BitVec.ofNat 64 (w.toNat % 2 ^ 64) = w := by
    rw [Nat.mod_eq_of_lt w.isLt, BitVec.ofNat_toNat, BitVec.setWidth_eq]
  unfold decodeTableWord
  rw [if_neg (lt_irrefl 64), hword, h]

/-- Settles O1: the three views of the decoder, each from `decode_encode`. -/
theorem decodeEncodeRoundTrip : Obligations.DecodeEncodeRoundTrip := fun i =>
  have h := decode_encode i
  ⟨h, (decodeOn_of_decode h i.port).trans (if_pos rfl), decodeTableWord_of_decode h⟩

/-- Settles O2. -/
theorem encodeDecodeRoundTrip : Obligations.EncodeDecodeRoundTrip := fun _ _ => encode_of_decode

/-! ### The words of an opcode -/

/-- The fields an opcode does not use are 0 in `w` (R109, R111). -/
def UnusedZero (op : Opcode) (w : Command) : Prop :=
  match op with
  | .nop | .wr => True
  | .reset => addrField w = 0 ∧ dataField w = 0
  | .rd => dataField w = 0
  | .noteon | .noteoff => addrField w = 0 ∧ maskHighField w = 0
  | .callback | .jbpush => addrField w = 0

theorem opField_encode (i : Instr) : opField (encode i) = i.opcode.byte := by
  cases i <;> exact opField_formatC _ _ _

theorem rsvField_encode (i : Instr) : rsvField (encode i) = 0 := by
  cases i <;> exact rsvField_formatC _ _ _

theorem unusedZero_encode (i : Instr) : UnusedZero i.opcode (encode i) := by
  cases i with
  | nop addr data | wr addr data => trivial
  | reset => exact ⟨addrField_formatC _ _ _, dataField_formatC _ _ _⟩
  | rd addr => exact dataField_formatC _ _ _
  | noteon mask | noteoff mask =>
    refine ⟨addrField_formatC _ _ _, ?_⟩
    rw [maskHighField_eq, encode, dataField_formatC]
    exact (extract_setWidth_mask mask).1
  | callback n | jbpush nbytes => exact addrField_formatC _ _ _

/-- A word with the `op` of an opcode, `rsv` 0 and its unused fields 0 is the word of a command of that opcode. -/
theorem exists_encode_of_fields {op : Opcode} {w : Command} (hop : opField w = op.byte) (hrsv : rsvField w = 0)
    (hzero : UnusedZero op w) : ∃ i : Instr, encode i = w ∧ i.opcode = op := by
  have hword := formatC_of_fields w op hop hrsv
  cases op with
  | nop => exact ⟨.nop (addrField w) (dataField w), hword, rfl⟩
  | wr => exact ⟨.wr (addrField w) (dataField w), hword, rfl⟩
  | reset =>
    obtain ⟨haddr, hdata⟩ := hzero
    rw [haddr, hdata] at hword
    exact ⟨.reset, hword, rfl⟩
  | rd =>
    rw [show dataField w = 0 from hzero] at hword
    exact ⟨.rd (addrField w), hword, rfl⟩
  | noteon =>
    obtain ⟨haddr, hhigh⟩ := hzero
    rw [haddr, ← setWidth_maskField hhigh] at hword
    exact ⟨.noteon (maskField w), hword, rfl⟩
  | noteoff =>
    obtain ⟨haddr, hhigh⟩ := hzero
    rw [haddr, ← setWidth_maskField hhigh] at hword
    exact ⟨.noteoff (maskField w), hword, rfl⟩
  | callback =>
    rw [show addrField w = 0 from hzero] at hword
    exact ⟨.callback (dataField w), hword, rfl⟩
  | jbpush =>
    rw [show addrField w = 0 from hzero] at hword
    exact ⟨.jbpush (dataField w), hword, rfl⟩

theorem exists_decode_opcode_iff {op : Opcode} {w : Command} : (∃ i, decode w = .ok i ∧ i.opcode = op) ↔
    opField w = op.byte ∧ rsvField w = 0 ∧ UnusedZero op w := by
  simp only [decode_eq_ok_iff]
  constructor
  · rintro ⟨i, rfl, rfl⟩
    exact ⟨opField_encode i, rsvField_encode i, unusedZero_encode i⟩
  · rintro ⟨hop, hrsv, hzero⟩
    exact exists_encode_of_fields hop hrsv hzero

/-! ### The rows of the opcode map (R103) -/

theorem encode_row (i : Instr) : Laws.EncodeRow.Statement i := by
  cases i with
  | nop addr data => exact Laws.EncodeRow.nop addr data
  | reset => exact Laws.EncodeRow.reset
  | wr addr data => exact Laws.EncodeRow.wr addr data
  | rd addr => exact Laws.EncodeRow.rd addr
  | noteon mask => exact Laws.EncodeRow.noteon mask
  | noteoff mask => exact Laws.EncodeRow.noteoff mask
  | callback n => exact Laws.EncodeRow.callback n
  | jbpush nbytes => exact Laws.EncodeRow.jbpush nbytes

/-- A field that the mask covers is the row's. -/
theorem extract_of_masked {w mask bits : Command} (h : w &&& mask = bits) (k n : Nat)
    (hcover : mask.extractLsb' k n = BitVec.allOnes n) : w.extractLsb' k n = bits.extractLsb' k n := by
  rw [← h, BitVec.extractLsb'_and, hcover, BitVec.and_allOnes]

/-- The word a row selects has the fields of the row's opcode: each row's mask covers `op`, `rsv` and the unused fields. -/
theorem fields_of_row {w : Command} {r : TableRow} (hr : r ∈ opcodeTable) (h : w &&& r.mask = r.bits) :
    opField w = r.opcode.byte ∧ rsvField w = 0 ∧ UnusedZero r.opcode w := by
  have field := extract_of_masked h
  fin_cases hr <;> refine ⟨field 56 8 rfl, field 48 8 rfl, ?_⟩
  · trivial
  · exact ⟨field 32 16 rfl, field 0 32 rfl⟩
  · trivial
  · exact field 0 32 rfl
  · exact ⟨field 32 16 rfl, field 12 20 rfl⟩
  · exact ⟨field 32 16 rfl, field 12 20 rfl⟩
  · exact field 32 16 rfl
  · exact field 32 16 rfl

/-- Settles O3: the fields the mask covers are those the decoder tests, and the word of a command is in its own row. -/
theorem decodeSelectsTableRow : Obligations.DecodeSelectsTableRow := by
  intro w r hr
  refine ⟨⟨fun h => exists_decode_opcode_iff.mpr (fields_of_row hr h), ?_⟩, fun i hi hop => ?_⟩
  · rintro ⟨i, hi, hop⟩
    obtain rfl := encode_of_decode hi
    exact (encode_row i r hr).1.mpr hop.symm
  · exact ((encode_row i r hr).2 hop.symm).symm

/-! ### Illegal words (R110, R111) and ports (R112) -/

theorem opField_of_decode {w : Command} {i : Instr} (h : decode w = .ok i) : opField w = i.opcode.byte :=
  encode_of_decode h ▸ opField_encode i

/-- The bytes of R110 are those of the opcodes. -/
theorem mem_opBytes_iff {b : BitVec 8} :
    b ∈ [0x00#8, 0x01#8, 0x10#8, 0x11#8, 0x12#8, 0x13#8, 0x20#8, 0x30#8] ↔ ∃ op : Opcode, b = op.byte := by
  constructor
  · intro h
    fin_cases h
    exacts [⟨.nop, rfl⟩, ⟨.reset, rfl⟩, ⟨.wr, rfl⟩, ⟨.rd, rfl⟩, ⟨.noteon, rfl⟩, ⟨.noteoff, rfl⟩, ⟨.callback, rfl⟩,
      ⟨.jbpush, rfl⟩]
  · rintro ⟨op, rfl⟩
    cases op <;> decide

/-- The unused fields, by the `op` bytes that leave them unused (R111). -/
theorem unusedZero_iff {op : Opcode} {w : Command} (hop : opField w = op.byte) : UnusedZero op w ↔
    (opField w ∈ [0x01#8, 0x12#8, 0x13#8, 0x20#8, 0x30#8] → addrField w = 0) ∧
    (opField w ∈ [0x01#8, 0x11#8] → dataField w = 0) ∧
    (opField w ∈ [0x12#8, 0x13#8] → (dataField w).extractLsb' 12 20 = 0) := by
  cases op <;> simp [UnusedZero, hop, Opcode.byte, maskHighField_eq]

/-- The frame bound is CALLBACK's alone, and its frame count is the data field (R111). -/
theorem wellFormed_of_decode_iff {w : Command} {i : Instr} (h : decode w = .ok i) (p : Params) :
    i.wellFormed p = true ↔ (opField w = 0x20#8 → (dataField w).toNat ≤ p.maxFrames) := by
  rw [opField_of_decode h]
  cases i with
  | callback n =>
    obtain rfl := encode_of_decode h
    simp [Instr.wellFormed, Instr.opcode, Opcode.byte, encode]
  | _ => simp [Instr.wellFormed, Instr.opcode, Opcode.byte]

/-- Settles O4: a word decodes when its `op` is an opcode's, `rsv` is 0 and the unused fields are 0; the rest is the bound. -/
theorem illegalWordsExactly : Obligations.IllegalWordsExactly := by
  intro p w
  constructor
  · rintro ⟨i, hi, hwf⟩
    obtain ⟨hop, hrsv, hzero⟩ := exists_decode_opcode_iff.mp ⟨i, hi, rfl⟩
    obtain ⟨haddr, hdata, hmask⟩ := (unusedZero_iff hop).mp hzero
    exact ⟨mem_opBytes_iff.mpr ⟨_, hop⟩, hrsv, haddr, hdata, hmask, (wellFormed_of_decode_iff hi p).mp hwf⟩
  · rintro ⟨hmem, hrsv, haddr, hdata, hmask, hbound⟩
    obtain ⟨op, hop⟩ := mem_opBytes_iff.mp hmem
    obtain ⟨i, hi, -⟩ := exists_decode_opcode_iff.mpr ⟨hop, hrsv, (unusedZero_iff hop).mpr ⟨haddr, hdata, hmask⟩⟩
    exact ⟨i, hi, (wellFormed_of_decode_iff hi p).mpr hbound⟩

theorem decodeOn_eq_ok_iff {w : Command} {i : Instr} (h : decode w = .ok i) (p : Port) :
    decodeOn p w = .ok i ↔ i.port = p := by
  rw [decodeOn_of_decode h]
  split <;> simp [*]

/-- The port of a command, by the `op` byte of its word (R112). -/
theorem port_eq_iff (i : Instr) (p : Port) : i.port = p ↔
    (p = .ctrl ∧ i.opcode.byte ∈ [0x00#8, 0x01#8, 0x10#8, 0x11#8, 0x12#8, 0x13#8]) ∨
    (p = .audio ∧ i.opcode.byte = 0x20#8) ∨ (p = .net ∧ i.opcode.byte = 0x30#8) := by
  cases i <;> simp [Instr.port, Instr.opcode, Opcode.byte, eq_comm]

/-- Settles O5. -/
theorem portRights : Obligations.PortRights := by
  intro w p i h
  rw [opField_of_decode h, ← port_eq_iff i p]
  refine ⟨decodeOn_eq_ok_iff h p, ?_⟩
  rw [decodeOn_of_decode h]
  exact ite_eq_or_eq _ _ _

/-- Settles O6: each word is the encoding of its command. -/
theorem sampleWordsDecode : Obligations.SampleWordsDecode := by
  unfold Obligations.SampleWordsDecode
  simp only [decode_eq_ok_iff]
  decide

end Sys2Proof.Machine
end

section
/-!
PROOF. What an illegal word (spec/30_encoding.md R113), a NOP (49_host_commands.md R216) and the pseudo-instruction `cell`
(30_encoding.md R115) do.
-/

namespace Sys2Proof.Machine

/-! ### Illegal words -/

/-- A CALLBACK over MAX_FRAMES is an illegal word (R111, R113). -/
theorem exec_callback_oversize {s : State} {n : Word} (hph : s.ph = 0) (hn : s.params.maxFrames < n.toNat) :
    exec (.callback n) s = .next ((s.withGrain .whole).flag .illcmd) := by
  have hillegal : ¬ (Instr.callback n).wellFormed s.params = true := fun h => absurd (of_decide_eq_true h) (not_le.mpr hn)
  exact (if_neg (not_not.mpr hph)).trans (if_neg hillegal)

/-- Settles O10: the word is refused by the port, or it is the CALLBACK that its own arm refuses. -/
theorem illegalWordOnlySetsIllcmd : Obligations.IllegalWordOnlySetsIllcmd := by
  intro s turn rest w ws hsched htakes hpend hgrain hbad
  rcases hbad with ⟨e, hdec⟩ | ⟨n, hdec, hn⟩
  · exact (StepCase.illegal turn rest w ws e hsched htakes hpend hdec rfl).step_eq
  · have hph : s.ph = 0 := htakes (decodeOn_eq_ok hdec).1.symm
    refine (stepRunsDecodedInstruction s turn rest w ws _ hsched htakes hpend hdec).trans ?_
    refine (exec_callback_oversize (s := (s.taken turn rest ws).withGrain turn.grain) hph hn).trans ?_
    rw [← hgrain]
    rfl

/-! ### NOP -/

/-- Settles O18: a word with `op` 0 and `rsv` 0 is the word of the NOP with its fields. -/
theorem nopDoesNothing : Obligations.NopDoesNothing :=
  ⟨fun _ _ _ => rfl, fun w hop hrsv => decode_eq_ok_iff.mpr (formatC_of_fields w .nop hop hrsv)⟩

/-! ### cell -/

/-- RD at a register's address answers with what the register reads as (R219). -/
theorem exec_rd_addr (s : State) (r : RegName) : exec (.rd r.addr) s = .next (s.respond (s.regRead r)) := by
  simp only [exec, execRd, regAt_addr]

/-- WR at the address of a writable register is the write of that register (R218). -/
theorem exec_wr_addr (s : State) {r : RegName} (h : r.readOnly = false) (data : Word) :
    exec (.wr r.addr data) s = .next (s.writeReg r data) := by
  simp only [exec, execWr, regAt_addr, h, Bool.false_eq_true, if_false]

/-- Bit `k` of a pattern stored in a `mask12` register. -/
theorem getLsbD_and_mask12 (w : Word) {k : Nat} (hk : k < 12) : (w &&& 0xFFF#32).getLsbD k = w.getLsbD k := by
  have hone : (0xFFF#32).getLsbD k = true := by interval_cases k <;> rfl
  rw [BitVec.getLsbD_and, hone, Bool.and_true]

theorem getLsbD_one_shiftLeft (d : Nat) {k : Nat} (hk : k < 32) : (1#32 <<< d).getLsbD k = decide (k = d) := by
  rw [← BitVec.twoPow_eq, BitVec.getLsbD_twoPow]
  by_cases h : k = d
  · subst h
    simp [hk]
  · simp [h, Ne.symm h]

/-- The pattern `cell s, d, v` writes back when its read answered `old` (R115). -/
def cellPattern (d : Degree) (v : Bool) (old : Word) : Word :=
  (old &&& ~~~(1#32 <<< d.val)) ||| ((if v then 1#32 else 0#32) <<< d.val)

/-- It has `v` at bit `d` and the bits of `old` elsewhere. -/
theorem getLsbD_cellPattern (d : Degree) (v : Bool) (old : Word) {k : Nat} (hk : k < 32) :
    (cellPattern d v old).getLsbD k = if k = d.val then v else old.getLsbD k := by
  have hv : ((if v then 1#32 else 0#32) <<< d.val).getLsbD k = (v && decide (k = d.val)) := by
    cases v with
    | false => simp
    | true => exact getLsbD_one_shiftLeft d.val hk
  rw [cellPattern, BitVec.getLsbD_or, BitVec.getLsbD_and, BitVec.getLsbD_not, getLsbD_one_shiftLeft d.val hk, hv]
  by_cases h : k = d.val <;> simp [h, hk]

/-- The write of `cell` stores that pattern, its bits 31:12 dropped as for every grid register. -/
theorem exec_cellWrite (s : State) (k : Fin 16) (d : Degree) (v : Bool) (old : Word) :
    exec (cellWrite k d v old) s = .next (s.regWrite (.grid k) (cellPattern d v old &&& 0xFFF#32)) :=
  exec_wr_addr s (r := .grid k) rfl (cellPattern d v old)

/-- Settles O60: the read answers, the write stores the pattern with one bit replaced, and no other register changes. -/
theorem cellWriteSetsOneCell : Obligations.CellWriteSetsOneCell := by
  intro s step d v
  obtain ⟨hread, hother, hframe⟩ :=
    stores_regWrite s (r := .grid step) (cellPattern d v s.regs.grid[step] &&& 0xFFF#32) RegName.noConfusion
  refine ⟨exec_rd_addr s (.grid step), _, exec_cellWrite s step d v _, hframe, ?_, fun k hk hne => ?_, hother⟩
  · refine (congrArg (·.getLsbD d.val) hread).trans ?_
    rw [getLsbD_and_mask12 _ d.isLt, getLsbD_cellPattern d v _ (by omega), if_pos rfl]
  · refine (congrArg (·.getLsbD k) hread).trans ?_
    rw [getLsbD_and_mask12 _ hk, getLsbD_cellPattern d v _ (by omega), if_neg hne]

end Sys2Proof.Machine
end

section
/-!
PROOF. The oscillator bank (spec/41_oscillator_bank.md R131, R132, R137). A frame of a render advances each sub-oscillator
once (`frames_osc`), so a render is an iterated advance, whose wraps amount to one at the end (`iterate_advance`).
-/

namespace Sys2Proof.Machine

/-! ### One advance (R131, R132) -/

theorem bankAdvance_getElem (fs : Rat) (f : Exact) (o : Vector Osc 3) (j : Fin 3) :
    (bankAdvance fs f o)[j] = o[j].advance fs f := by
  fin_cases j <;> rfl

/-- Settles O42: each sub-oscillator is one advance on, and the value is the mean of the read-outs there. -/
theorem oscillatorSample : Obligations.OscillatorSample := by
  intro fs f o r p wave
  have hadvance (j : Fin 3) : r.1[j] = o[j].advance fs f := bankAdvance_getElem fs f o j
  have hread (j : Fin 3) : r.1[j].value.value = wave j := by
    have hp : (r.1[j].phase.plus (.rat r.1[j].phoff)).wrap.value = p j := by
      rw [Exact.value_wrap, Exact.value_plus, Exact.value_rat]
    have hwave := value_waveValue o[j].wave (r.1[j].phase.plus (.rat r.1[j].phoff)).wrap
    have hkept : r.1[j].wave = o[j].wave := by rw [hadvance, Osc.advance_wave]
    rw [hp] at hwave
    rw [Osc.value, hkept]
    exact hwave
  refine ⟨fun j => ⟨?_, ?_⟩, ?_, bankValue_mem r.1⟩
  · rw [hadvance]
    rfl
  · rw [hadvance, Osc.value_advance_phase, Osc.value_increment]
  · rw [← hread 0, ← hread 1, ← hread 2]
    exact value_bankValue r.1

/-! ### n advances (R161) -/

/-- Wrapping early does not change a later wrap, over the reals (R10). -/
theorem fract_fract_add (x y : ℝ) : Int.fract (Int.fract x + y) = Int.fract (x + y) :=
  Int.fract_eq_fract.mpr ⟨-⌊x⌋, by rw [Int.fract]; push_cast; ring⟩

/-- Each advance wraps, but a wrap before an addition does not change the wrap after it. -/
theorem Osc.iterate_advance (fs : Rat) (f : Exact) {o : Osc} (h : 0 ≤ o.phase.value ∧ o.phase.value < 1) (n : Nat) :
    ∃ x : Exact, (Osc.advance fs f)^[n] o = { o with phase := x } ∧
      x.value = Int.fract (o.phase.value + n * (o.increment fs f).value) := by
  induction n with
  | zero => exact ⟨o.phase, rfl, by simpa using (Int.fract_eq_self.mpr h).symm⟩
  | succ n ih =>
    obtain ⟨x, hiter, hx⟩ := ih
    refine ⟨({ o with phase := x }.advance fs f).phase, ?_, ?_⟩
    · rw [Function.iterate_succ_apply', hiter]
      rfl
    · have hinc : ({ o with phase := x } : Osc).increment fs f = o.increment fs f := rfl
      rw [Osc.value_advance_phase, hinc, hx, fract_fract_add]
      congr 1
      push_cast
      ring

/-- No frame changes the frequency, so every frame advances by the increment of the first. -/
theorem Voice.frames_osc (fs : Rat) (n : Nat) (v : Voice) (j : Fin 3) :
    (Voice.frames fs n v).1.osc[j] = (Osc.advance fs v.freq)^[n] v.osc[j] := by
  induction n generalizing v with
  | zero => rfl
  | succ n ih =>
    rw [Voice.frames, ih, Voice.frame_freq, Voice.frame_osc, bankAdvance_getElem, Function.iterate_succ_apply]

/-- The dirty step before the first frame touches the filter alone. -/
theorem Voice.render_osc (fs : Rat) (n : Nat) (v : Voice) (j : Fin 3) :
    (v.render fs n).1.osc[j] = (Osc.advance fs v.freq)^[n] v.osc[j] := by
  rw [Voice.render, Voice.frames_osc, Voice.refreshFilter_freq, Voice.refreshFilter_osc]

/-- Settles O43: a render advances a sub-oscillator n times. -/
theorem phaseAfterRender : Obligations.PhaseAfterRender := by
  intro fs n v j h
  obtain ⟨x, hiter, hx⟩ := Osc.iterate_advance fs v.freq h n
  rw [Voice.render_osc, hiter, ← Osc.value_increment]
  exact ⟨rfl, hx⟩

/-! ### The phases lie in [0,1) (R137) -/

theorem Voice.WF.osc {v : Voice} (h : v.WF) (j : Fin 3) : v.osc[j].WF := by
  obtain ⟨⟨h0, h1, h2⟩, -⟩ := h
  fin_cases j
  · exact h0
  · exact h1
  · exact h2

/-- CALLBACK keeps the voices well formed, whether it is held, runs, starts, or is an illegal word. -/
theorem State.Inv.exec_callback_voices {n : Word} {s t : State} (h : s.Inv) (hexec : exec (.callback n) s = .next t) :
    ∀ v ∈ t.voices, v.WF := by
  by_cases hph : s.ph = 0
  · exact (h.exec_callback (g := s.grain) hph hexec).1.voices
  · rw [exec_callback_busy hph] at hexec
    cases hexec
    exact h.voices

/-- Settles O44: the last thing that happened to a rendered phase is an advance, which wraps; CALLBACK keeps R29. -/
theorem phasesStayInUnitInterval : Obligations.PhasesStayInUnitInterval := by
  refine ⟨fun fs f o j => ?_, fun fs n v j hn => ?_, fun s t n h hexec v hv j => ?_⟩
  · have hadvance : (oscRenderSample fs f o).1[j] = o[j].advance fs f := bankAdvance_getElem fs f o j
    rw [hadvance]
    exact Osc.advance_phase_mem fs f _
  · obtain ⟨m, rfl⟩ := Nat.exists_eq_add_of_le' hn
    rw [Voice.render_osc, Function.iterate_succ_apply']
    exact Osc.advance_phase_mem fs v.freq _
  · obtain ⟨hphase, -⟩ := (h.exec_callback_voices hexec v hv).osc j
    exact hphase

end Sys2Proof.Machine
end

section
/-!
PROOF. The cascaded filter (spec/42_cascaded_filter.md R141, R142, R144 to R146). FLT.COEF is read off as five real
quotients over a0 = 1 + alpha; FLT.PROCESS as one signal passed from section to section (`cascadeSignal`).
-/

namespace Sys2Proof.Machine

/-! ### FLT.COEF by value (R141) -/

theorem effectiveCutoff_eq {fs : Rat} (h : 400 / 9 ≤ fs) (cutoff : Rat) :
    effectiveCutoff fs cutoff = max 20 (min cutoff (45 / 100 * fs)) := by
  have hratio : (9 / 20 : Rat) = 45 / 100 := by norm_num
  rw [effectiveCutoff, clamp_eq_max_min _ (by linarith), hratio]

theorem effectiveQ_eq (q : Rat) : effectiveQ q = max (1 / 10) (min q 10) := clamp_eq_max_min q (by norm_num)

/-- The numerators of R141, as reals. -/
noncomputable def numeratorValues (t : FilterType) (cs al : ℝ) : ℝ × ℝ × ℝ :=
  match t with
  | .low => ((1 - cs) / 2, 1 - cs, (1 - cs) / 2)
  | .band => (al, 0, -al)
  | .high => ((1 + cs) / 2, -(1 + cs), (1 + cs) / 2)

theorem value_numerators (t : FilterType) (cs al : Exact) :
    ((numerators t cs al).1.value, (numerators t cs al).2.1.value, (numerators t cs al).2.2.value) =
      numeratorValues t cs.value al.value := by
  cases t <;> simp [numerators, numeratorValues]

/-- The numerators over a0. -/
theorem value_filterCoeffs_b (fs : Rat) (t : FilterType) (cutoff q : Rat) :
    let n := numeratorValues t (cost (effectiveCutoff fs cutoff / fs)).value (filterAlpha fs cutoff q).value
    let a0 := 1 + (filterAlpha fs cutoff q).value
    (filterCoeffs fs t cutoff q).b0.value = n.1 / a0 ∧ (filterCoeffs fs t cutoff q).b1.value = n.2.1 / a0 ∧
      (filterCoeffs fs t cutoff q).b2.value = n.2.2 / a0 := by
  simp only [← value_numerators]
  simp [filterCoeffs]

/-- The right side does not name the type: a1 does not depend on it. -/
theorem value_filterCoeffs_a1 (fs : Rat) (t : FilterType) (cutoff q : Rat) :
    (filterCoeffs fs t cutoff q).a1.value =
      -2 * (cost (effectiveCutoff fs cutoff / fs)).value / (1 + (filterAlpha fs cutoff q).value) := by
  simp [filterCoeffs]

/-- Nor does a2. -/
theorem value_filterCoeffs_a2 (fs : Rat) (t : FilterType) (cutoff q : Rat) :
    (filterCoeffs fs t cutoff q).a2.value =
      (1 - (filterAlpha fs cutoff q).value) / (1 + (filterAlpha fs cutoff q).value) := by
  simp [filterCoeffs]

/-- Settles O49: each coefficient is its numerator over a0, with the two clamps as maxima of minima. -/
theorem filterCoefficients : Obligations.FilterCoefficients := by
  intro fs cutoff q t h c qq cs al n r
  have hc : effectiveCutoff fs cutoff = c := effectiveCutoff_eq h cutoff
  have hq : effectiveQ q = qq := effectiveQ_eq q
  have hcs : (cost (effectiveCutoff fs cutoff / fs)).value = cs := by
    rw [hc, value_cost, Rat.cast_div]
  have hal : (filterAlpha fs cutoff q).value = al := by
    rw [value_filterAlpha, hc, hq]
  have hn : numeratorValues t cs al = n := by cases t <;> rfl
  obtain ⟨hb0, hb1, hb2⟩ := value_filterCoeffs_b fs t cutoff q
  rw [hcs, hal, hn] at hb0 hb1 hb2
  exact ⟨hb0, hb1, hb2, by rw [value_filterCoeffs_a1, hcs, hal], by rw [value_filterCoeffs_a2, hal]⟩

/-! ### Stability and the gains at zero frequency (R146) -/

/-- The bound 1 + a2 on |a1|. -/
theorem one_add_a2_eq {al : ℝ} (h : 0 < al) : 1 + (1 - al) / (1 + al) = 2 / (1 + al) := by
  field_simp
  ring

/-- The denominator at zero frequency. -/
theorem denominator_sum_eq {al : ℝ} (h : 0 < al) (cs : ℝ) :
    1 + -2 * cs / (1 + al) + (1 - al) / (1 + al) = 2 * (1 - cs) / (1 + al) := by
  field_simp
  ring

/-- The two conditions of R146(b), from alpha above 0 and |cos(omega0)| below 1. -/
theorem section_stable {cs al : ℝ} (hal : 0 < al) (hcs : |cs| < 1) :
    |(1 - al) / (1 + al)| < 1 ∧ |-2 * cs / (1 + al)| < 1 + (1 - al) / (1 + al) := by
  have ha0 : 0 < 1 + al := by linarith
  constructor
  · rw [abs_div, abs_of_pos ha0, div_lt_one ha0, abs_lt]
    constructor <;> linarith
  · rw [one_add_a2_eq hal, abs_div, abs_of_pos ha0, abs_mul, abs_neg, abs_two]
    exact div_lt_div_of_pos_right (by linarith) ha0

/-- The numerators at zero frequency: of Low the denominator's sum before the division by a0, of Band and High 0. -/
theorem numeratorValues_sum (t : FilterType) (cs al : ℝ) :
    (numeratorValues t cs al).1 + (numeratorValues t cs al).2.1 + (numeratorValues t cs al).2.2 =
      if t = .low then 2 * (1 - cs) else 0 := by
  cases t <;> simp only [numeratorValues, reduceCtorEq, if_true, if_false] <;> ring

theorem value_filterCoeffs_b_sum (fs : Rat) (t : FilterType) (cutoff q : Rat) :
    let r := filterCoeffs fs t cutoff q
    r.b0.value + r.b1.value + r.b2.value =
      (if t = .low then 2 * (1 - (cost (effectiveCutoff fs cutoff / fs)).value) else 0) /
        (1 + (filterAlpha fs cutoff q).value) := by
  obtain ⟨hb0, hb1, hb2⟩ := value_filterCoeffs_b fs t cutoff q
  simp only [hb0, hb1, hb2, ← add_div, numeratorValues_sum]

/-- Settles O48: alpha is above 0 and |cos(omega0)| below 1 (R141), and the rest is arithmetic over a0. -/
theorem filterDcGain : Obligations.FilterDcGain := by
  intro fs cutoff q h low band high
  have hal := filterAlpha_pos h cutoff q
  have hcs := abs_cos_lt_one h cutoff
  have hden := denominator_sum_eq hal (cost (effectiveCutoff fs cutoff / fs)).value
  have ha1 (t : FilterType) := value_filterCoeffs_a1 fs t cutoff q
  have ha2 (t : FilterType) := value_filterCoeffs_a2 fs t cutoff q
  refine ⟨by linarith, fun t => ?_, ?_, ?_, ?_, ?_, rfl, rfl, rfl, rfl⟩
  · rw [ha1, ha2]
    exact section_stable hal hcs
  · rw [ha1, ha2, hden]
    exact div_pos (by linarith [(abs_lt.mp hcs).2]) (by linarith)
  · rw [ha1, ha2, hden, value_filterCoeffs_b_sum, if_pos rfl]
  · rw [value_filterCoeffs_b_sum, if_neg FilterType.noConfusion, zero_div]
  · rw [value_filterCoeffs_b_sum, if_neg FilterType.noConfusion, zero_div]

/-! ### FLT.PROCESS as a signal through the sections (R142) -/

theorem sectionStep_of_lt (c : Coeffs) {nst k : Nat} (h : k < nst) (st : StageState) (x : Exact) :
    sectionStep c nst k st x = (sectionShift st x (sectionOutput c st x), sectionOutput c st x) := if_pos h

theorem sectionStep_of_le (c : Coeffs) {nst k : Nat} (h : nst ≤ k) (st : StageState) (x : Exact) :
    sectionStep c nst k st x = (st, x) := if_neg (not_lt.mpr h)

theorem value_sectionOutput (c : Coeffs) (st : StageState) (x : Exact) : (sectionOutput c st x).value =
    c.b0.value * x.value + c.b1.value * st.x1.value + c.b2.value * st.x2.value - c.a1.value * st.y1.value -
      c.a2.value * st.y2.value := by
  simp only [sectionOutput, Exact.value_minus, Exact.value_plus, Exact.value_times]

/-- What enters section k; after the last section, what leaves the filter. -/
def cascadeSignal (c : Coeffs) (nst : Nat) (st : Vector StageState 4) (x : Exact) : Fin 5 → Exact :=
  Fin.induction (motive := fun _ => Exact) x fun k y => (sectionStep c nst k.val st[k] y).2

@[simp] theorem cascadeSignal_zero (c : Coeffs) (nst : Nat) (st : Vector StageState 4) (x : Exact) :
    cascadeSignal c nst st x 0 = x := rfl

theorem cascadeSignal_succ (c : Coeffs) (nst : Nat) (st : Vector StageState 4) (x : Exact) (k : Fin 4) :
    cascadeSignal c nst st x k.succ = (sectionStep c nst k.val st[k] (cascadeSignal c nst st x k.castSucc)).2 := rfl

/-- Each stage record is one step of its section on the signal that reaches it. -/
theorem filterProcess_getElem (c : Coeffs) (nst : Nat) (st : Vector StageState 4) (x : Exact) (k : Fin 4) :
    (filterProcess c nst st x).1[k] = (sectionStep c nst k.val st[k] (cascadeSignal c nst st x k.castSucc)).1 := by
  fin_cases k <;> rfl

theorem filterProcess_snd (c : Coeffs) (nst : Nat) (st : Vector StageState 4) (x : Exact) :
    (filterProcess c nst st x).2 = cascadeSignal c nst st x (Fin.last 4) := rfl

/-- A section in use records its output as y1, and hands it on. -/
theorem cascadeSignal_succ_of_lt (c : Coeffs) {nst : Nat} (st : Vector StageState 4) (x : Exact) {k : Fin 4}
    (h : k.val < nst) : cascadeSignal c nst st x k.succ = (filterProcess c nst st x).1[k].y1 := by
  rw [cascadeSignal_succ, filterProcess_getElem, sectionStep_of_lt c h]
  rfl

/-- From section `nst` on the signal passes unchanged. -/
theorem cascadeSignal_of_le (c : Coeffs) {nst : Nat} (st : Vector StageState 4) (x : Exact) {j : Fin 5}
    (hj : j.val = nst) (k : Fin 5) (h : j ≤ k) : cascadeSignal c nst st x k = cascadeSignal c nst st x j := by
  induction k using Fin.induction with
  | zero => rw [Fin.le_zero_iff.mp h]
  | succ k ih =>
    rcases h.eq_or_lt with rfl | hlt
    · rfl
    · have hk : j ≤ k.castSucc := Fin.le_castSucc_iff.mpr hlt
      rw [cascadeSignal_succ, sectionStep_of_le c (hj ▸ hk), ih hk]

/-- Settles O50: the signal into section k is x or the output section k - 1 recorded, and it stops changing at `nst`. -/
theorem filterCascade : Obligations.FilterCascade := by
  intro c nst st x hnst r input
  have hinput (k : Fin 4) (hk : k.val < nst) : input k = cascadeSignal c nst st x k.castSucc := by
    cases k using Fin.cases with
    | zero => rfl
    | succ j => exact (cascadeSignal_succ_of_lt c st x (k := j.castSucc) (Nat.lt_of_succ_lt hk)).symm
  refine ⟨fun k hk => ?_, fun k hk => ?_, fun h => ?_, fun k hk => ?_⟩
  · exact (filterProcess_getElem c nst st x k).trans (by rw [sectionStep_of_le c hk])
  · have hstage : r.1[k] = sectionShift st[k] (input k) (sectionOutput c st[k] (input k)) := by
      rw [hinput k hk]
      exact (filterProcess_getElem c nst st x k).trans (by rw [sectionStep_of_lt c hk])
    rw [hstage]
    exact ⟨rfl, value_sectionOutput c st[k] (input k)⟩
  · exact cascadeSignal_of_le c st x (j := 0) h.symm (Fin.last 4) (Fin.zero_le _)
  · exact (cascadeSignal_of_le c st x (j := k.succ) hk _ (Fin.le_last _)).trans
      (cascadeSignal_succ_of_lt c st x (by omega))

/-! ### FLT.SET and the recomputation (R144, R145) -/

theorem stageCount_eq (w : Word) : stageCount w = (max 0 (min w.toInt 4)).toNat :=
  congrArg Int.toNat (clampInt_eq_max_min w.toInt (by decide))

/-- FLT.SET of the stored values changes nothing. -/
theorem Voice.filterSet_of_eq {v : Voice} {t cu qq ns : Word}
    (h : (v.ftype, v.cutoff, v.q, v.nst) = (filterTypeOf t, f32val cu, f32val qq, stageCount ns)) :
    v.filterSet t cu qq ns = v := by
  simp only [Prod.mk.injEq] at h
  exact if_pos h

/-- FLT.SET of other values stores them and sets `dirty`. -/
theorem Voice.filterSet_of_ne {v : Voice} {t cu qq ns : Word}
    (h : (v.ftype, v.cutoff, v.q, v.nst) ≠ (filterTypeOf t, f32val cu, f32val qq, stageCount ns)) :
    v.filterSet t cu qq ns =
      { v with ftype := filterTypeOf t, cutoff := f32val cu, q := f32val qq, nst := stageCount ns, dirty := true } := by
  simp only [ne_eq, Prod.mk.injEq] at h
  exact if_neg h

theorem Voice.refreshFilter_of_dirty {v : Voice} (h : v.dirty = true) (fs : Rat) :
    v.refreshFilter fs = { v with
      coeffs := filterCoeffs fs v.ftype v.cutoff v.q
      st := Vector.replicate 4 StageState.zero
      dirty := false } := if_pos h

theorem Voice.refreshFilter_of_clean {v : Voice} (h : v.dirty = false) (fs : Rat) : v.refreshFilter fs = v :=
  if_neg (ne_true_of_eq_false h)

/-- After the recomputation there is nothing to recompute. -/
theorem Voice.refreshFilter_idem (fs : Rat) (v : Voice) : (v.refreshFilter fs).refreshFilter fs = v.refreshFilter fs :=
  Voice.refreshFilter_of_clean (v.refreshFilter_dirty fs) fs

/-- The frames of a render leave `dirty` and the coefficients alone. -/
theorem Voice.frames_dirty_coeffs (fs : Rat) (n : Nat) (v : Voice) :
    (Voice.frames fs n v).1.dirty = v.dirty ∧ (Voice.frames fs n v).1.coeffs = v.coeffs :=
  Voice.frames_induction (P := fun u => u.dirty = v.dirty ∧ u.coeffs = v.coeffs) (fun _ h => h) n v ⟨rfl, rfl⟩

/-- The recomputation is the first thing a render does, so a render after it is the same render. -/
theorem Voice.render_refreshFilter (fs : Rat) (n : Nat) (v : Voice) :
    (v.refreshFilter fs).render fs n = v.render fs n :=
  congrArg (Voice.frames fs n) (v.refreshFilter_idem fs)

theorem Voice.render_dirty (fs : Rat) (n : Nat) (v : Voice) : (v.render fs n).1.dirty = false :=
  (Voice.frames_dirty_coeffs fs n _).1.trans (v.refreshFilter_dirty fs)

theorem Voice.render_coeffs (fs : Rat) (n : Nat) (v : Voice) :
    (v.render fs n).1.coeffs = (v.refreshFilter fs).coeffs :=
  (Voice.frames_dirty_coeffs fs n _).2

/-- The reclamation of a voice clears its note at most. -/
theorem Voice.reclaim_eq (eps : Rat) (v : Voice) : ∃ note : Option Degree, v.reclaim eps = { v with note := note } := by
  unfold Voice.reclaim
  split
  · exact ⟨none, rfl⟩
  · exact ⟨v.note, rfl⟩

/-- A voice not active at the start of the block is not rendered (R175). -/
theorem Voice.mixInto_of_inactive {p : Params} {v : Voice} (h : v.active p.eps = false) (n : Nat) (out : List Exact) :
    v.mixInto p n out = (v.reclaim p.eps, out) := if_neg (ne_true_of_eq_false h)

/-- Settles O51: both branches of FLT.SET and of the recomputation, and the turn of a voice that is not rendered. -/
theorem filterSetAndRefresh : Obligations.FilterSetAndRefresh := by
  refine ⟨fun v t cu qq ns => ?_, rfl, rfl, rfl, fun fs n v => ⟨v.render_dirty fs n, fun h => ?_, fun h => ?_⟩,
    fun p n v out h => ?_⟩
  · rw [← stageCount_eq]
    exact ⟨Voice.filterSet_of_eq, Voice.filterSet_of_ne⟩
  · rw [← v.render_refreshFilter, Voice.refreshFilter_of_dirty h, StageState.zero, Exact.zero]
  · rw [Voice.render_coeffs, Voice.refreshFilter_of_clean h]
  · obtain ⟨note, hnote⟩ := v.reclaim_eq p.eps
    rw [Voice.mixInto_of_inactive h, hnote]
    exact ⟨rfl, rfl, rfl, rfl⟩

end Sys2Proof.Machine
end

section
/-!
PROOF. The envelope (spec/43_envelope.md R150 to R156). One lemma per row of the transition table; while Attack or
Release takes no transition, k ticks add the increment k times (`Envelope.ramp`), so the attack and the release are
straight lines up to the tick that reaches 1 or 0.
-/

namespace Sys2Proof.Machine

/-! ### The transitions, row by row (R150) -/

theorem Envelope.noteOff_of_idle {e : Envelope} (h : e.stage = .idle) (fs : Rat) : e.noteOff fs = e := if_pos h

theorem Envelope.noteOff_of_ne_idle {e : Envelope} (h : e.stage ≠ .idle) (fs : Rat) :
    e.noteOff fs = { e with stage := .release, inc := -e.level / samples fs e.releaseT } := if_neg h

theorem Envelope.tick_of_idle {e : Envelope} (h : e.stage = .idle) (fs : Rat) : e.tick fs = e := by
  simp only [Envelope.tick, h]

theorem Envelope.tick_of_sustain {e : Envelope} (h : e.stage = .sustain) (fs : Rat) : e.tick fs = e := by
  simp only [Envelope.tick, h]

theorem Envelope.tick_attack_of_lt {e : Envelope} (h : e.stage = .attack) (c : e.level + e.inc < 1) (fs : Rat) :
    e.tick fs = { e with level := e.level + e.inc } := by
  simp only [Envelope.tick, h]
  exact if_neg (not_le.mpr c)

theorem Envelope.tick_attack_of_ge {e : Envelope} (h : e.stage = .attack) (c : 1 ≤ e.level + e.inc) (fs : Rat) :
    e.tick fs = { e with stage := .decay, level := 1, inc := -(1 - e.sustainL) / samples fs e.decayT } := by
  simp only [Envelope.tick, h]
  exact if_pos c

theorem Envelope.tick_decay_of_gt {e : Envelope} (h : e.stage = .decay) (c : e.sustainL < e.level + e.inc) (fs : Rat) :
    e.tick fs = { e with level := e.level + e.inc } := by
  simp only [Envelope.tick, h]
  exact if_neg (not_le.mpr c)

theorem Envelope.tick_decay_of_le {e : Envelope} (h : e.stage = .decay) (c : e.level + e.inc ≤ e.sustainL) (fs : Rat) :
    e.tick fs = { e with stage := .sustain, level := e.sustainL, inc := 0 } := by
  simp only [Envelope.tick, h]
  exact if_pos c

theorem Envelope.tick_release_of_pos {e : Envelope} (h : e.stage = .release) (c : 0 < e.level + e.inc) (fs : Rat) :
    e.tick fs = { e with level := e.level + e.inc } := by
  simp only [Envelope.tick, h]
  exact if_neg (not_le.mpr c)

theorem Envelope.tick_release_of_le {e : Envelope} (h : e.stage = .release) (c : e.level + e.inc ≤ 0) (fs : Rat) :
    e.tick fs = { e with stage := .idle, level := 0, inc := 0 } := by
  simp only [Envelope.tick, h]
  exact if_pos c

/-- Settles O45: one lemma per row. -/
theorem envelopeTransitionTable : Obligations.EnvelopeTransitionTable := by
  intro fs e m
  have hsamples (t : Rat) : m t = samples fs t := (samples_eq_max fs t).symm
  simp only [hsamples]
  exact ⟨rfl, fun h => e.noteOff_of_idle h fs, fun h => e.noteOff_of_ne_idle h fs,
    fun h => h.elim (fun hidle => e.tick_of_idle hidle fs) (fun hsus => e.tick_of_sustain hsus fs),
    fun h c => e.tick_attack_of_lt h c fs, fun h c => e.tick_attack_of_ge h c fs,
    fun h c => e.tick_decay_of_gt h c fs, fun h c => e.tick_decay_of_le h c fs,
    fun h c => e.tick_release_of_pos h c fs, fun h c => e.tick_release_of_le h c fs⟩

/-! ### k ticks without a transition -/

/-- The envelope k increments on, in the same stage. -/
def Envelope.ramp (e : Envelope) (k : Nat) : Envelope := { e with level := e.level + k * e.inc }

theorem Envelope.ramp_zero (e : Envelope) : e.ramp 0 = e := by
  simp [Envelope.ramp]

theorem Envelope.ramp_level_add_inc (e : Envelope) (k : Nat) :
    (e.ramp k).level + (e.ramp k).inc = e.level + (k + 1 : Nat) * e.inc := by
  simp only [Envelope.ramp]
  push_cast
  ring

/-- One more increment is what a tick that takes no transition does to the ramp. -/
theorem Envelope.ramp_succ (e : Envelope) (k : Nat) :
    e.ramp (k + 1) = { e.ramp k with level := (e.ramp k).level + (e.ramp k).inc } := by
  rw [Envelope.ramp_level_add_inc]
  rfl

theorem Envelope.iterate_tick_eq_ramp {fs : Rat} {e : Envelope} {k : Nat}
    (hstep : ∀ j < k, (e.ramp j).tick fs = e.ramp (j + 1)) : (Envelope.tick fs)^[k] e = e.ramp k := by
  induction k with
  | zero => exact e.ramp_zero.symm
  | succ k ih =>
    rw [Function.iterate_succ_apply', ih fun j hj => hstep j (hj.trans k.lt_succ_self), hstep k k.lt_succ_self]

/-- A rising ramp below 1 was below 1 all along. -/
theorem Envelope.iterate_tick_attack {e : Envelope} (h : e.stage = .attack) (hinc : 0 ≤ e.inc) (fs : Rat) {k : Nat}
    (c : e.level + k * e.inc < 1) : (Envelope.tick fs)^[k] e = e.ramp k := by
  refine Envelope.iterate_tick_eq_ramp fun j hj => ?_
  have hle : (j + 1 : Nat) * e.inc ≤ k * e.inc := mul_le_mul_of_nonneg_right (Nat.cast_le.mpr hj) hinc
  have hbelow : (e.ramp j).level + (e.ramp j).inc < 1 := by
    rw [e.ramp_level_add_inc]
    linarith
  rw [(e.ramp j).tick_attack_of_lt h hbelow, ← e.ramp_succ]

/-- A falling ramp above 0 was above 0 all along. -/
theorem Envelope.iterate_tick_release {e : Envelope} (h : e.stage = .release) (hinc : e.inc ≤ 0) (fs : Rat) {k : Nat}
    (c : 0 < e.level + k * e.inc) : (Envelope.tick fs)^[k] e = e.ramp k := by
  refine Envelope.iterate_tick_eq_ramp fun j hj => ?_
  have hle : k * e.inc ≤ (j + 1 : Nat) * e.inc := mul_le_mul_of_nonpos_right (Nat.cast_le.mpr hj) hinc
  have habove : 0 < (e.ramp j).level + (e.ramp j).inc := by
    rw [e.ramp_level_add_inc]
    linarith
  rw [(e.ramp j).tick_release_of_pos h habove, ← e.ramp_succ]

/-- The tick at which the falling ramp meets 0 goes to Idle, and Idle stays. -/
theorem Envelope.iterate_tick_release_idle {e : Envelope} (h : e.stage = .release) (hlevel : 0 < e.level)
    (hinc : e.inc ≤ 0) (fs : Rat) {k : Nat} (c : e.level + k * e.inc ≤ 0) :
    (Envelope.tick fs)^[k] e = { e with stage := .idle, level := 0, inc := 0 } := by
  induction k with
  | zero =>
    rw [Nat.cast_zero, zero_mul, add_zero] at c
    exact absurd hlevel c.not_gt
  | succ k ih =>
    rw [Function.iterate_succ_apply']
    rcases le_or_gt (e.level + k * e.inc) 0 with hidle | hramp
    · rw [ih hidle]
      rfl
    · rw [← e.ramp_level_add_inc] at c
      rw [e.iterate_tick_release h hinc fs hramp, (e.ramp k).tick_release_of_le h c]
      rfl

/-! ### Release and attack (R156) -/

/-- The level k increments after a note-off (R152). -/
theorem release_level_eq (level m : Rat) (k : Nat) : level + k * (-level / m) = level * (1 - k / m) := by ring

/-- Settles O46: the line L (1 - k / m) is above 0 as long as k is below m. -/
theorem releaseRampReachesZero : Obligations.ReleaseRampReachesZero := by
  intro fs e k hidle hlevel m
  have hm : 0 < m := lt_max_of_lt_left one_pos
  have hnote : e.noteOff fs = { e with stage := .release, inc := -e.level / m } := by
    rw [e.noteOff_of_ne_idle hidle, samples_eq_max]
  have hinc : -e.level / m ≤ 0 := div_nonpos_of_nonpos_of_nonneg (neg_nonpos.mpr hlevel.le) hm.le
  rw [hnote]
  constructor
  · intro hk
    have hpos : 0 < e.level * (1 - k / m) := mul_pos hlevel (sub_pos.mpr ((div_lt_one hm).mpr hk))
    rw [← release_level_eq] at hpos ⊢
    exact Envelope.iterate_tick_release rfl hinc fs hpos
  · intro hk
    have hnonpos : e.level * (1 - k / m) ≤ 0 :=
      mul_nonpos_of_nonneg_of_nonpos hlevel.le (sub_nonpos.mpr ((one_le_div hm).mpr hk))
    rw [← release_level_eq] at hnonpos
    exact Envelope.iterate_tick_release_idle (e := { e with stage := .release, inc := -e.level / m }) rfl hlevel hinc fs
      hnonpos

/-- Settles O47: the line L + k / m up to its last point below 1, and the tick from there. -/
theorem attackRampReachesOne : Obligations.AttackRampReachesOne := by
  intro fs e k m
  have hm : 0 < m := lt_max_of_lt_left one_pos
  have hnote : e.noteOn fs = { e with stage := .attack, inc := 1 / m } := by
    rw [Envelope.noteOn, samples_eq_max]
  have hramp (hk : e.level + k / m < 1) : (Envelope.tick fs)^[k] (e.noteOn fs) = (e.noteOn fs).ramp k := by
    rw [← mul_one_div] at hk
    rw [hnote]
    exact Envelope.iterate_tick_attack rfl (one_div_pos.mpr hm).le fs hk
  constructor
  · intro hk
    rw [hramp hk, hnote, ← mul_one_div (k : Rat)]
    rfl
  · intro hk hreach
    have hcross : 1 ≤ ((e.noteOn fs).ramp k).level + ((e.noteOn fs).ramp k).inc := by
      rw [Envelope.ramp_level_add_inc, hnote, mul_one_div]
      exact hreach
    rw [Function.iterate_succ_apply', hramp hk, Envelope.tick_attack_of_ge rfl hcross, ← samples_eq_max]
    rfl

end Sys2Proof.Machine
end

section
/-!
PROOF. The voice pool (spec/45_voice_pool.md R171 to R175). The two searches of a note-on are determined by what they
look for (`freeIndex_eq_some`, `lruIndex_eq`), so the voice taken is the one R173 describes. The mix is a map over the
voices, and a sum over those rendered in each frame of OUT (`mixVoices_fst`, `frameValue_mixVoices`).
-/

namespace Sys2Proof.Machine

/-! ### FREQ (R171) -/

theorem value_noteFreq (oct : Int) (d : Degree) : (noteFreq oct d).value =
    440 * (2 : ℝ) ^ ((((oct + 1) * 12 + (d.val : Int) - 69 : Int) : ℝ) / 12) := by
  simp [noteFreq, Config.a4Hz]

theorem value_noteFreq_pos (oct : Int) (d : Degree) : 0 < (noteFreq oct d).value := by
  rw [value_noteFreq]
  positivity

/-- Twelve semitones up add 1 to the exponent. -/
theorem value_noteFreq_octave_succ (oct : Int) (d : Degree) :
    (noteFreq (oct + 1) d).value = 2 * (noteFreq oct d).value := by
  have hexp : (((oct + 1 + 1) * 12 + (d.val : Int) - 69 : Int) : ℝ) / 12 =
      (((oct + 1) * 12 + (d.val : Int) - 69 : Int) : ℝ) / 12 + 1 := by
    push_cast
    ring
  rw [value_noteFreq, value_noteFreq, hexp, Real.rpow_add_one two_ne_zero]
  ring

/-- EXP2 at an integer is that power of two (R15). -/
theorem exp2_intCast (k : Int) : exp2 (k : Rat) = .rat (pow2 k) := by
  rw [exp2, Exact.scaled, if_pos (.inr (Rat.den_intCast k)), Rat.num_intCast, one_mul]

/-- Degree 9 is A: its distance from A4 is a whole number of octaves. -/
theorem noteFreq_nine (oct : Int) : noteFreq oct 9 = .rat (440 * pow2 (oct - 4)) := by
  have hexp : (((oct + 1) * 12 + ((9 : Degree).val : Int) - 69 : Int) : Rat) / 12 = ((oct - 4 : Int) : Rat) := by
    have hnine : (9 : Degree).val = 9 := rfl
    rw [hnine]
    push_cast
    ring
  rw [noteFreq, hexp, exp2_intCast]
  rfl

/-- Settles O57: the exact points are the octaves of A4. -/
theorem noteFrequency : Obligations.NoteFrequency := by
  refine ⟨fun oct d => ⟨value_noteFreq oct d, value_noteFreq_pos oct d, value_noteFreq_octave_succ oct d⟩,
    ?_, ?_, ?_, ?_⟩ <;>
    rw [noteFreq_nine] <;> norm_num [pow2_eq_zpow]

/-! ### The two searches of a note-on (R173) -/

theorem Voice.free_iff (eps : Rat) (v : Voice) : v.free eps = true ↔ v.note = none ∧ v.active eps = false := by
  simp [Voice.free]

theorem freeIndex_eq_none {eps : Rat} {vs : List Voice} (h : ∀ v ∈ vs, v.free eps = false) :
    freeIndex eps vs = none := by
  cases hi : freeIndex eps vs with
  | none => rfl
  | some i =>
    obtain ⟨⟨v, hv, hfree⟩, -⟩ := freeIndex_spec hi
    exact absurd hfree (ne_true_of_eq_false (h v (List.mem_of_getElem? hv)))

/-- The first search finds the lowest free voice, and there is only one such. -/
theorem freeIndex_eq_some {eps : Rat} {vs : List Voice} {i : Nat} {v : Voice} (hv : vs[i]? = some v)
    (hfree : v.free eps = true) (hlow : ∀ j < i, ∀ u, vs[j]? = some u → u.free eps = false) :
    freeIndex eps vs = some i := by
  cases hj : freeIndex eps vs with
  | none => exact absurd hfree (ne_true_of_eq_false (freeIndex_none hj v (List.mem_of_getElem? hv)))
  | some j =>
    obtain ⟨⟨u, hu, hufree⟩, hjlow⟩ := freeIndex_spec hj
    rcases lt_trichotomy j i with hlt | rfl | hgt
    · exact absurd hufree (ne_true_of_eq_false (hlow j hlt u hu))
    · rfl
    · exact absurd hfree (ne_true_of_eq_false (hjlow i hgt v hv))

theorem minLastUsed_eq {vs : List Voice} {v : Voice} (hv : v ∈ vs)
    (hmin : ∀ u ∈ vs, v.lastUsed.toNat ≤ u.lastUsed.toNat) : minLastUsed vs = v.lastUsed.toNat := by
  obtain ⟨u, hu, heq⟩ := minLastUsed_mem (List.ne_nil_of_mem hv)
  exact le_antisymm (minLastUsed_le v hv) (heq ▸ hmin u hu)

/-- The second search finds the lowest voice with the least stamp. -/
theorem lruIndex_eq {vs : List Voice} {i : Nat} {v : Voice} (hv : vs[i]? = some v)
    (hmin : ∀ u ∈ vs, v.lastUsed.toNat ≤ u.lastUsed.toNat)
    (hlow : ∀ j < i, ∀ u, vs[j]? = some u → v.lastUsed.toNat < u.lastUsed.toNat) : lruIndex vs = i := by
  obtain ⟨hi, rfl⟩ := List.getElem?_eq_some_iff.mp hv
  rw [lruIndex, minLastUsed_eq (List.getElem_mem hi) hmin, List.findIdx_eq hi]
  refine ⟨beq_self_eq_true _, fun j hj => ?_⟩
  rw [beq_eq_false_iff_ne]
  exact (hlow j hj _ (List.getElem?_eq_getElem (hj.trans hi))).ne'

/-! ### POOL.NOTE_ON (R173) -/

/-- Of the voices a note-on changes the one its searches end at. -/
theorem poolNoteOn_voices_of_victim {s : State} {i : Nat} {v : Voice} (hv : s.voices[i]? = some v)
    (hvictim : victimIndex s.params.eps s.voices = i) (d : Degree) (oct : Int) :
    (s.poolNoteOn d oct).voices = s.voices.set i (v.take s.params.fs d oct (s.tick + 1)) := by
  rw [State.poolNoteOn_eq]
  dsimp only
  rw [hvictim, List.modify_eq_set_getElem?, hv]
  rfl

theorem poolNoteOn_regs_of_free {s : State} {i : Nat} (h : freeIndex s.params.eps s.voices = some i) (d : Degree)
    (oct : Int) : (s.poolNoteOn d oct).regs = s.regs := by
  rw [State.poolNoteOn_eq, h]
  rfl

theorem poolNoteOn_regs_of_steal {s : State} (h : freeIndex s.params.eps s.voices = none) (d : Degree) (oct : Int) :
    (s.poolNoteOn d oct).regs = { s.regs with status := s.regs.status ||| StatusFlag.steal.mask } := by
  rw [State.poolNoteOn_eq, h]
  rfl

theorem poolNoteOn_tick (s : State) (d : Degree) (oct : Int) : (s.poolNoteOn d oct).tick = s.tick + 1 := by
  rw [State.poolNoteOn_eq]

/-- A note-on changes the voices, TICK and the registers alone. -/
theorem poolNoteOn_frame (s : State) (d : Degree) (oct : Int) :
    s.poolNoteOn d oct = ((s.withVoices (s.poolNoteOn d oct).voices).withTick (s.poolNoteOn d oct).tick).withRegs
      (s.poolNoteOn d oct).regs := by
  rw [State.poolNoteOn_eq]
  rfl

/-- Settles O39: with a free voice the first search ends at the lowest, without one the second at the least recent. -/
theorem noteOnAllocates : Obligations.NoteOnAllocates := by
  intro s d oct i v free hv hchoice
  have hnotfree (u : Voice) : ¬ free u ↔ u.free s.params.eps = false := by
    rw [Bool.eq_false_iff, Ne, Voice.free_iff]
  have hsearch : victimIndex s.params.eps s.voices = i ∧ (free v → (s.poolNoteOn d oct).regs = s.regs) ∧
      (¬ free v → (s.poolNoteOn d oct).regs =
        { s.regs with status := s.regs.status ||| StatusFlag.steal.mask }) := by
    rcases hchoice with ⟨hfree, hlow⟩ | ⟨hnone, hmin, hlow⟩
    · have hindex := freeIndex_eq_some hv ((v.free_iff s.params.eps).mpr hfree)
        fun j hj u hu => (hnotfree u).mp (hlow j hj u hu)
      refine ⟨?_, fun _ => poolNoteOn_regs_of_free hindex d oct, fun hnot => absurd hfree hnot⟩
      rw [victimIndex, hindex, Option.getD_some]
    · have hindex := freeIndex_eq_none fun u hu => (hnotfree u).mp (hnone u hu)
      refine ⟨?_, fun hfree => absurd hfree (hnone v (List.mem_of_getElem? hv)),
        fun _ => poolNoteOn_regs_of_steal hindex d oct⟩
      rw [victimIndex, hindex, Option.getD_none, lruIndex_eq hv hmin hlow]
  obtain ⟨hvictim, hkept, hsteal⟩ := hsearch
  exact ⟨⟨noteFreq oct d, value_noteFreq oct d, poolNoteOn_voices_of_victim hv hvictim d oct⟩,
    poolNoteOn_tick s d oct, hkept, hsteal, poolNoteOn_frame s d oct⟩

/-! ### POOL.NOTE_OFF (R174) -/

theorem Voice.releaseIf_of_match {p : Params} {d : Degree} {v : Voice} (h : v.active p.eps = true ∧ v.note = some d) :
    v.releaseIf p d = { v with released := true, env := v.env.noteOff p.fs } := if_pos h

theorem Voice.releaseIf_of_not_match {p : Params} {d : Degree} {v : Voice}
    (h : ¬ (v.active p.eps = true ∧ v.note = some d)) : v.releaseIf p d = v := if_neg h

theorem poolNoteOff_voices_getElem? {s : State} {i : Nat} {v : Voice} (hv : s.voices[i]? = some v) (d : Degree) :
    (s.poolNoteOff d).voices[i]? = some (v.releaseIf s.params d) := by
  rw [State.poolNoteOff_eq, List.getElem?_map, hv]
  rfl

theorem poolNoteOff_nv (s : State) (d : Degree) : (s.poolNoteOff d).nv = s.nv := by
  rw [State.poolNoteOff_eq]
  exact List.length_map _

/-- Settles O40: voice by voice, by whether it matches and by the stage of its envelope. -/
theorem noteOffReleasesEveryMatch : Obligations.NoteOffReleasesEveryMatch := by
  intro s d
  refine ⟨rfl, poolNoteOff_nv s d, fun i v hv => ⟨fun hmatch hstage => ?_, fun hmatch hidle => ?_, fun hnot => ?_⟩⟩
  · rw [poolNoteOff_voices_getElem? hv, Voice.releaseIf_of_match hmatch, Envelope.noteOff_of_ne_idle hstage]
    rfl
  · rw [poolNoteOff_voices_getElem? hv, Voice.releaseIf_of_match hmatch, Envelope.noteOff_of_idle hidle]
  · rw [poolNoteOff_voices_getElem? hv, Voice.releaseIf_of_not_match hnot]

/-! ### POOL.RENDER_MIXED (R175) -/

/-- A voice at the end of a block, before the reclamation: rendered if it was active at the start. -/
def Voice.afterBlock (p : Params) (n : Nat) (v : Voice) : Voice :=
  if v.active p.eps then (v.render p.fs n).1 else v

theorem Voice.mixInto_of_active {p : Params} {v : Voice} (h : v.active p.eps = true) (n : Nat) (out : List Exact) :
    v.mixInto p n out = ((v.render p.fs n).1.reclaim p.eps, addFrames out (v.render p.fs n).2) := if_pos h

/-- What becomes of a voice in the mix does not depend on the buffer. -/
theorem Voice.mixInto_fst (p : Params) (n : Nat) (v : Voice) (out : List Exact) :
    (v.mixInto p n out).1 = (v.afterBlock p n).reclaim p.eps := by
  cases h : v.active p.eps with
  | true => rw [Voice.mixInto_of_active h, Voice.afterBlock, if_pos h]
  | false => rw [Voice.mixInto_of_inactive h, Voice.afterBlock, if_neg (ne_true_of_eq_false h)]

theorem mixVoices_fst (p : Params) (n : Nat) (vs : List Voice) (out : List Exact) :
    (mixVoices p n vs out).1 = vs.map fun v => (v.afterBlock p n).reclaim p.eps := by
  induction vs generalizing out with
  | nil => rfl
  | cons v vs ih => rw [mixVoices, ih, Voice.mixInto_fst, List.map_cons]

/-- Each frame of the buffer grows by that frame of every voice rendered. -/
theorem frameValue_mixVoices (p : Params) (n : Nat) (vs : List Voice) {out : List Exact} {t : Nat}
    (ht : t < out.length) :
    frameValue (mixVoices p n vs out).2 t = frameValue out t +
      ((vs.filter fun v => v.active p.eps).map fun v => frameValue (v.render p.fs n).2 t).sum := by
  induction vs generalizing out with
  | nil => simp [mixVoices]
  | cons v vs ih =>
    cases h : v.active p.eps with
    | true =>
      rw [mixVoices, v.mixInto_of_active h, ih (by rwa [addFrames_length]), addFrames_value _ _ _ ht,
        List.filter_cons_of_pos h, List.map_cons, List.sum_cons, add_assoc]
    | false =>
      rw [mixVoices, v.mixInto_of_inactive h, ih ht, List.filter_cons_of_neg (ne_true_of_eq_false h)]

theorem Voice.reclaim_eq_ite (eps : Rat) (v : Voice) :
    v.reclaim eps = if v.active eps = false ∧ v.released = true then { v with note := none } else v := by
  simp only [Voice.reclaim, Bool.and_eq_true, Bool.not_eq_true']

/-- Settles O41: a render is n frames of the refreshed voice, and the mix goes voice by voice. -/
theorem renderMixedAddsContributions : Obligations.RenderMixedAddsContributions := by
  intro s n fs start bank filtered frame contribution rendered r
  have hrender (v : Voice) : (v.render fs n).1 = frame^[n] (start v) := (Voice.frames_eq fs n (v.refreshFilter fs)).1
  have hcontribution (v : Voice) (t : Nat) : frameValue (v.render fs n).2 t = contribution v t := by
    have hframe := (Voice.frames_eq fs n (v.refreshFilter fs)).2 t
    rw [Voice.value_frame] at hframe
    exact hframe
  have hrendered (v : Voice) : v.afterBlock s.params n = rendered v := by
    rw [Voice.afterBlock, hrender]
  refine ⟨rfl, ?_, (mixVoices_length _ _ _ _).2, fun t ht => ?_, fun v =>
    ⟨v.render_length fs n, hrender v, hcontribution v⟩⟩
  · have hvoices : r.voices = s.voices.map fun v => (v.afterBlock s.params n).reclaim s.params.eps :=
      mixVoices_fst s.params n s.voices s.out
    simpa only [Voice.reclaim_eq_ite, hrendered] using hvoices
  · have hsum : (fun v => contribution v t) = fun v => frameValue (v.render fs n).2 t :=
      funext fun v => (hcontribution v t).symm
    rw [hsum]
    exact frameValue_mixVoices s.params n s.voices ht

end Sys2Proof.Machine
end

section
/-!
PROOF. The step sequencer (spec/46_step_sequencer.md R180 to R184). A note-on neither reads nor writes the sequencer, so a
step entered is its note-ons followed by the schedule of their degrees (`seqPlayStep_eq`). In the release check a degree
that was checked is not due again (`due_seqReleaseOne`), so each voice is released once at most. The steps of two stretches
of play add up (`loopFuel_eq_add`), so those of a run of blocks depend on the sum alone (`foldl_seqAdvance_clock`).
-/

namespace Sys2Proof.Machine

/-! ### The step length (R180) -/

/-- Settles O52: the two sides of bpm = 0. -/
theorem stepLengthRule : Obligations.StepLengthRule := by
  intro fs bpm
  refine ⟨fun hstopped => ?_, fun hpos => ?_, fun hfs => stepLength_pos hfs bpm⟩
  · rw [stepLength, if_pos hstopped]
    rfl
  · rw [stepLength, if_neg (not_le.mpr hpos)]
    ring

/-! ### The degrees of a grid register -/

theorem degrees_eq_finRange : degrees = List.finRange 12 := by decide

theorem mem_degrees (d : Degree) : d ∈ degrees := degrees_eq_finRange ▸ List.mem_finRange d

/-! ### The release schedule (R181) -/

/-- The schedule with the release of degree d pending at the gate of a step (R181, R184). -/
def Sequencer.schedule (sps : Rat) (q : Sequencer) (d : Degree) : Sequencer :=
  { q with
    relp := q.relp.set d.val true d.isLt
    relt := q.relt.set d.val ((q.pos.toNat : Rat) + Config.gate * sps) d.isLt }

theorem seqTrigger_eq (s : State) (d : Degree) (oct : Int) (sps : Rat) :
    s.seqTrigger d oct sps = (s.poolNoteOn d oct).withSeq (s.seq.schedule sps d) := by
  rw [State.seqTrigger, Sequencer.schedule, State.poolNoteOn_seq]

theorem Sequencer.schedule_same (sps : Rat) (q : Sequencer) (d : Degree) :
    (q.schedule sps d).relp[d] = true ∧ (q.schedule sps d).relt[d] = q.pos.toNat + 4 / 5 * sps := by
  simp [Sequencer.schedule, Config.gate]

theorem Sequencer.schedule_other (sps : Rat) (q : Sequencer) {d e : Degree} (h : d ≠ e) :
    (q.schedule sps d).relp[e] = q.relp[e] ∧ (q.schedule sps d).relt[e] = q.relt[e] := by
  have hval : d.val ≠ e.val := Fin.val_ne_of_ne h
  simp [Sequencer.schedule, hval]

theorem Sequencer.foldl_schedule_not_mem (sps : Rat) (q : Sequencer) {ds : List Degree} {e : Degree} (h : e ∉ ds) :
    (ds.foldl (Sequencer.schedule sps) q).relp[e] = q.relp[e] ∧
    (ds.foldl (Sequencer.schedule sps) q).relt[e] = q.relt[e] := by
  induction ds generalizing q with
  | nil => exact ⟨rfl, rfl⟩
  | cons d ds ih =>
    obtain ⟨hhead, htail⟩ := not_or.mp (mt List.mem_cons.mpr h)
    obtain ⟨hrelp, hrelt⟩ := q.schedule_other sps (Ne.symm hhead)
    exact ⟨(ih _ htail).1.trans hrelp, (ih _ htail).2.trans hrelt⟩

theorem Sequencer.foldl_schedule_mem (sps : Rat) (q : Sequencer) {ds : List Degree} {e : Degree} (h : e ∈ ds) :
    (ds.foldl (Sequencer.schedule sps) q).relp[e] = true ∧
    (ds.foldl (Sequencer.schedule sps) q).relt[e] = q.pos.toNat + 4 / 5 * sps := by
  induction ds generalizing q with
  | nil => cases h
  | cons d ds ih =>
    by_cases htail : e ∈ ds
    · exact ih (q.schedule sps d) htail
    · obtain rfl : e = d := (List.mem_cons.mp h).resolve_right htail
      obtain ⟨hrelp, hrelt⟩ := Sequencer.foldl_schedule_not_mem sps (q.schedule sps e) htail
      exact ⟨hrelp.trans (q.schedule_same sps e).1, hrelt.trans (q.schedule_same sps e).2⟩

/-! ### One step entered (R181, R184) -/

/-- A note-on does not read the sequencer. -/
theorem poolNoteOn_withSeq (s : State) (x : Sequencer) (d : Degree) (oct : Int) :
    (s.withSeq x).poolNoteOn d oct = (s.poolNoteOn d oct).withSeq x := by
  rw [State.poolNoteOn_eq, State.poolNoteOn_eq]
  rfl

theorem foldl_poolNoteOn_withSeq (ds : List Degree) (oct : Int) (s : State) (x : Sequencer) :
    ds.foldl (fun u d => u.poolNoteOn d oct) (s.withSeq x) = (ds.foldl (fun u d => u.poolNoteOn d oct) s).withSeq x := by
  induction ds generalizing s with
  | nil => rfl
  | cons d ds ih => rw [List.foldl_cons, List.foldl_cons, poolNoteOn_withSeq, ih]

theorem foldl_poolNoteOn_tick (ds : List Degree) (oct : Int) (s : State) :
    (ds.foldl (fun u d => u.poolNoteOn d oct) s).tick = s.tick + BitVec.ofNat 64 ds.length := by
  induction ds generalizing s with
  | nil => exact (BitVec.add_zero _).symm
  | cons d ds ih =>
    rw [List.foldl_cons, ih, poolNoteOn_tick, List.length_cons, add_comm ds.length, BitVec.ofNat_add, ← BitVec.add_assoc]
    rfl

/-- The triggers of a list of degrees are their note-ons, then their schedule. -/
theorem foldl_seqTrigger_eq (ds : List Degree) (oct : Int) (sps : Rat) (s : State) :
    ds.foldl (fun u d => u.seqTrigger d oct sps) s =
      (ds.foldl (fun u d => u.poolNoteOn d oct) s).withSeq (ds.foldl (Sequencer.schedule sps) s.seq) := by
  induction ds generalizing s with
  | nil => rfl
  | cons d ds ih =>
    rw [List.foldl_cons, ih, seqTrigger_eq, State.withSeq_seq, foldl_poolNoteOn_withSeq]
    rfl

theorem seqPlayStep_eq (s : State) (oct : Int) (sps : Rat) :
    s.seqPlayStep oct sps =
      ((degreesIn s.regs.grid[s.seq.step + 1]).foldl (fun u d => u.poolNoteOn d oct) s).withSeq
        ((degreesIn s.regs.grid[s.seq.step + 1]).foldl (Sequencer.schedule sps) (s.seqEnterStep sps).seq) := by
  have htriggers : s.seqPlayStep oct sps =
      (degreesIn s.regs.grid[s.seq.step + 1]).foldl (fun u d => u.seqTrigger d oct sps) (s.seqEnterStep sps) := rfl
  rw [htriggers, foldl_seqTrigger_eq, State.seqEnterStep, foldl_poolNoteOn_withSeq]
  rfl

/-- Settles O55: the step is its note-ons, then the schedule of exactly their degrees. -/
theorem stepTriggersItsDegrees : Obligations.StepTriggersItsDegrees := by
  rintro s t oct sps rfl g played
  have heq := seqPlayStep_eq s oct sps
  obtain ⟨hacc, hstep, hpos⟩ := seqPlayStep_clock s oct sps
  have hframe : s.seqPlayStep oct sps = played.withSeq (s.seqPlayStep oct sps).seq := by
    rw [heq]
    rfl
  have htick : (s.seqPlayStep oct sps).tick = played.tick := by rw [heq]; rfl
  have hvoices : (s.seqPlayStep oct sps).voices = played.voices := by rw [heq]; rfl
  have hregs : (s.seqPlayStep oct sps).regs = played.regs := by rw [heq]; rfl
  refine ⟨?_, hvoices, htick, hregs, hframe, hstep, hacc, hpos,
    fun d => ⟨fun hset => ?_, fun hclear => ?_⟩, htick.trans (foldl_poolNoteOn_tick _ _ _)⟩
  · rw [degreesIn, degrees_eq_finRange]
  · rw [heq]
    exact Sequencer.foldl_schedule_mem sps _ ((degreesIn_mem g d).mpr hset)
  · rw [heq]
    refine Sequencer.foldl_schedule_not_mem sps _ fun hmem => ?_
    exact ne_true_of_eq_false hclear ((degreesIn_mem g d).mp hmem)

/-! ### The release check (R181) -/

/-- Degree d has a release pending whose time has come (R181). -/
def Sequencer.Due (q : Sequencer) (d : Degree) : Prop := q.relp[d] = true ∧ q.relt[d] ≤ q.pos.toNat

theorem seqReleaseOne_of_not_due {s : State} {d : Degree} (h : ¬ s.seq.Due d) : s.seqReleaseOne d = s := if_neg h

theorem seqReleaseOne_of_due {s : State} {d : Degree} (h : s.seq.Due d) :
    s.seqReleaseOne d = (s.poolNoteOff d).withSeq { s.seq with relp := s.seq.relp.set d.val false d.isLt } := if_pos h

/-- The release check of one degree changes the voices and the pending bits alone. -/
theorem seqReleaseOne_frame (s : State) (d : Degree) :
    s.seqReleaseOne d = (s.withVoices (s.seqReleaseOne d).voices).withSeq
      { s.seq with relp := (s.seqReleaseOne d).seq.relp } := by
  by_cases hdue : s.seq.Due d
  · rw [seqReleaseOne_of_due hdue]
    rfl
  · rw [seqReleaseOne_of_not_due hdue]
    rfl

theorem relp_seqReleaseOne (s : State) (d e : Degree) :
    (s.seqReleaseOne d).seq.relp[e] = true ↔ s.seq.relp[e] = true ∧ ¬ (e = d ∧ s.seq.Due e) := by
  by_cases hdue : s.seq.Due d
  · rw [seqReleaseOne_of_due hdue]
    rcases eq_or_ne e d with rfl | hne
    · simp [hdue]
    · have hval : d.val ≠ e.val := Fin.val_ne_of_ne hne.symm
      simp [hne, hval]
  · rw [seqReleaseOne_of_not_due hdue]
    refine (and_iff_left ?_).symm
    rintro ⟨rfl, hdue'⟩
    exact hdue hdue'

/-- A degree that has been checked is no longer due, and no other becomes or stops being due. -/
theorem due_seqReleaseOne (s : State) (d e : Degree) : (s.seqReleaseOne d).seq.Due e ↔ s.seq.Due e ∧ e ≠ d := by
  have hdue : (s.seqReleaseOne d).seq.Due e ↔
      (s.seqReleaseOne d).seq.relp[e] = true ∧ s.seq.relt[e] ≤ s.seq.pos.toNat := by
    rw [seqReleaseOne_frame]
    rfl
  rw [hdue, relp_seqReleaseOne, Sequencer.Due]
  tauto

theorem relp_foldl_seqReleaseOne (ds : List Degree) (s : State) (e : Degree) :
    (ds.foldl State.seqReleaseOne s).seq.relp[e] = true ↔ s.seq.relp[e] = true ∧ ¬ (e ∈ ds ∧ s.seq.Due e) := by
  induction ds generalizing s with
  | nil => simp
  | cons d ds ih =>
    rw [List.foldl_cons, ih, relp_seqReleaseOne, due_seqReleaseOne, List.mem_cons]
    tauto

theorem foldl_seqReleaseOne_frame (ds : List Degree) (s : State) :
    ds.foldl State.seqReleaseOne s = (s.withVoices (ds.foldl State.seqReleaseOne s).voices).withSeq
      { s.seq with relp := (ds.foldl State.seqReleaseOne s).seq.relp } :=
  foldl_keeps (P := fun t => t = (s.withVoices t.voices).withSeq { s.seq with relp := t.seq.relp })
    (fun t d ht => by rw [seqReleaseOne_frame, ht]; rfl) ds s rfl

/-- Voice v is active and bound to one of the degrees `ds` that is due. -/
def Voice.ReleaseDue (p : Params) (q : Sequencer) (ds : List Degree) (v : Voice) : Prop :=
  v.active p.eps = true ∧ ∃ d ∈ ds, v.note = some d ∧ q.Due d

/-- The head of the list releases the voice, or the rest of the list does after the head was checked. -/
theorem Voice.releaseDue_cons (p : Params) (s : State) (d : Degree) (ds : List Degree) (v : Voice) :
    v.ReleaseDue p s.seq (d :: ds) ↔
      ((v.active p.eps = true ∧ v.note = some d) ∧ s.seq.Due d) ∨ v.ReleaseDue p (s.seqReleaseOne d).seq ds := by
  constructor
  · rintro ⟨hactive, e, hmem, hnote, hdue⟩
    rcases eq_or_ne e d with rfl | hne
    · exact .inl ⟨⟨hactive, hnote⟩, hdue⟩
    · have hmem' : e ∈ ds := (List.mem_cons.mp hmem).resolve_left hne
      exact .inr ⟨hactive, e, hmem', hnote, (due_seqReleaseOne s d e).mpr ⟨hdue, hne⟩⟩
  · rintro (⟨⟨hactive, hnote⟩, hdue⟩ | ⟨hactive, e, hmem, hnote, hdue⟩)
    · exact ⟨hactive, d, List.mem_cons_self, hnote, hdue⟩
    · exact ⟨hactive, e, List.mem_cons_of_mem d hmem, hnote, ((due_seqReleaseOne s d e).mp hdue).1⟩

theorem seqReleaseOne_params (s : State) (d : Degree) : (s.seqReleaseOne d).params = s.params :=
  (onlyNotes_seqReleaseOne s d).fields.1

theorem seqReleaseOne_voices_of_match {s : State} {i : Nat} {v : Voice} (hv : s.voices[i]? = some v) {d : Degree}
    (h : v.active s.params.eps = true ∧ v.note = some d) (hdue : s.seq.Due d) :
    (s.seqReleaseOne d).voices[i]? = some { v with released := true, env := v.env.noteOff s.params.fs } := by
  rw [seqReleaseOne_of_due hdue, State.withSeq_voices, poolNoteOff_voices_getElem? hv, Voice.releaseIf_of_match h]

theorem seqReleaseOne_voices_of_not_match {s : State} {i : Nat} {v : Voice} (hv : s.voices[i]? = some v) {d : Degree}
    (h : ¬ ((v.active s.params.eps = true ∧ v.note = some d) ∧ s.seq.Due d)) :
    (s.seqReleaseOne d).voices[i]? = some v := by
  by_cases hdue : s.seq.Due d
  · rw [seqReleaseOne_of_due hdue, State.withSeq_voices, poolNoteOff_voices_getElem? hv,
      Voice.releaseIf_of_not_match fun hmatch => h ⟨hmatch, hdue⟩]
  · rwa [seqReleaseOne_of_not_due hdue]

theorem foldl_seqReleaseOne_voices_of_not_due (ds : List Degree) {s : State} {i : Nat} {v : Voice}
    (hv : s.voices[i]? = some v) (h : ¬ v.ReleaseDue s.params s.seq ds) :
    (ds.foldl State.seqReleaseOne s).voices[i]? = some v := by
  induction ds generalizing s with
  | nil => exact hv
  | cons d ds ih =>
    obtain ⟨hhead, htail⟩ := not_or.mp (mt (v.releaseDue_cons s.params s d ds).mpr h)
    exact ih (seqReleaseOne_voices_of_not_match hv hhead) (by rwa [seqReleaseOne_params])

/-- A voice is released at most once: the degree it is bound to is not due again. -/
theorem foldl_seqReleaseOne_voices_of_due (ds : List Degree) {s : State} {i : Nat} {v : Voice}
    (hv : s.voices[i]? = some v) (h : v.ReleaseDue s.params s.seq ds) :
    (ds.foldl State.seqReleaseOne s).voices[i]? =
      some { v with released := true, env := v.env.noteOff s.params.fs } := by
  induction ds generalizing s with
  | nil =>
    obtain ⟨-, d, hmem, -⟩ := h
    cases hmem
  | cons d ds ih =>
    by_cases hhead : (v.active s.params.eps = true ∧ v.note = some d) ∧ s.seq.Due d
    · obtain ⟨hmatch, hdue⟩ := hhead
      refine foldl_seqReleaseOne_voices_of_not_due ds (seqReleaseOne_voices_of_match hv hmatch hdue) ?_
      rintro ⟨-, e, -, hnote, hdue'⟩
      have hsame : d = e := Option.some_inj.mp (hmatch.2.symm.trans hnote)
      exact ((due_seqReleaseOne s d e).mp hdue').2 hsame.symm
    · have htail := ((v.releaseDue_cons s.params s d ds).mp h).resolve_left hhead
      have hrest := ih (seqReleaseOne_voices_of_not_match hv hhead) (by rwa [seqReleaseOne_params])
      rwa [seqReleaseOne_params] at hrest

theorem seqReleaseAll_eq (s : State) : s.seqReleaseAll = degrees.foldl State.seqReleaseOne s := rfl

theorem Voice.releaseDue_degrees (p : Params) (q : Sequencer) (v : Voice) :
    v.ReleaseDue p q degrees ↔ v.active p.eps = true ∧ ∃ d, v.note = some d ∧ q.Due d := by
  simp only [Voice.ReleaseDue, mem_degrees, true_and]

theorem relp_seqReleaseAll (s : State) (d : Degree) :
    s.seqReleaseAll.seq.relp[d] = true ↔ s.seq.relp[d] = true ∧ ¬ s.seq.Due d := by
  rw [seqReleaseAll_eq, relp_foldl_seqReleaseOne]
  simp only [mem_degrees, true_and]

theorem seqReleaseAll_frame (s : State) :
    s.seqReleaseAll = (s.withVoices s.seqReleaseAll.voices).withSeq
      { s.seq with relp := s.seqReleaseAll.seq.relp } := by
  rw [seqReleaseAll_eq]
  exact foldl_seqReleaseOne_frame degrees s

/-- Settles O56: one pass over the degrees, after which none of the due ones is due. -/
theorem releaseCheck : Obligations.ReleaseCheck := by
  intro s t ht due
  have hframe : t = (s.withVoices t.voices).withSeq { s.seq with relp := t.seq.relp } := by
    rw [← ht]
    exact seqReleaseAll_frame s
  have hseq : t.seq = { s.seq with relp := t.seq.relp } := congrArg State.seq hframe
  have hrelp (d : Degree) : t.seq.relp[d] = true ↔ s.seq.relp[d] = true ∧ ¬ due d := by
    rw [← ht]
    exact relp_seqReleaseAll s d
  have hfold : t = degrees.foldl State.seqReleaseOne s := ht.symm.trans (seqReleaseAll_eq s)
  refine ⟨fun d => ⟨fun hdue => ?_, fun hnot => ?_⟩, hseq, ?_, ht ▸ nv_seqReleaseAll s,
    fun i v hv => ⟨fun h => ?_, fun h => ?_⟩⟩
  · exact Bool.eq_false_iff.mpr fun hset => ((hrelp d).mp hset).2 hdue
  · exact Bool.eq_iff_iff.mpr ((hrelp d).trans (and_iff_left hnot))
  · rw [hseq]
    exact hframe
  · rw [hfold]
    exact foldl_seqReleaseOne_voices_of_due degrees hv ((v.releaseDue_degrees s.params s.seq).mpr h)
  · rw [hfold]
    exact foldl_seqReleaseOne_voices_of_not_due degrees hv (mt (v.releaseDue_degrees s.params s.seq).mp h)

/-! ### The clock of a block (R181, R182) -/

theorem seqReleaseAll_advancePos (s : State) (n : Nat) :
    s.seqReleaseAll.seqAdvancePos n = s.seqReleaseAll.withSeq
      { s.seqReleaseAll.seq with pos := s.seqReleaseAll.seq.pos + BitVec.ofNat 64 n } := rfl

/-- SEQ.ADVANCE after its loop keeps ACC and STEP (R181). -/
theorem seqReleaseAll_advancePos_clock (s : State) (n : Nat) :
    (s.seqReleaseAll.seqAdvancePos n).seq.acc = s.seq.acc ∧ (s.seqReleaseAll.seqAdvancePos n).seq.step = s.seq.step := by
  obtain ⟨hacc, hstep, -⟩ := seqReleaseAll_clock s
  simp only [seqReleaseAll_advancePos, State.withSeq_seq, hacc, hstep, and_self]

/-- The steps a block of n frames enters fit into what ACC then holds. -/
theorem loopFuel_mul_le {acc sps : Rat} (hs : 0 < sps) (h0 : 0 ≤ acc) (n : Nat) :
    loopFuel (acc + n) sps * sps ≤ acc + n :=
  (loopFuel_bounds hs (add_nonneg h0 n.cast_nonneg)).1

section

variable {s : State} {play : Word} {sps : Rat} {bpm : Word}

/-- While playing, the loop of a block is the steps that fit into ACC, entered one after another (R181). -/
theorem seqAdvance_playing_iterate (hp : isPlaying play = true) (hs : 0 < sps) (h0 : 0 ≤ s.seq.acc)
    (hsps : stepLength s.params.fs (s32 bpm) = sps) (n : Nat) (oct : Int) :
    s.seqAdvance n oct bpm play =
      ((fun u : State => u.seqPlayStep oct sps)^[loopFuel (s.seq.acc + n) sps]
        (s.withSeq { s.seq with acc := s.seq.acc + n })).seqReleaseAll.seqAdvancePos n := by
  rw [seqAdvance_playing hp s n oct bpm hsps]
  exact congrArg (fun u : State => u.seqReleaseAll.seqAdvancePos n)
    (seqLoop_iterate hs oct _ (s.seqAdvanceAcc true n) (loopFuel_mul_le hs h0 n))

/-- While playing, a block takes the length of each step it enters from ACC and advances STEP by their number (R181). -/
theorem seqAdvance_playing_clock (hp : isPlaying play = true) (hs : 0 < sps) (h0 : 0 ≤ s.seq.acc)
    (hsps : stepLength s.params.fs (s32 bpm) = sps) (n : Nat) (oct : Int) :
    (s.seqAdvance n oct bpm play).seq.acc = s.seq.acc + n - loopFuel (s.seq.acc + n) sps * sps ∧
    (s.seqAdvance n oct bpm play).seq.step.val = (s.seq.step.val + loopFuel (s.seq.acc + n) sps) % 16 := by
  rw [seqAdvance_playing hp s n oct bpm hsps, (seqReleaseAll_advancePos_clock _ n).1,
    (seqReleaseAll_advancePos_clock _ n).2]
  exact seqLoop_clock hs oct _ (s.seqAdvanceAcc true n) (loopFuel_mul_le hs h0 n)

/-- While playing, a block leaves less than a step in ACC (R181). -/
theorem seqAdvance_playing_acc_mem (hp : isPlaying play = true) (hs : 0 < sps) (h0 : 0 ≤ s.seq.acc)
    (hsps : stepLength s.params.fs (s32 bpm) = sps) (n : Nat) (oct : Int) :
    0 ≤ (s.seqAdvance n oct bpm play).seq.acc ∧ (s.seqAdvance n oct bpm play).seq.acc < sps := by
  have hlt := (loopFuel_bounds hs (add_nonneg h0 (n.cast_nonneg (α := Rat)))).2
  rw [(seqAdvance_playing_clock hp hs h0 hsps n oct).1]
  exact ⟨sub_nonneg.mpr (loopFuel_mul_le hs h0 n), sub_lt_iff_lt_add'.mpr hlt⟩

end

theorem seqAdvance_stopped_clock {play : Word} (hp : isPlaying play = false) (s : State) (n : Nat) (oct : Int)
    (bpm : Word) : (s.seqAdvance n oct bpm play).seq.acc = 0 ∧ (s.seqAdvance n oct bpm play).seq.step = s.seq.step := by
  rw [seqAdvance_stopped hp s n oct bpm, (seqReleaseAll_advancePos_clock _ n).1, (seqReleaseAll_advancePos_clock _ n).2]
  exact ⟨rfl, rfl⟩

theorem loopFuel_eq_zero {acc sps : Rat} (h0 : 0 ≤ acc) (h1 : acc < sps) : loopFuel acc sps = 0 := by
  have hfloor : ⌊acc / sps⌋ = 0 :=
    Int.floor_eq_zero_iff.mpr ⟨div_nonneg h0 (h0.trans h1.le), (div_lt_one (h0.trans_lt h1)).mpr h1⟩
  rw [loopFuel, rat_floor_eq, hfloor]
  rfl

/-- The steps of two stretches add up: those entered already, and those that fit into what is left. -/
theorem loopFuel_eq_add {acc sps : Rat} (hs : 0 < sps) {k : Nat} (h : k * sps ≤ acc) :
    loopFuel acc sps = k + loopFuel (acc - k * sps) sps := by
  have hrest : 0 ≤ ⌊(acc - k * sps) / sps⌋ := Int.floor_nonneg.mpr (div_nonneg (sub_nonneg.mpr h) hs.le)
  have hfloor : ⌊acc / sps⌋ = k + ⌊(acc - k * sps) / sps⌋ := by
    rw [sub_div, mul_div_cancel_right₀ _ hs.ne', Int.floor_sub_natCast]
    ring
  rw [loopFuel, loopFuel, rat_floor_eq, rat_floor_eq, hfloor]
  omega

/-- Blocks of continuous play, from any ACC less than a step: what they enter depends on their sum (R182). -/
theorem foldl_seqAdvance_clock {play : Word} (hp : isPlaying play = true) {sps : Rat} (hs : 0 < sps) (oct : Int)
    {bpm : Word} (blocks : List Nat) {s : State} (hsps : stepLength s.params.fs (s32 bpm) = sps) (h0 : 0 ≤ s.seq.acc)
    (h1 : s.seq.acc < sps) :
    (blocks.foldl (fun u n => u.seqAdvance n oct bpm play) s).seq.acc =
      s.seq.acc + blocks.sum - loopFuel (s.seq.acc + blocks.sum) sps * sps ∧
    (blocks.foldl (fun u n => u.seqAdvance n oct bpm play) s).seq.step.val =
      (s.seq.step.val + loopFuel (s.seq.acc + blocks.sum) sps) % 16 := by
  induction blocks generalizing s with
  | nil => simp [loopFuel_eq_zero h0 h1, Nat.mod_eq_of_lt s.seq.step.isLt]
  | cons n blocks ih =>
    obtain ⟨hacc, hstep⟩ := seqAdvance_playing_clock hp hs h0 hsps n oct
    obtain ⟨hnonneg, hlt⟩ := seqAdvance_playing_acc_mem hp hs h0 hsps n oct
    have hparams := (onlyNotes_seqAdvance s n oct bpm play).fields.1
    obtain ⟨haccs, hsteps⟩ := ih (s := s.seqAdvance n oct bpm play) (by rw [hparams, hsps]) hnonneg hlt
    have hsum : (((n :: blocks).sum : Nat) : Rat) = n + blocks.sum := by
      rw [List.sum_cons, Nat.cast_add]
    have hleft : (s.seqAdvance n oct bpm play).seq.acc + blocks.sum =
        s.seq.acc + ((n :: blocks).sum : Nat) - loopFuel (s.seq.acc + n) sps * sps := by
      rw [hacc, hsum]
      ring
    have hcount : loopFuel (s.seq.acc + ((n :: blocks).sum : Nat)) sps = loopFuel (s.seq.acc + n) sps +
        loopFuel ((s.seqAdvance n oct bpm play).seq.acc + blocks.sum) sps := by
      rw [hleft]
      refine loopFuel_eq_add hs ((loopFuel_mul_le hs h0 n).trans ?_)
      rw [hsum, ← add_assoc]
      exact le_add_of_nonneg_right blocks.sum.cast_nonneg
    rw [List.foldl_cons, haccs, hsteps, hstep, hcount, hleft]
    exact ⟨by push_cast; ring, by omega⟩

/-- Settles O54: from ACC 0 the blocks together enter the steps that fit into their sum. -/
theorem continuousPlay : Obligations.ContinuousPlay := by
  intro s t blocks oct bpm play hfs hacc hplay ht sps
  have hs : 0 < sps := stepLength_pos hfs _
  obtain ⟨haccs, hsteps⟩ := foldl_seqAdvance_clock hplay hs oct blocks (s := s) rfl hacc.ge (hacc ▸ hs)
  rw [ht, hacc, zero_add] at haccs hsteps
  exact ⟨hsteps, haccs⟩

/-- Settles O53: by what PLAY says, the whole next state and with it the clock. -/
theorem sequencerClock : Obligations.SequencerClock := by
  intro s t n oct bpm play hfs h0 ht sps k entered
  have hs : 0 < sps := stepLength_pos hfs _
  have hnotes : OnlyNotes s t := ht ▸ onlyNotes_seqAdvance s n oct bpm play
  obtain ⟨hparams, hqueue, hout, -, -, -, -, hio⟩ := hnotes.fields
  have hnext : t = entered.seqReleaseAll.seqAdvancePos n := by
    rw [← ht]
    cases hplay : play.getLsbD 0 with
    | true =>
      have hentered : entered = (fun u : State => u.seqPlayStep oct sps)^[k]
          (s.withSeq { s.seq with acc := s.seq.acc + n }) := if_pos hplay
      rw [hentered]
      exact seqAdvance_playing_iterate hplay hs h0 rfl n oct
    | false =>
      have hentered : entered = s.withSeq { s.seq with acc := 0 } := if_neg (ne_true_of_eq_false hplay)
      rw [hentered]
      exact seqAdvance_stopped hplay s n oct bpm
  refine ⟨hnext.trans (seqReleaseAll_advancePos entered n), fun hplay => ?_, fun hplay => ?_,
    ht ▸ seqAdvance_pos s n oct bpm play, hparams, hnotes.regs, hqueue, hout, hio, ht ▸ nv_seqAdvance s n oct bpm play⟩
  · obtain ⟨hacc, hstep⟩ := seqAdvance_playing_clock (bpm := bpm) hplay hs h0 rfl n oct
    obtain ⟨hnonneg, hlt⟩ := seqAdvance_playing_acc_mem (bpm := bpm) hplay hs h0 rfl n oct
    rw [ht] at hacc hstep hnonneg hlt
    exact ⟨hacc, hnonneg, hlt, hstep⟩
  · exact ht ▸ seqAdvance_stopped_clock hplay s n oct bpm

end Sys2Proof.Machine
end

section
/-!
PROOF. The jitter buffer: JBPUSH by what stands on NET.rx (spec/47_jitter_buffer.md R190, R191), and phase 7, a withheld
or a granted pop with the remote mix (R192; 48_orchestrator.md R208).
-/

namespace Sys2Proof.Machine

/-! ### The words of a payload (R74, R190) -/

/-- Four bytes weighed by the powers of 256 are the word they make (R74). -/
theorem bytesWord_eq_ofNat (b0 b1 b2 b3 : Byte) :
    bytesWord b0 b1 b2 b3 =
      BitVec.ofNat 32 (b0.toNat + 256 * b1.toNat + 65536 * b2.toNat + 16777216 * b3.toNat) := by
  have happend {n : Nat} (hi : Byte) (lo : BitVec n) : (hi ++ lo).toNat = 2 ^ n * hi.toNat + lo.toNat := by
    rw [BitVec.toNat_append, ← Nat.shiftLeft_add_eq_or_of_lt lo.isLt, Nat.shiftLeft_eq, Nat.mul_comm]
  apply BitVec.eq_of_toNat_eq
  rw [BitVec.toNat_ofNat, bytesWord, happend, happend, happend]
  omega

/-- The word k of a payload is made of its bytes 4k to 4k + 3 (R190). -/
theorem payloadWords_getElem (bs : List Byte) (k : Nat) (h : k < (payloadWords bs).length) :
    (payloadWords bs)[k] =
      bytesWord (bs.getD (4 * k) 0) (bs.getD (4 * k + 1) 0) (bs.getD (4 * k + 2) 0) (bs.getD (4 * k + 3) 0) := by
  induction bs using payloadWords.induct generalizing k with
  | case1 b0 b1 b2 b3 rest ih =>
    cases k with
    | zero => simp [payloadWords]
    | succ k => simpa [payloadWords, Nat.mul_succ] using ih k (by simpa [payloadWords] using h)
  | case2 bs => simp [payloadWords] at h

/-- A byte among those taken is the byte that stood there. -/
theorem getD_take_of_lt {α : Type} (l : List α) (d : α) {i n : Nat} (h : i < n) : (l.take n).getD i d = l.getD i d := by
  rw [List.getD_eq_getElem?_getD, List.getD_eq_getElem?_getD, List.getElem?_take_of_lt h]

/-- The words of the first nbytes bytes, each read little-endian where it stood (R190). -/
theorem payloadWords_take (bs : List Byte) {nbytes : Nat} (h : nbytes ≤ bs.length) :
    payloadWords (bs.take nbytes) = (List.range (nbytes / 4)).map fun k =>
      BitVec.ofNat 32 ((bs.getD (4 * k) 0).toNat + 256 * (bs.getD (4 * k + 1) 0).toNat +
        65536 * (bs.getD (4 * k + 2) 0).toNat + 16777216 * (bs.getD (4 * k + 3) 0).toNat) := by
  have hlen : (payloadWords (bs.take nbytes)).length = nbytes / 4 := by
    rw [payloadWords_length, List.length_take, Nat.min_eq_left h]
  refine List.ext_getElem (by simpa using hlen) fun k hk _ => ?_
  have hlt : 4 * k + 3 < nbytes := by omega
  rw [payloadWords_getElem, bytesWord_eq_ofNat, List.getElem_map, List.getElem_range, getD_take_of_lt bs _ (by omega),
    getD_take_of_lt bs _ (by omega), getD_take_of_lt bs _ (by omega), getD_take_of_lt bs _ hlt]

/-! ### JBPUSH, by what stands on NET.rx (R190) -/

theorem stores_flag (s : State) (f : StatusFlag) : s.Stores .status (s.regs.status ||| f.mask) (s.flag f) :=
  stores_regWrite s _ (by decide)

theorem exec_jbpush_waits {s : State} {nbytes : Word} (h : s.io.netRx.length < u32 nbytes) :
    exec (.jbpush nbytes) s = .next (s.hold (.jbpush nbytes)) := if_pos h

theorem exec_jbpush_arrived {s : State} {nbytes : Word} (h : u32 nbytes ≤ s.io.netRx.length) :
    exec (.jbpush nbytes) s = .next (if malformed s.params (u32 nbytes) then (s.takeRx (u32 nbytes)).flag .jbMalformed
      else (s.takeRx (u32 nbytes)).jbPush (payloadWords (s.io.netRx.take (u32 nbytes)))) := by
  simp only [exec, execJbpush]
  rw [if_neg (Nat.not_lt.mpr h), State.takeRx_params]
  exact (apply_ite Host.Outcome.next _ _ _).symm

theorem jbPush_of_full {s : State} (blk : List Word) (h : s.queue.length = Config.jbCap) :
    s.jbPush blk = (s.withQueue (s.queue.tail ++ [blk])).flag .jbEvict :=
  (State.jbPush_eq s blk h.le).trans (if_neg h.not_lt)

/-- Settles O32. -/
theorem jbpushWaitsForItsPayload : Obligations.JbpushWaitsForItsPayload := fun _ _ h => exec_jbpush_waits h

/-- Settles O31: by whether the payload is malformed, and then by whether the queue has room. -/
theorem jbpushFollowsItsRule : Obligations.JbpushFollowsItsRule := by
  intro s nbytes hrx hqueue rx s' blk
  refine ⟨rfl, _, exec_jbpush_arrived hrx, ?_⟩
  have hblk : payloadWords (s.io.netRx.take (u32 nbytes)) = blk := payloadWords_take s.io.netRx hrx
  by_cases hmal : nbytes.toNat % 4 ≠ 0 ∨ 4 * s.params.jbBlkMax < nbytes.toNat
  · rw [if_pos hmal, if_pos ((malformed_iff _ _).mpr hmal)]
    exact stores_flag s' .jbMalformed
  · rw [if_neg hmal, if_neg (mt (malformed_iff _ _).mp hmal), hblk]
    by_cases hroom : s.queue.length < 64
    · rw [if_pos hroom]
      exact jbPush_of_room (s := s') blk hroom
    · rw [if_neg hroom, jbPush_of_full (s := s.takeRx _) blk (hqueue.antisymm (Nat.le_of_not_lt hroom))]
      exact stores_flag (s'.withQueue (s.queue.tail ++ [blk])) .jbEvict

/-! ### Phase 7: the pop and the mix (R192, R208) -/

theorem phaseRemote_withheld {s : State} (h : s.queue.length ≤ s.regs.jbTarget.toNat) (n : Nat) :
    s.phaseRemote n = s.flag .jbUnderrun := if_pos ((popWithheld_iff _ _).mpr h)

theorem phaseRemote_granted {s : State} (h : ¬ s.queue.length ≤ s.regs.jbTarget.toNat) (n : Nat) :
    s.phaseRemote n = (s.withQueue s.queue.tail).mixRemote (popSamples n s.queue) s.regs.remoteGain :=
  if_neg (mt (popWithheld_iff _ _).mp h)

theorem popSamples_length (n : Nat) (q : List (List Word)) :
    (popSamples n q).length = min n (q.headD []).length := List.length_take

theorem remoteSample_value (w : Word) :
    ((remoteSample w : Rat) : ℝ) = if w.extractLsb' 23 8 = 255#8 then 0 else (f32val w : ℝ) := by
  rw [remoteSample, apply_ite (Rat.cast : Rat → ℝ), Rat.cast_zero]
  exact if_congr (f32NonFinite_iff w) rfl rfl

/-- A frame of OUT that a sample is mixed into grows by the gain times that sample (R208). -/
theorem mixRemote_frameValue {s : State} {samples : List Word} (g : Word) {t : Nat} (hout : t < s.out.length)
    (hsample : t < samples.length) :
    frameValue (s.mixRemote samples g).out t =
      frameValue s.out t + (f32val g : ℝ) * ((remoteSample (samples.getD t 0) : Rat) : ℝ) := by
  rw [State.mixRemote_eq, addFrames_value _ _ _ hout]
  simp [frameValue, hsample]

/-- Settles O37: by whether the pop is withheld, and frame by frame by whether the pop returned a sample for it. -/
theorem remoteMix : Obligations.RemoteMix := by
  intro s n
  by_cases hpop : s.queue.length ≤ s.regs.jbTarget.toNat
  · rw [if_pos hpop, phaseRemote_withheld hpop]
    exact stores_flag s .jbUnderrun
  · rw [if_neg hpop, phaseRemote_granted hpop]
    have hlen := popSamples_length n s.queue
    refine ⟨rfl, addFrames_length _ _, fun t ht => ?_⟩
    by_cases hsample : t < n ∧ t < (s.queue.headD []).length
    · obtain ⟨hn, hhead⟩ := hsample
      have hreturned : t < (popSamples n s.queue).length := hlen ▸ lt_min hn hhead
      rw [if_pos ⟨hn, hhead⟩, mixRemote_frameValue (s := s.withQueue s.queue.tail) _ ht hreturned, remoteSample_value,
        popSamples, getD_take_of_lt _ _ hn]
      rfl
    · rw [if_neg hsample]
      exact addFrames_tail _ _ _ t (by rw [List.length_map, hlen]) (by omega)

end Sys2Proof.Machine
end

section
/-!
PROOF. CALLBACK served whole (spec/48_orchestrator.md R200 to R209). Phases 1 to 3 change OUT, the masks they drain and what
notes change (`onlyNotes_requested`); phases 4 to 7 change STATUS, the voices, TICK, OUT and the queue
(`phasesAfterRequests_frame`); phase 8 sends the block and ends the callback (`callbackWhole_eq_emission`). What that leaves in
STATUS, the pool size, POS and OUT is said phase by phase.
-/

namespace Sys2Proof.Machine

/-! ### Phase 4 (R204, R176) -/

/-- Settles O38: the target is the clamped POLY_TARGET. -/
theorem resizeReplacesThePool : Obligations.ResizeReplacesThePool := by
  intro s w k _ hk
  have htarget : targetVoices s.params w = k := Int.ofNat.inj ((targetVoices_cast s.params w).trans hk.symm)
  rw [State.phaseResize, htarget]
  rfl

/-! ### Phase 1 (R201) -/

theorem zeroFirst_eq_replicate {n : Nat} {os : List Exact} (h : n ≤ os.length) :
    zeroFirst n os = List.replicate n (.rat 0) ++ os.drop n := by
  induction n generalizing os with
  | zero => cases os <;> rfl
  | succ n ih => cases os with
    | nil => cases h
    | cons o os => exact congrArg (List.cons _) (ih (Nat.le_of_succ_le_succ h))

/-! ### Phases 1 to 3 (R201 to R203) -/

/-- The registers with both request masks drained (R203). -/
def RegFile.drained (r : RegFile) : RegFile := { r with noteOnReq := 0, noteOffReq := 0 }

/-- The block after the note requests: phases 1 to 3 of a CALLBACK. -/
def State.requested (s : State) (n : Nat) : State :=
  ((s.phaseZero n).phaseSequencer n).phaseRequests (clampedOctave s.regs.octave)

theorem callbackWhole_eq_requested (s : State) (n : Nat) :
    s.callbackWhole n = (((s.requested n).phasesAfterRequests n).phaseEmit n).callbackDone := rfl

theorem OnlyNotes.drain {s t : State} (h : OnlyNotes s t) :
    OnlyNotes (s.withRegs s.regs.drained) (t.withRegs t.regs.drained) := by
  unfold OnlyNotes at h ⊢
  rw [h]
  rfl

theorem phaseRequests_eq (s : State) (oct : Int) :
    s.phaseRequests oct =
      ((s.withRegs s.regs.drained).requestOns s.regs.noteOnReq oct).requestOffs s.regs.noteOffReq := rfl

theorem onlyNotes_phaseRequests (s : State) (oct : Int) :
    OnlyNotes (s.withRegs s.regs.drained) (s.phaseRequests oct) :=
  (onlyNotes_requestOns _ s.regs.noteOnReq oct).trans (onlyNotes_requestOffs _ s.regs.noteOffReq)

theorem onlyNotes_phaseSequencer (s : State) (n : Nat) : OnlyNotes s (s.phaseSequencer n) :=
  onlyNotes_seqAdvance s n _ _ _

theorem onlyNotes_requested (s : State) (n : Nat) :
    OnlyNotes ((s.phaseZero n).withRegs s.regs.drained) (s.requested n) :=
  (OnlyNotes.drain (onlyNotes_phaseSequencer (s.phaseZero n) n)).trans (onlyNotes_phaseRequests _ _)

theorem requested_regs (s : State) (n : Nat) :
    (s.requested n).regs = { s.regs.drained with status := (s.requested n).regs.status } :=
  (onlyNotes_requested s n).regs

theorem degreesIn_eq_filter (w : Word) : degreesIn w = (List.finRange 12).filter fun d => w.getLsbD d.val := by
  rw [degreesIn, degrees_eq_finRange]

/-- The masks phase 3 drains are those the callback began with: the sequencer leaves them. -/
theorem requested_eq (s : State) (n : Nat) :
    s.requested n =
      ((((s.phaseZero n).phaseSequencer n).withRegs ((s.phaseZero n).phaseSequencer n).regs.drained).requestOns
        s.regs.noteOnReq (clampedOctave s.regs.octave)).requestOffs s.regs.noteOffReq := by
  have hregs := (onlyNotes_phaseSequencer (s.phaseZero n) n).regs
  have hon : ((s.phaseZero n).phaseSequencer n).regs.noteOnReq = s.regs.noteOnReq := by rw [hregs]; rfl
  have hoff : ((s.phaseZero n).phaseSequencer n).regs.noteOffReq = s.regs.noteOffReq := by rw [hregs]; rfl
  rw [State.requested, phaseRequests_eq, hon, hoff]

/-! ### Phases 4 to 7 (R204 to R208) -/

/-- The block after the render: phases 4 to 6 of a CALLBACK, from the state the note requests left. -/
def State.rendered (s : State) (n : Nat) : State :=
  ((s.phaseResize s.regs.polyTarget).phaseLatch s.regs).phaseRender n

theorem phasesAfterRequests_eq_rendered (s : State) (n : Nat) :
    s.phasesAfterRequests n = (s.rendered n).phaseRemote n := phasesAfterRequests_eq s n

/-- Everything phases 4 to 6 change: the voices, TICK and OUT. -/
theorem rendered_frame (s : State) (n : Nat) :
    s.rendered n = { s with
      voices := (s.rendered n).voices
      tick := (s.rendered n).tick
      out := (s.rendered n).out } := by
  rw [State.rendered, State.phaseResize_eq]
  rfl

theorem rendered_regs (s : State) (n : Nat) : (s.rendered n).regs = s.regs := by rw [rendered_frame]

theorem phaseRemote_frame (s : State) (n : Nat) :
    s.phaseRemote n = { s with
      regs := { s.regs with status := (s.phaseRemote n).regs.status }
      queue := if s.queue.length ≤ s.regs.jbTarget.toNat then s.queue else s.queue.tail
      out := (s.phaseRemote n).out } := by
  by_cases h : s.queue.length ≤ s.regs.jbTarget.toNat
  · rw [phaseRemote_withheld h, if_pos h]
    rfl
  · rw [phaseRemote_granted h, if_neg h]
    rfl

/-- Everything phases 4 to 7 change: STATUS, the voices, TICK, the queue and OUT. -/
theorem phasesAfterRequests_frame (s : State) (n : Nat) :
    s.phasesAfterRequests n = { s with
      regs := { s.regs with status := (s.phasesAfterRequests n).regs.status }
      voices := (s.phasesAfterRequests n).voices
      tick := (s.phasesAfterRequests n).tick
      queue := if s.queue.length ≤ s.regs.jbTarget.toNat then s.queue else s.queue.tail
      out := (s.phasesAfterRequests n).out } := by
  have hremote := phaseRemote_frame (s.rendered n) n
  rw [← phasesAfterRequests_eq_rendered] at hremote
  rw [hremote, rendered_frame]

/-! ### Emission (R209) and the end: only the ports, PH, the callback in progress and the grain -/

theorem callbackWhole_regs (s : State) (n : Nat) :
    (s.callbackWhole n).regs = ((s.requested n).phasesAfterRequests n).regs := by
  rw [callbackWhole_eq_requested, State.callbackDone_regs, State.phaseEmit_eq]

theorem callbackWhole_voices (s : State) (n : Nat) :
    (s.callbackWhole n).voices = ((s.requested n).phasesAfterRequests n).voices := by
  rw [callbackWhole_eq_requested, State.callbackDone_voices, State.phaseEmit_eq]

theorem callbackWhole_seq (s : State) (n : Nat) :
    (s.callbackWhole n).seq = ((s.requested n).phasesAfterRequests n).seq := by
  rw [callbackWhole_eq_requested, State.callbackDone_seq, State.phaseEmit_eq]

theorem callbackWhole_out (s : State) (n : Nat) :
    (s.callbackWhole n).out = ((s.requested n).phasesAfterRequests n).out := by
  rw [callbackWhole_eq_requested, State.callbackDone_out, State.phaseEmit_eq]

theorem callbackWhole_queue (s : State) (n : Nat) :
    (s.callbackWhole n).queue = if s.queue.length ≤ s.regs.jbTarget.toNat then s.queue else s.queue.tail := by
  obtain ⟨-, hqueue, -⟩ := (onlyNotes_requested s n).fields
  rw [callbackWhole_eq_requested, State.callbackDone_queue, State.phaseEmit_eq, phasesAfterRequests_frame, requested_regs,
    hqueue]
  rfl

/-- A CALLBACK drains the request masks and sets flags; every other register stays. -/
theorem callbackWhole_regs_eq (s : State) (n : Nat) :
    (s.callbackWhole n).regs = { s.regs.drained with status := (s.callbackWhole n).regs.status } := by
  rw [callbackWhole_regs, phasesAfterRequests_frame, requested_regs]

/-- The last phase on what the first seven left: the block of OUT is sent, and the callback is over (R209). -/
theorem callbackWhole_eq_emission (s : State) (n : Nat) :
    s.callbackWhole n =
      ((((((s.requested n).phasesAfterRequests n).withIo { s.io with
        audioOut := s.io.audioOut ++ [((s.callbackWhole n).out.take n).map Exact.emitted]
        netTx := s.io.netTx ++ [((((s.callbackWhole n).out.take n).map Exact.emitted).flatMap Sample.bytes)]
        }).withPh 0).withCb Progress.none).withGrain .whole) := by
  have hio : ((s.requested n).phasesAfterRequests n).io = s.io := by
    rw [phasesAfterRequests_frame]
    exact (onlyNotes_requested s n).io
  rw [callbackWhole_out, ← hio]
  rfl

/-! ### STATUS (R173, R192) -/

theorem FlagsGrow.mono {m m' a b : Word} (h : FlagsGrow m a b) (hm : m ||| m' = m') : FlagsGrow m' a b := by
  refine ⟨h.1, ?_⟩
  rw [← hm, ← BitVec.or_assoc, h.2, BitVec.or_assoc]

theorem requestOffs_regs (s : State) (off : Word) : (s.requestOffs off).regs = s.regs :=
  foldl_keeps (P := fun t : State => t.regs = s.regs) (f := State.poolNoteOff) (fun _ _ h => h) _ _ rfl

/-- The requests set STEAL or no flag. -/
theorem flagsGrow_phaseRequests (s : State) (oct : Int) :
    FlagsGrow StatusFlag.steal.mask s.regs.status (s.phaseRequests oct).regs.status := by
  rw [State.phaseRequests, requestOffs_regs]
  exact flagsGrow_foldl (f := fun (s : State) d => s.poolNoteOn d oct) _ (fun t d => flagsGrow_poolNoteOn t d oct) _
    ((s.regWrite .noteOnReq 0).regWrite .noteOffReq 0)

theorem flagsGrow_requested (s : State) (n : Nat) :
    FlagsGrow StatusFlag.steal.mask s.regs.status (s.requested n).regs.status :=
  (flagsGrow_seqAdvance (s.phaseZero n) n _ _ _).trans (flagsGrow_phaseRequests _ _)

theorem flagsGrow_phaseRemote (s : State) (n : Nat) :
    FlagsGrow StatusFlag.jbUnderrun.mask s.regs.status (s.phaseRemote n).regs.status := by
  by_cases h : s.queue.length ≤ s.regs.jbTarget.toNat
  · rw [phaseRemote_withheld h]
    exact .or _ _ _ (by decide)
  · rw [phaseRemote_granted h]
    exact .refl _ _

theorem flagsGrow_phasesAfterRequests (s : State) (n : Nat) :
    FlagsGrow StatusFlag.jbUnderrun.mask s.regs.status (s.phasesAfterRequests n).regs.status := by
  have hremote := flagsGrow_phaseRemote (s.rendered n) n
  rw [rendered_regs] at hremote
  rw [phasesAfterRequests_eq_rendered]
  exact hremote

/-- A CALLBACK sets JB_UNDERRUN and STEAL at most. -/
theorem flagsGrow_callbackWhole (s : State) (n : Nat) :
    FlagsGrow 0x00000048#32 s.regs.status (s.callbackWhole n).regs.status := by
  rw [callbackWhole_regs]
  exact ((flagsGrow_requested s n).mono (by decide)).trans ((flagsGrow_phasesAfterRequests _ n).mono (by decide))

/-! ### The pool size and POS (R181, R204) -/

theorem nv_poolRenderMixed (s : State) (n : Nat) : (s.poolRenderMixed n).nv = s.nv :=
  (mixVoices_length s.params n s.voices s.out).1

theorem nv_phaseLatch (s : State) (r : RegFile) : (s.phaseLatch r).nv = s.nv := List.length_map _

theorem nv_phasesAfterRequests (s : State) (n : Nat) :
    (s.phasesAfterRequests n).nv = targetVoices s.params s.regs.polyTarget := by
  have hremote (u : State) : (u.phaseRemote n).nv = u.nv := by
    rw [phaseRemote_frame]
    rfl
  rw [phasesAfterRequests_eq, hremote, State.phaseRender, nv_poolRenderMixed, nv_phaseLatch, nv_phaseResize]

theorem nv_callbackWhole (s : State) (n : Nat) :
    (s.callbackWhole n).nv = targetVoices s.params s.regs.polyTarget := by
  have hparams : (s.requested n).params = s.params := (onlyNotes_requested s n).fields.1
  rw [State.nv, callbackWhole_voices, ← State.nv, nv_phasesAfterRequests, hparams, requested_regs]
  rfl

theorem seq_phasesAfterRequests (s : State) (n : Nat) : (s.phasesAfterRequests n).seq = s.seq := by
  rw [phasesAfterRequests_frame]

theorem seq_requested (s : State) (n : Nat) : (s.requested n).seq = ((s.phaseZero n).phaseSequencer n).seq := by
  rw [State.requested, State.phaseRequests, seq_requestOffs, seq_requestOns]
  rfl

theorem pos_callbackWhole (s : State) (n : Nat) : (s.callbackWhole n).seq.pos = s.seq.pos + BitVec.ofNat 64 n := by
  rw [callbackWhole_seq, seq_phasesAfterRequests, seq_requested]
  exact seqAdvance_pos (s.phaseZero n) n _ _ _

/-! ### OUT (R201, R206, R208) -/

/-- `b` is the buffer `a` but for its first n frames. -/
def SameFrom (n : Nat) (a b : List Exact) : Prop :=
  b.length = a.length ∧ ∀ j, n ≤ j → b.getD j .zero = a.getD j .zero

theorem SameFrom.trans {n : Nat} {a b c : List Exact} (h1 : SameFrom n a b) (h2 : SameFrom n b c) : SameFrom n a c :=
  ⟨h2.1.trans h1.1, fun j hj => (h2.2 j hj).trans (h1.2 j hj)⟩

theorem sameFrom_zeroFirst (n : Nat) (os : List Exact) : SameFrom n os (zeroFirst n os) :=
  ⟨zeroFirst_length n os, fun j hj => by rw [zeroFirst_getD, if_neg (Nat.not_lt.mpr hj)]⟩

theorem sameFrom_addFrames {n : Nat} {xs : List Exact} (h : xs.length ≤ n) (os : List Exact) :
    SameFrom n os (addFrames os xs) :=
  ⟨addFrames_length os xs, fun j hj => addFrames_tail os xs n j h hj⟩

theorem sameFrom_poolRenderMixed (s : State) (n : Nat) : SameFrom n s.out (s.poolRenderMixed n).out :=
  ⟨(mixVoices_length s.params n s.voices s.out).2, fun j hj => mixVoices_tail s.params n j hj s.voices s.out⟩

theorem sameFrom_phaseRemote (s : State) (n : Nat) : SameFrom n s.out (s.phaseRemote n).out := by
  by_cases h : s.queue.length ≤ s.regs.jbTarget.toNat
  · rw [phaseRemote_withheld h]
    exact ⟨rfl, fun _ _ => rfl⟩
  · rw [phaseRemote_granted h]
    refine sameFrom_addFrames ?_ s.out
    rw [List.length_map, popSamples_length]
    exact Nat.min_le_left _ _

theorem sameFrom_phasesAfterRequests (s : State) (n : Nat) : SameFrom n s.out (s.phasesAfterRequests n).out := by
  have hrender : SameFrom n s.out (s.rendered n).out := by
    rw [State.rendered, State.phaseResize_eq]
    exact sameFrom_poolRenderMixed _ n
  rw [phasesAfterRequests_eq_rendered]
  exact hrender.trans (sameFrom_phaseRemote _ n)

theorem sameFrom_callbackWhole (s : State) (n : Nat) : SameFrom n s.out (s.callbackWhole n).out := by
  obtain ⟨-, -, hout, -⟩ := (onlyNotes_requested s n).fields
  have hafter := sameFrom_phasesAfterRequests (s.requested n) n
  rw [hout] at hafter
  rw [callbackWhole_out]
  exact (sameFrom_zeroFirst n s.out).trans hafter

/-! ### The whole callback -/

theorem word_map_emitted (xs : List Exact) :
    (xs.map Exact.emitted).map Sample.word = xs.map fun x => f32rndReal x.value := by
  rw [List.map_map]
  exact List.map_congr_left fun x _ => x.word_emitted

/-- Draining the masks and adding flags leaves every other register. -/
theorem drained_read (f : RegFile) (w : Word) {r : RegName} (hs : r ≠ .status) (hon : r ≠ .noteOnReq)
    (hoff : r ≠ .noteOffReq) : ({ f.drained with status := w } : RegFile).read r = f.read r := by
  have hwrite : ({ f.drained with status := w } : RegFile) =
      ((f.write .noteOnReq 0).write .noteOffReq 0).write .status w := rfl
  rw [hwrite, read_write_other _ _ hs, read_write_other _ _ hoff, read_write_other _ _ hon]

/-- Settles O34: the phases are those of the whole run, and what they leave is said of each. -/
theorem callbackCompletes : Obligations.CallbackCompletes := by
  intro s n hph hgrain hn hout oct requested s1 s2 drained started s3 s4 s5 s7
  have hlen : n.toNat ≤ s.out.length := hout ▸ hn
  have hs1 : s1 = s.phaseZero n.toNat := congrArg s.withOut (zeroFirst_eq_replicate hlen).symm
  have hs2 : s2 = (s.phaseZero n.toNat).phaseSequencer n.toNat := by
    rw [← hs1]
    rfl
  have hs3 : s3 = s.requested n.toNat := by
    rw [requested_eq, ← hs2, State.requestOns, State.requestOffs, degreesIn_eq_filter, degreesIn_eq_filter]
    rfl
  have hpoly : s.regs.polyTarget = s3.regs.polyTarget := by
    rw [hs3, requested_regs]
    rfl
  have hs7 : s7 = (s.requested n.toNat).phasesAfterRequests n.toNat := by
    rw [← hs3, State.phasesAfterRequests, ← hpoly]
    rfl
  obtain ⟨hlength, htail⟩ := sameFrom_callbackWhole s n.toNat
  obtain ⟨hkept, hadded⟩ := flagsGrow_callbackWhole s n.toNat
  refine ⟨_, _, _, exec_callback_whole hph hn hgrain, hs7 ▸ callbackWhole_eq_emission s n.toNat, ?_, word_map_emitted _,
    Sample.byte_flatMap _, params_callbackWhole s _, sched_callbackWhole s _, fun r hs hon hoff => ?_, ?_, ?_, hkept, hadded,
    ?_, callbackWhole_queue s _, pos_callbackWhole s _, hlength, htail⟩
  · rw [List.length_map, List.length_take, hlength, Nat.min_eq_left hlen]
  · rw [callbackWhole_regs_eq]
    exact drained_read s.regs _ hs hon hoff
  · rw [callbackWhole_regs_eq]
    rfl
  · rw [callbackWhole_regs_eq]
    rfl
  · rw [nv_callbackWhole]
    exact targetVoices_cast _ _

end Sys2Proof.Machine
end

section
/-!
PROOF. The parameter values of a voice after a CALLBACK (spec/48_orchestrator.md R205; 20_memory.md R82; 30_encoding.md R108).
The latch gives a voice the values of the registers (`latched_latch`), and neither a frame nor the reclamation writes them.
-/

namespace Sys2Proof.Machine

/-- Sub-oscillator j holds the parameter values of the registers (R133 to R136). -/
structure Osc.Latched (r : RegFile) (j : Fin 3) (o : Osc) : Prop where
  wave : o.wave = waveOf r.oscWave[j]
  oct : o.oct = clampInt (s32 r.oscOct[j]) (-24) 24
  det : o.det = clamp (f32val r.oscDetune[j]) (-200) 200
  phoff : o.phoff = wrap360 (f32val r.oscPhase[j]) / 360

/-- An envelope holds the parameter values of the registers (R155). -/
structure Envelope.Latched (r : RegFile) (e : Envelope) : Prop where
  attackT : e.attackT = f32val r.envAttack
  decayT : e.decayT = f32val r.envDecay
  sustainL : e.sustainL = clamp (f32val r.envSustain) 0 1
  releaseT : e.releaseT = f32val r.envRelease

/-- A voice holds the parameter values of the registers (R205). -/
structure Voice.Latched (r : RegFile) (v : Voice) : Prop where
  osc : ∀ j : Fin 3, v.osc[j].Latched r j
  ftype : v.ftype = filterTypeOf r.fltType
  cutoff : v.cutoff = f32val r.fltCutoff
  q : v.q = f32val r.fltQ
  nst : v.nst = stageCount r.fltStages
  env : v.env.Latched r
  gain : v.gain = f32val r.gain

/-! ### The latch gives the values -/

theorem latched_latch (r : RegFile) (v : Voice) : (v.latch r).Latched r := by
  obtain ⟨hosc, hftype, hcutoff, hq, hnst, henv, hgain, -⟩ := v.latch_fields r
  refine ⟨fun j => ?_, hftype, hcutoff, hq, hnst, henv ▸ ⟨rfl, rfl, rfl, rfl⟩, hgain⟩
  rw [hosc]
  fin_cases j <;> exact ⟨rfl, rfl, rfl, rfl⟩

/-! ### The block keeps them -/

section

variable {r : RegFile} {v : Voice}

theorem Envelope.Latched.tick {e : Envelope} (h : e.Latched r) (fs : Rat) : (e.tick fs).Latched r := by
  obtain ⟨hattack, hdecay, hsustain, hrelease⟩ := e.tick_params fs
  exact ⟨hattack.trans h.attackT, hdecay.trans h.decayT, hsustain.trans h.sustainL, hrelease.trans h.releaseT⟩

theorem Osc.Latched.advance {o : Osc} {j : Fin 3} (h : o.Latched r j) (fs : Rat) (f : Exact) :
    (o.advance fs f).Latched r j := ⟨h.wave, h.oct, h.det, h.phoff⟩

theorem Voice.Latched.frame (h : v.Latched r) (fs : Rat) : (v.frame fs).1.Latched r := by
  refine ⟨fun j => ?_, h.ftype, h.cutoff, h.q, h.nst, h.env.tick fs, h.gain⟩
  rw [Voice.frame_osc, bankAdvance_getElem]
  exact (h.osc j).advance fs v.freq

theorem Voice.Latched.refreshFilter (h : v.Latched r) (fs : Rat) : (v.refreshFilter fs).Latched r := by
  unfold Voice.refreshFilter
  split
  · exact ⟨h.osc, h.ftype, h.cutoff, h.q, h.nst, h.env, h.gain⟩
  · exact h

theorem Voice.Latched.afterBlock (h : v.Latched r) (p : Params) (n : Nat) : (v.afterBlock p n).Latched r := by
  unfold Voice.afterBlock
  split
  · exact Voice.frames_induction (P := Voice.Latched r) (fun _ hv => hv.frame p.fs) n _ (h.refreshFilter p.fs)
  · exact h

theorem Voice.Latched.reclaim (h : v.Latched r) (eps : Rat) : (v.reclaim eps).Latched r := by
  obtain ⟨note, hnote⟩ := v.reclaim_eq eps
  rw [hnote]
  exact ⟨h.osc, h.ftype, h.cutoff, h.q, h.nst, h.env, h.gain⟩

end

/-! ### The voices of a CALLBACK -/

/-- The registers latched are those the callback began with: the sequencer and the requests write none of them. -/
theorem requested_read_paramRegs (s : State) (n : Nat) : ∀ r ∈ paramRegs, (s.requested n).regs.read r = s.regs.read r := by
  have hgroup : ∀ r ∈ paramRegs, r ≠ .status ∧ r ≠ .noteOnReq ∧ r ≠ .noteOffReq := by decide
  intro r hr
  obtain ⟨hs, hon, hoff⟩ := hgroup r hr
  rw [requested_regs, drained_read s.regs _ hs hon hoff]

theorem phaseRemote_voices (s : State) (n : Nat) : (s.phaseRemote n).voices = s.voices := by rw [phaseRemote_frame]

/-- Every voice after a CALLBACK has latched the registers, been rendered or not, and been tested for reclamation. -/
theorem callbackWhole_voices_eq_map (s : State) (n : Nat) :
    ∃ (vs : List Voice) (p : Params), (s.callbackWhole n).voices =
      vs.map fun v => ((v.latch s.regs).afterBlock p n).reclaim p.eps := by
  have hlatch : Voice.latch (s.requested n).regs = Voice.latch s.regs :=
    funext (latch_congr (requested_read_paramRegs s n))
  refine ⟨((s.requested n).phaseResize (s.requested n).regs.polyTarget).voices, (s.requested n).params, ?_⟩
  rw [callbackWhole_voices, phasesAfterRequests_eq_rendered, phaseRemote_voices, State.rendered, State.phaseResize_eq,
    State.phaseRender, State.poolRenderMixed_eq, State.phaseLatch_eq, hlatch]
  dsimp only
  rw [mixVoices_fst, List.map_map]
  rfl

theorem callbackWhole_latched (s : State) (n : Nat) : ∀ v ∈ (s.callbackWhole n).voices, v.Latched s.regs := by
  obtain ⟨vs, p, hvs⟩ := callbackWhole_voices_eq_map s n
  intro v hv
  obtain ⟨u, -, rfl⟩ := List.mem_map.mp (hvs ▸ hv)
  exact ((latched_latch s.regs u).afterBlock p n).reclaim p.eps

/-! ### The values as the statement writes them -/

/-- A phase in degrees, wrapped, as a fraction of a turn (R10, R136). -/
theorem wrap360_div (d : Rat) : wrap360 d / 360 = Int.fract (d / 360) := by
  rw [wrap360, rat_floor_eq, Int.fract]
  ring

theorem stageCount_cast (w : Word) : (stageCount w : Int) = max 0 (min w.toInt 4) := by
  rw [stageCount_eq]
  exact Int.toNat_of_nonneg (le_max_left _ _)

/-- Settles O36: the values are those of the latch, each clamp written as a maximum of a minimum. -/
theorem allVoicesLatchTheSame : Obligations.AllVoicesLatchTheSame := by
  intro s t n hph hgrain hn hexec v hv
  cases (exec_callback_whole hph hn hgrain).symm.trans hexec
  have h := callbackWhole_latched s (u32 n) v hv
  refine ⟨fun j => ?_, h.ftype, fun hc => h.ftype.trans (hc ▸ rfl), fun hc => h.ftype.trans (hc ▸ rfl),
    fun hc => h.ftype.trans (hc ▸ rfl), h.cutoff, h.q, ?_, h.env.attackT, h.env.decayT, ?_, h.env.releaseT, h.gain⟩
  · have ho := h.osc j
    exact ⟨ho.wave, fun hc => ho.wave.trans (hc ▸ rfl), fun hc => ho.wave.trans (hc ▸ rfl),
      fun hc => ho.wave.trans (hc ▸ rfl), ho.oct.trans (clampInt_eq_max_min _ (by decide)),
      ho.det.trans (clamp_eq_max_min _ (by norm_num)), ho.phoff.trans (wrap360_div _)⟩
  · rw [h.nst]
    exact stageCount_cast _
  · exact h.env.sustainL.trans (clamp_eq_max_min _ (by norm_num))

end Sys2Proof.Machine
end

section
/-!
PROOF. Every callback in progress comes to its end by AUDIO turns alone, whatever reads they pick (spec/48_orchestrator.md
R200; 20_memory.md R81). By recursion on the events still to do: an event goes off the list and puts at most finitely many
before the rest. Two kinds of event put one of their own kind back, and for each of them something gets less: a group of
reads loses the register it has read (`Terminates.reads`), and the test of the advance loop takes a step length from ACC
(`ends_seqLoop`).
-/

namespace Sys2Proof.Machine

/-- AUDIO turns alone bring PH to 0, whatever reads they pick. -/
def State.Ends (s : State) : Prop := ∀ pick : Nat → Nat, ∃ k, (State.audioEvents pick k s).ph = 0

/-- Every callback with the events `todo` left ends, in whatever state of the block. -/
def Terminates (todo : List Event) : Prop := ∀ s : State, 0 < s.params.fs → s.cb.todo = todo → s.Ends

/-! ### One turn -/

theorem audioEvents_succ (pick : Nat → Nat) (k : Nat) (s : State) :
    State.audioEvents pick (k + 1) s = State.audioEvents (fun j => pick (j + 1)) k (s.audioEvent (pick 0)) := by
  induction k with
  | zero => rfl
  | succ k ih => rw [State.audioEvents, ih, State.audioEvents]

theorem State.Ends.of_audioEvent {s : State} (h : ∀ pick, (s.audioEvent pick).Ends) : s.Ends := by
  intro pick
  obtain ⟨k, hk⟩ := h (pick 0) fun j => pick (j + 1)
  exact ⟨k + 1, by rwa [audioEvents_succ]⟩

theorem settlePh_todo (s : State) : s.settlePh.cb.todo = s.cb.todo := by
  unfold State.settlePh
  split
  · exact Eq.symm ‹_›
  · rfl

theorem Terminates.nil : Terminates [] := by
  intro s _ htodo pick
  refine ⟨1, ?_⟩
  rw [State.audioEvents, State.audioEvents, State.audioEvent, htodo]
  rfl

/-- An event whose turn, for each pick, leaves events that end. -/
theorem Terminates.cons {e : Event} {rest : List Event}
    (h : ∀ (s : State) (pick : Nat), ∃ es, (s.runEvent pick e).cb.todo = es ++ s.cb.todo ∧ Terminates (es ++ rest)) :
    Terminates (e :: rest) := by
  intro s hfs htodo
  refine .of_audioEvent fun pick => ?_
  obtain ⟨es, hes, hend⟩ := h (s.withCb { s.cb with todo := rest }) pick
  rw [audioEvent_cons htodo]
  refine hend _ ?_ ((settlePh_todo _).trans hes)
  rw [params_settlePh, params_runEvent]
  exact hfs

/-! ### Events that put none before the rest -/

/-- The event leaves the events still to do as they are. -/
def Event.Quiet (e : Event) : Prop := ∀ (s : State) (pick : Nat), (s.runEvent pick e).cb.todo = s.cb.todo

theorem OnlyNotes.todo {s t : State} (h : OnlyNotes s t) : t.cb.todo = s.cb.todo := by
  obtain ⟨-, -, -, -, hcb, -⟩ := h.fields
  rw [hcb]

theorem quiet_seqTrigger (d : Degree) : (Event.seqTrigger d).Quiet := fun s _ =>
  (onlyNotes_seqTrigger s d s.cb.octave s.progressSps).todo

theorem quiet_requestOn (d : Degree) : (Event.requestOn d).Quiet := fun s _ => (onlyNotes_poolNoteOn s d s.cb.octave).todo

theorem quiet_seqRelease : Event.seqRelease.Quiet := fun s _ =>
  ((onlyNotes_seqReleaseAll s).trans (onlyNotes_withSeq _ _)).todo

theorem quiet_requestOffs : Event.requestOffs.Quiet := fun s _ => (onlyNotes_requestOffs s s.cb.seen.noteOffReq).todo

theorem quiet_resize : Event.resize.Quiet := fun s _ => by rw [State.runEvent, State.phaseResize_eq]

theorem Terminates.quiet {e : Event} {rest : List Event} (he : e.Quiet) (h : Terminates rest) : Terminates (e :: rest) :=
  .cons fun s pick => ⟨[], he s pick, h⟩

theorem Terminates.append {es rest : List Event} (hes : ∀ e ∈ es, e.Quiet) (h : Terminates rest) :
    Terminates (es ++ rest) := by
  induction es with
  | nil => exact h
  | cons e es ih =>
    obtain ⟨he, hes⟩ := List.forall_mem_cons.mp hes
    exact .quiet he (ih hes)

/-! ### The reads of an unordered group (R81) -/

/-- A group loses the register it has read, so it is read up. -/
theorem Terminates.reads {g : List RegName → Event}
    (hrun : ∀ (s : State) pick rs, s.runEvent pick (g rs) = s.readOneOf g pick rs) {rest : List Event} (h : Terminates rest)
    (rs : List RegName) : Terminates (g rs :: rest) := by
  induction hlen : rs.length generalizing rs with
  | zero =>
    obtain rfl := List.length_eq_zero_iff.mp hlen
    exact .quiet (fun s pick => by rw [hrun]; rfl) h
  | succ m ih =>
    refine .cons fun s pick => ?_
    have hi : pick % rs.length < rs.length := Nat.mod_lt _ (hlen ▸ m.succ_pos)
    rw [hrun, readOneOf_eq s g (List.getElem?_eq_getElem hi)]
    refine ⟨_, rfl, ?_⟩
    split
    · exact h
    · exact ih _ (by rw [List.length_eraseIdx_of_lt hi, hlen, Nat.add_sub_cancel])

/-! ### The advance loop (R181) -/

/-- The advance loop can enter fewer than m steps, from the ACC and at the BPM the callback has. -/
structure State.StepsBelow (m : Nat) (s : State) : Prop where
  fs : 0 < s.params.fs
  acc : s.seq.acc < m * s.progressSps

theorem progressSps_pos {s : State} (hfs : 0 < s.params.fs) : 0 < s.progressSps := stepLength_pos hfs _

theorem exists_stepsBelow {s : State} (hfs : 0 < s.params.fs) : ∃ m, s.StepsBelow m := by
  obtain ⟨m, hm⟩ := exists_nat_gt (s.seq.acc / s.progressSps)
  exact ⟨m, hfs, (div_lt_iff₀ (progressSps_pos hfs)).mp hm⟩

theorem settlePh_of_left {s : State} (h : s.cb.todo ≠ []) : ∃ ph, s.settlePh = s.withPh ph := by
  obtain ⟨e, rest, htodo⟩ := List.exists_cons_of_ne_nil h
  exact ⟨e.phase, settlePh_head (by rw [htodo]; rfl)⟩

/-- An event that leaves the events `left` to do, the bound of the loop as given. -/
theorem State.Ends.of_stepsBelow {m : Nat} {left : List Event} (h : ∀ s : State, s.StepsBelow m → s.cb.todo = left → s.Ends)
    (hleft : left ≠ []) {s : State} {e : Event} {rest : List Event} (htodo : s.cb.todo = e :: rest)
    (hrun : ∀ pick, ((s.withCb { s.cb with todo := rest }).runEvent pick e).StepsBelow m ∧
      ((s.withCb { s.cb with todo := rest }).runEvent pick e).cb.todo = left) : s.Ends := by
  refine .of_audioEvent fun pick => ?_
  obtain ⟨hbound, hrest⟩ := hrun pick
  obtain ⟨ph, hph⟩ := settlePh_of_left (hrest ▸ hleft)
  rw [audioEvent_cons htodo, hph]
  exact h _ ⟨hbound.fs, hbound.acc⟩ hrest

theorem State.StepsBelow.withTodo {m : Nat} {s : State} (h : s.StepsBelow m) (todo : List Event) :
    (s.withCb { s.cb with todo := todo }).StepsBelow m := ⟨h.fs, h.acc⟩

theorem State.StepsBelow.runEvent_seqTrigger {m : Nat} {s : State} (h : s.StepsBelow m) (pick : Nat) (d : Degree) :
    (s.runEvent pick (.seqTrigger d)).StepsBelow m := by
  rw [State.runEvent, seqTrigger_eq, State.poolNoteOn_eq]
  exact ⟨h.fs, h.acc⟩

section

variable {m : Nat} {rest : List Event}

theorem triggers_ne_nil (ds : List Degree) : ds.map .seqTrigger ++ .seqStep :: rest ≠ [] :=
  List.append_ne_nil_of_right_ne_nil _ (List.cons_ne_nil _ _)

/-- The triggers of a step come before the next test and leave its outcome as it is. -/
theorem ends_triggers (h : ∀ s : State, s.StepsBelow m → s.cb.todo = .seqStep :: rest → s.Ends) (ds : List Degree)
    {s : State} (hs : s.StepsBelow m) (htodo : s.cb.todo = ds.map .seqTrigger ++ .seqStep :: rest) : s.Ends := by
  induction ds generalizing s with
  | nil => exact h s hs htodo
  | cons d ds ih =>
    exact .of_stepsBelow (fun _ => ih) (triggers_ne_nil ds) htodo fun pick =>
      ⟨(hs.withTodo _).runEvent_seqTrigger pick d, quiet_seqTrigger d _ pick⟩

/-- The test fails: the rest of the callback ends. -/
theorem ends_of_testFails (hrest : Terminates rest) {s : State} (hfs : 0 < s.params.fs)
    (htodo : s.cb.todo = .seqStep :: rest) (hacc : s.seq.acc < s.progressSps) : s.Ends := by
  refine .of_audioEvent fun pick => ?_
  have hrun : (s.withCb { s.cb with todo := rest }).runEvent pick .seqStep = s.withCb { s.cb with todo := rest } :=
    if_neg (not_le.mpr hacc)
  rw [audioEvent_cons htodo, hrun]
  exact hrest _ (by rw [params_settlePh]; exact hfs) (settlePh_todo _)

/-- The test succeeds: a step length leaves ACC, and the triggers of the step and the next test are to do. -/
theorem ends_of_testSucceeds (h : ∀ s : State, s.StepsBelow m → s.cb.todo = .seqStep :: rest → s.Ends) {s : State}
    (hs : s.StepsBelow (m + 1)) (htodo : s.cb.todo = .seqStep :: rest) (hacc : s.progressSps ≤ s.seq.acc) : s.Ends := by
  set ds := degreesIn (s.cb.seen.write (.grid (s.seq.step + 1)) s.regs.grid[s.seq.step + 1]).grid[s.seq.step + 1]
  have hrun (pick : Nat) : (s.withCb { s.cb with todo := rest }).runEvent pick .seqStep =
      (((s.withCb { s.cb with todo := rest }).seqEnterStep s.progressSps).see (.grid (s.seq.step + 1))).pushEvents
        (ds.map .seqTrigger ++ [.seqStep]) := if_pos hacc
  have hlt : s.seq.acc - s.progressSps < m * s.progressSps := by
    have hbound := hs.acc
    push_cast at hbound
    linarith
  refine .of_stepsBelow (fun _ => ends_triggers h ds) (triggers_ne_nil ds) htodo fun pick => ?_
  rw [hrun]
  exact ⟨⟨hs.fs, hlt⟩, List.append_assoc _ _ _⟩

/-- Each test that succeeds takes a step length from ACC. -/
theorem ends_seqLoop (hrest : Terminates rest) {s : State} (hs : s.StepsBelow m) (htodo : s.cb.todo = .seqStep :: rest) :
    s.Ends := by
  induction m generalizing s with
  | zero =>
    have hneg : s.seq.acc < 0 := by simpa using hs.acc
    exact ends_of_testFails hrest hs.fs htodo (hneg.trans (progressSps_pos hs.fs))
  | succ m ih =>
    by_cases hacc : s.progressSps ≤ s.seq.acc
    · exact ends_of_testSucceeds (fun _ => ih) hs htodo hacc
    · exact ends_of_testFails hrest hs.fs htodo (not_le.mp hacc)

theorem Terminates.seqStep (h : Terminates rest) : Terminates (.seqStep :: rest) := by
  intro s hfs htodo
  obtain ⟨m, hm⟩ := exists_stepsBelow hfs
  exact ends_seqLoop h hm htodo

end

/-! ### Any events -/

theorem Terminates.event (e : Event) {rest : List Event} (h : Terminates rest) : Terminates (e :: rest) := by
  cases e with
  | readTiming rs | readPoly rs | readParams rs | readRemote rs => exact .reads (fun _ _ _ => rfl) h rs
  | seqAdvance =>
    refine .cons fun s pick => ?_
    cases hplay : isPlaying s.cb.seen.play with
    | true => exact ⟨[.seqStep], by simp only [State.runEvent, hplay, if_true]; rfl, h.seqStep⟩
    | false => exact ⟨[], by simp only [State.runEvent, hplay]; rfl, h⟩
  | seqStep => exact h.seqStep
  | drainOff =>
    refine .cons fun s pick => ⟨_, rfl, .append (fun e he => ?_) h⟩
    obtain ⟨d, -, rfl⟩ := List.mem_map.mp he
    exact quiet_requestOn d
  | pop =>
    refine .cons fun s pick => ?_
    by_cases hpop : popWithheld s.regs.jbTarget s.queue = true
    · exact ⟨[.underrun], by rw [State.runEvent, if_pos hpop]; rfl, .quiet (fun _ _ => rfl) h⟩
    · exact ⟨[], by rw [State.runEvent, if_neg hpop]; rfl, h⟩
  | seqTrigger d => exact .quiet (quiet_seqTrigger d) h
  | requestOn d => exact .quiet (quiet_requestOn d) h
  | seqRelease => exact .quiet quiet_seqRelease h
  | requestOffs => exact .quiet quiet_requestOffs h
  | resize => exact .quiet quiet_resize h
  | zero | drainOn | latch | render | underrun | mix | emit => exact .quiet (fun _ _ => rfl) h

theorem terminates (todo : List Event) : Terminates todo := by
  induction todo with
  | nil => exact .nil
  | cons e rest ih => exact ih.event e

/-- Settles O17: whatever events are still to do, they end. -/
theorem callbackAlwaysFinishes : Obligations.CallbackAlwaysFinishes := fun s pick h =>
  terminates s.cb.todo s (Params.WF.fs_pos h.params) rfl pick

end Sys2Proof.Machine
end

section
/-!
PROOF. WR and RD (spec/49_host_commands.md R218 to R222). An address is unmapped or that of one register, which is read-only
or not; a WR to a writable register but STATUS stores the pattern its type makes of the data (`storedPattern`), or is refused
where the type makes none.
-/

namespace Sys2Proof.Machine

/-! ### The address -/

theorem regAt_eq_none {a : Addr} (h : ∀ r : RegName, r.addr ≠ a) : regAt a = none :=
  Option.eq_none_iff_forall_ne_some.mpr fun r hr => h r (regAt_eq_some hr)

theorem RegName.readOnly_iff (r : RegName) : r.readOnly = true ↔ r = .jbSize ∨ r = .noteOnReq ∨ r = .noteOffReq := by
  cases r <;> simp [RegName.readOnly]

theorem RegName.readOnly_eq_false {r : RegName} (hsize : r ≠ .jbSize) (hon : r ≠ .noteOnReq) (hoff : r ≠ .noteOffReq) :
    r.readOnly = false :=
  Bool.eq_false_iff.mpr fun h => by rcases r.readOnly_iff.mp h with e | e | e <;> contradiction

theorem RegName.ne_jbSize_of_writable {r : RegName} (h : r.readOnly = false) : r ≠ .jbSize := by
  rintro rfl
  cases h

theorem exec_wr_unmapped (s : State) {addr : Addr} (h : ∀ r : RegName, r.addr ≠ addr) (data : Word) :
    exec (.wr addr data) s = .next (s.flag .badaddr) := by
  simp only [exec, execWr, regAt_eq_none h]

theorem exec_wr_readOnly (s : State) {r : RegName} (h : r.readOnly = true) (data : Word) :
    exec (.wr r.addr data) s = .next (s.flag .badaddr) := by
  simp only [exec, execWr, regAt_addr, h, if_true]

theorem exec_rd_unmapped (s : State) {addr : Addr} (h : ∀ r : RegName, r.addr ≠ addr) :
    exec (.rd addr) s = .next ((s.flag .badaddr).respond 0) := by
  simp only [exec, execRd, regAt_eq_none h]

/-! ### The value -/

/-- The data no register of type `t` takes (R221). -/
abbrev RefusedValue (t : RegType) (data : Word) : Prop :=
  (t = .f32 ∧ data.extractLsb' 23 8 = 255#8) ∨ (t = .enum ∧ 2 < data.toNat)

theorem refusedValue_enum (data : Word) : RefusedValue .enum data ↔ 2 < data.toNat := by
  simp [RefusedValue]

theorem refusedValue_f32 (data : Word) : RefusedValue .f32 data ↔ data.extractLsb' 23 8 = 255#8 := by
  simp [RefusedValue]

theorem storedPattern_of_refused {t : RegType} {data : Word} (h : RefusedValue t data) : storedPattern t data = none := by
  rcases h with ⟨rfl, hexp⟩ | ⟨rfl, hcode⟩
  · exact if_pos ((f32NonFinite_iff data).mpr hexp)
  · exact if_pos hcode

/-- Any other data is taken: bit 0 of it, bits 11:0 or all of it (R218). -/
theorem storedPattern_of_not_refused {t : RegType} {data : Word} (h : ¬ RefusedValue t data) :
    storedPattern t data = some
      (if t = .bit then data &&& 0x00000001#32 else if t = .mask12 then data &&& 0x00000FFF#32 else data) := by
  cases t with
  | flags | bit | mask12 | s32 | u32 => rfl
  | enum => exact if_neg fun hcode => h (.inr ⟨rfl, hcode⟩)
  | f32 => exact if_neg fun hexp => h (.inl ⟨rfl, (f32NonFinite_iff data).mp hexp⟩)

theorem writeReg_of_none (s : State) {r : RegName} (hstatus : r ≠ .status) {data : Word}
    (h : storedPattern r.type data = none) : s.writeReg r data = s.flag .badval := by
  rw [State.writeReg, if_neg hstatus, h]

theorem writeReg_of_some (s : State) {r : RegName} (hstatus : r ≠ .status) {data w : Word}
    (h : storedPattern r.type data = some w) : s.writeReg r data = s.regWrite r w := by
  rw [State.writeReg, if_neg hstatus, h]

theorem stores_writeReg_refused (s : State) {r : RegName} (hstatus : r ≠ .status) {data : Word}
    (h : RefusedValue r.type data) : s.Stores .status (s.regs.status ||| 0x00000004#32) (s.writeReg r data) := by
  rw [writeReg_of_none s hstatus (storedPattern_of_refused h)]
  exact stores_flag s .badval

theorem stores_writeReg_taken (s : State) {r : RegName} (hstatus : r ≠ .status) (hro : r.readOnly = false) {data : Word}
    (h : ¬ RefusedValue r.type data) :
    s.Stores r (if r.type = .bit then data &&& 0x00000001#32 else if r.type = .mask12 then data &&& 0x00000FFF#32 else data)
      (s.writeReg r data) := by
  rw [writeReg_of_some s hstatus (storedPattern_of_not_refused h)]
  exact stores_regWrite s _ (RegName.ne_jbSize_of_writable hro)

/-- STATUS is write-one-to-clear (R36). -/
theorem stores_writeReg_status (s : State) (data : Word) :
    s.Stores .status (s.regs.status &&& ~~~(data &&& 0x0000007F#32)) (s.writeReg .status data) :=
  stores_regWrite s (r := .status) _ (by decide)

/-- Settles O22: whether the value is refused is whether its type makes a pattern of it. -/
theorem refusedValues : Obligations.RefusedValues := by
  intro s r data hstatus hsize hon hoff
  have hro := RegName.readOnly_eq_false hsize hon hoff
  refine ⟨_, exec_wr_addr s hro data, ?_⟩
  by_cases h : RefusedValue r.type data
  · rw [if_pos h]
    exact stores_writeReg_refused s hstatus h
  · rw [if_neg h]
    exact stores_writeReg_taken s hstatus hro h

/-- What a WR to a writable register leaves, case by case of the register's type as R218 lists them. -/
theorem stores_writeReg_byType (s : State) {r : RegName} (hro : r.readOnly = false) (data : Word) :
    match r.type with
    | .flags => r = .status
    | .bit => s.Stores r (data &&& 0x00000001#32) (s.writeReg r data)
    | .mask12 => s.Stores r (data &&& 0x00000FFF#32) (s.writeReg r data)
    | .s32 => s.Stores r data (s.writeReg r data)
    | .u32 => s.Stores r data (s.writeReg r data)
    | .enum =>
      if 2 < data.toNat then s.Stores .status (s.regs.status ||| 0x00000004#32) (s.writeReg r data)
      else s.Stores r data (s.writeReg r data)
    | .f32 =>
      if data.extractLsb' 23 8 = 255#8 then s.Stores .status (s.regs.status ||| 0x00000004#32) (s.writeReg r data)
      else s.Stores r data (s.writeReg r data) := by
  by_cases hstatus : r = .status
  · subst hstatus
    rfl
  have hrefused := stores_writeReg_refused s hstatus (data := data)
  have htaken := stores_writeReg_taken s hstatus hro (data := data)
  cases htype : r.type with
  | flags => exact absurd htype (type_ne_flags hstatus)
  | bit | mask12 | s32 | u32 =>
    rw [htype] at htaken
    exact htaken (by simp [RefusedValue])
  | enum =>
    rw [htype, refusedValue_enum] at hrefused htaken
    by_cases hcode : 2 < data.toNat
    · exact (if_pos hcode).mpr (hrefused hcode)
    · exact (if_neg hcode).mpr (htaken hcode)
  | f32 =>
    rw [htype, refusedValue_f32] at hrefused htaken
    by_cases hexp : data.extractLsb' 23 8 = 255#8
    · exact (if_pos hexp).mpr (hrefused hexp)
    · exact (if_neg hexp).mpr (htaken hexp)

/-- Settles O21: by whether the address is unmapped, read-only or writable. -/
theorem wrFollowsItsRule : Obligations.WrFollowsItsRule := by
  intro s addr data
  by_cases hmapped : ∃ r : RegName, r.addr = addr
  · obtain ⟨r, rfl⟩ := hmapped
    cases hro : r.readOnly with
    | true =>
      refine ⟨_, exec_wr_readOnly s hro data, rfl, fun _ => stores_flag s .badaddr, fun h => ?_, fun r' h hsize hon hoff => ?_⟩
      · rw [addr_injective (r' := .status) h] at hro
        cases hro
      · rw [← addr_injective h, RegName.readOnly_eq_false hsize hon hoff] at hro
        cases hro
    | false =>
      refine ⟨_, exec_wr_addr s hro data, rfl, fun h => ?_, fun h => ?_, fun r' h _ _ _ => ?_⟩
      · have hreadOnly : r.readOnly = true :=
          r.readOnly_iff.mpr (h.resolve_left (fun h => h r rfl) |>.imp addr_injective (.imp addr_injective addr_injective))
        rw [hro] at hreadOnly
        cases hreadOnly
      · rw [addr_injective (r' := .status) h]
        exact stores_writeReg_status s data
      · rw [addr_injective h]
        exact stores_writeReg_byType s hro data
  · have hunmapped : ∀ r : RegName, r.addr ≠ addr := not_exists.mp hmapped
    exact ⟨_, exec_wr_unmapped s hunmapped data, rfl, fun _ => stores_flag s .badaddr,
      fun h => absurd h.symm (hunmapped _), fun r h => absurd h (hunmapped r)⟩

/-- Settles O23: the three addresses are those of the read-only registers. -/
theorem refusedAddresses : Obligations.RefusedAddresses := by
  intro s addr
  refine ⟨fun h data => ⟨exec_wr_unmapped s h data, exec_rd_unmapped s h⟩, fun h data => ?_⟩
  have hreg : ∃ r : RegName, r.readOnly = true ∧ r.addr = addr := by
    rcases h with rfl | rfl | rfl
    · exact ⟨.jbSize, rfl, rfl⟩
    · exact ⟨.noteOnReq, rfl, rfl⟩
    · exact ⟨.noteOffReq, rfl, rfl⟩
  obtain ⟨r, hro, rfl⟩ := hreg
  exact ⟨exec_wr_readOnly s hro data, _, exec_rd_addr s r⟩

theorem regRead_eq_ite (s : State) (r : RegName) :
    s.regRead r = if r = .jbSize then BitVec.ofNat 32 s.queue.length else s.regs.read r := by
  by_cases h : r = .jbSize
  · rw [if_pos h, h]
    rfl
  · rw [if_neg h, regRead_of_ne_jbSize s h]

/-- Settles O24. -/
theorem rdAnswers : Obligations.RdAnswers := by
  refine fun s addr => ⟨rfl, ?_, exec_rd_unmapped s⟩
  rintro r rfl
  rw [exec_rd_addr, regRead_eq_ite]
  rfl

end Sys2Proof.Machine
end

section
/-!
PROOF. No command (spec/60_exceptions.md R252), and no stop (R240, R244): each command has a next state by one of its own
cases, and so has each step.
-/

namespace Sys2Proof.Machine

/-- Settles O9. -/
theorem noCommandHoldsState : Obligations.NoCommandHoldsState :=
  ⟨fun _ hsched => (StepCase.idle hsched rfl).step_eq,
    fun _ turn rest hsched htakes hpend => (StepCase.empty turn rest hsched htakes hpend rfl).step_eq⟩

theorem exists_exec_wr (addr : Addr) (data : Word) (s : State) : ∃ t, exec (.wr addr data) s = .next t := by
  by_cases hmapped : ∃ r : RegName, r.addr = addr
  · obtain ⟨r, rfl⟩ := hmapped
    cases hro : r.readOnly with
    | true => exact ⟨_, exec_wr_readOnly s hro data⟩
    | false => exact ⟨_, exec_wr_addr s hro data⟩
  · exact ⟨_, exec_wr_unmapped s (not_exists.mp hmapped) data⟩

theorem exists_exec_rd (addr : Addr) (s : State) : ∃ t, exec (.rd addr) s = .next t := by
  by_cases hmapped : ∃ r : RegName, r.addr = addr
  · obtain ⟨r, rfl⟩ := hmapped
    exact ⟨_, exec_rd_addr s r⟩
  · exact ⟨_, exec_rd_unmapped s (not_exists.mp hmapped)⟩

theorem exists_exec_callback (n : Word) (s : State) : ∃ t, exec (.callback n) s = .next t := by
  by_cases hph : s.ph = 0
  · rcases le_or_gt (u32 n) s.params.maxFrames with hn | hn
    · cases hgrain : s.grain with
      | whole => exact ⟨_, exec_callback_whole hph hn hgrain⟩
      | split => exact ⟨_, exec_callback_split hph hn hgrain⟩
    · exact ⟨_, exec_callback_oversize hph hn⟩
  · exact ⟨_, exec_callback_busy hph⟩

/-- Every command completes (R240). -/
theorem exists_exec (i : Instr) (s : State) : ∃ t, exec i s = .next t := by
  cases i with
  | nop addr data | noteon mask | noteoff mask => exact ⟨_, rfl⟩
  | reset =>
    by_cases hph : s.ph = 0
    · exact ⟨_, execReset_idle hph⟩
    · exact ⟨_, execReset_busy hph⟩
  | wr addr data => exact exists_exec_wr addr data s
  | rd addr => exact exists_exec_rd addr s
  | callback n => exact exists_exec_callback n s
  | jbpush nbytes =>
    rcases lt_or_ge s.io.netRx.length (u32 nbytes) with hrx | hrx
    · exact ⟨_, exec_jbpush_waits hrx⟩
    · exact ⟨_, exec_jbpush_arrived hrx⟩

/-- Settles O11: a turn is over by itself or runs a command. -/
theorem stepNeverStops : Obligations.StepNeverStops := by
  refine ⟨exists_exec, fun s => ?_⟩
  match hfetch : fetch s with
  | .over t => exact ⟨t, step_of_over hfetch⟩
  | .run i u =>
    rw [step_of_run hfetch]
    exact exists_exec i u

end Sys2Proof.Machine
end

section
/-!
PROOF. The other CTRL commands (spec/49_host_commands.md R217, R223 to R225): NOTEON and NOTEOFF, the frame of all but RESET,
and a RESET that has to wait.
-/

namespace Sys2Proof.Machine

/-! ### NOTEON and NOTEOFF -/

/-- `RegOr(r, mask)` of a stored register: the bits of the mask beside those there, every other register as before. -/
theorem regOr_mask (s : State) {r : RegName} (h : r ≠ .jbSize) (mask : BitVec 12) :
    (∀ r' : RegName, r' ≠ r → (s.regOr r (mask.setWidth 32)).regRead r' = s.regRead r') ∧
    ∀ k : Nat, ((s.regOr r (mask.setWidth 32)).regs.read r).getLsbD k = ((s.regs.read r).getLsbD k || mask.getLsbD k) := by
  obtain ⟨-, hother, -⟩ := stores_regWrite s (s.regs.read r ||| mask.setWidth 32) h
  refine ⟨hother, fun k => ?_⟩
  have hmask : (mask.setWidth 32).getLsbD k = mask.getLsbD k := by
    rw [BitVec.getLsbD_setWidth]
    by_cases hk : k < 32
    · rw [decide_eq_true hk, Bool.true_and]
    · rw [BitVec.getLsbD_of_ge mask k (by omega), Bool.and_false]
  rw [State.regOr_regs, read_write_same _ r _ h, BitVec.getLsbD_or, hmask]

/-- Settles O26. -/
theorem requestsMergeByOr : Obligations.RequestsMergeByOr := fun s mask =>
  ⟨⟨_, rfl, rfl, regOr_mask s (r := .noteOnReq) (by decide) mask⟩,
    ⟨_, rfl, rfl, regOr_mask s (r := .noteOffReq) (by decide) mask⟩⟩

/-! ### The frame -/

/-- `t` differs from `s` only in the registers and in the words `sent` on CTRL.rsp after those of `s`. -/
def OnlyCtrl (s : State) (sent : List Word) (t : State) : Prop :=
  t = (s.withRegs t.regs).withIo { s.io with ctrlRsp := s.io.ctrlRsp ++ sent }

theorem onlyCtrl_of_withRegs {s t : State} (h : t = s.withRegs t.regs) : OnlyCtrl s [] t := by
  unfold OnlyCtrl
  rw [List.append_nil]
  exact h

theorem onlyCtrl_respond {s t : State} (h : t = s.withRegs t.regs) (w : Word) : OnlyCtrl s [w] (t.respond w) := by
  unfold OnlyCtrl
  rw [h]
  rfl

theorem writeReg_eq_withRegs (s : State) (name : RegName) (data : Word) :
    s.writeReg name data = s.withRegs (s.writeReg name data).regs := by
  unfold State.writeReg
  split
  · rfl
  · split <;> rfl

/-- The words sent are those `t` has on CTRL.rsp past the words of `s`. -/
theorem OnlyCtrl.sent_eq {s t : State} {sent : List Word} (h : OnlyCtrl s sent t) :
    t.io.ctrlRsp.drop s.io.ctrlRsp.length = sent := by
  unfold OnlyCtrl at h
  rw [h]
  exact List.drop_left

theorem exec_onlyCtrl {i : Instr} {s t : State} (hport : i.port = .ctrl) (hreset : i ≠ .reset) (h : exec i s = .next t) :
    ∃ sent, OnlyCtrl s sent t := by
  cases i with
  | reset => exact absurd rfl hreset
  | callback n | jbpush nbytes => cases hport
  | nop addr data | noteon mask | noteoff mask =>
    cases h
    exact ⟨_, onlyCtrl_of_withRegs rfl⟩
  | wr addr data =>
    rcases execWr_cases h with rfl | ⟨name, rfl⟩
    · exact ⟨_, onlyCtrl_of_withRegs rfl⟩
    · exact ⟨_, onlyCtrl_of_withRegs (writeReg_eq_withRegs s name data)⟩
  | rd addr =>
    rcases execRd_cases h with rfl | ⟨name, rfl⟩
    · exact ⟨_, onlyCtrl_respond rfl 0⟩
    · exact ⟨_, onlyCtrl_respond rfl _⟩

/-- Settles O27: the command completes, and its frame is that of its own cases. -/
theorem ctrlCommandsTouchOnlyRegisters : Obligations.CtrlCommandsTouchOnlyRegisters := by
  intro i s hport hreset
  obtain ⟨t, hexec⟩ := exists_exec i s
  obtain ⟨sent, hframe⟩ := exec_onlyCtrl hport hreset hexec
  exact ⟨t, hexec, hframe.sent_eq.symm ▸ hframe⟩

/-! ### RESET during a callback -/

theorem decodeOn_reset : decodeOn .ctrl (encode .reset) = .ok .reset :=
  (decodeOn_eq_ok_iff (decode_encode .reset) .ctrl).mpr rfl

/-- A word taken off its port and held is back where it was. -/
theorem hold_taken {s : State} {turn : Turn} {ws : List Command} {i : Instr} (hport : i.port = turn.port)
    (hpend : s.io.pending turn.port = encode i :: ws) (rest : List Turn) :
    (s.taken turn rest ws).hold i = s.withSched rest := by
  have hio : ((s.taken turn rest ws).hold i).io = s.io := by
    rw [State.hold_io, hport, State.taken, State.withIo_io, Channels.setPending_pending, Channels.setPending_setPending,
      ← hpend, Channels.setPending_self]
  exact congrArg (s.withSched rest).withIo hio

/-- Settles O20: the CTRL turn takes the RESET off its port, and the RESET puts itself back. -/
theorem resetWaitsForTheCallback : Obligations.ResetWaitsForTheCallback := by
  intro s rest ws hph hgrain hsched hpend
  have hstep := stepRunsDecodedInstruction s .ctrl rest _ ws .reset hsched (fun h => by cases h) hpend decodeOn_reset
  have htaken : (s.taken .ctrl rest ws).withGrain .whole = s.taken .ctrl rest ws := by
    rw [← hgrain]
    rfl
  refine hstep.trans ((congrArg (exec .reset) htaken).trans ?_)
  rw [execReset_busy (s := s.taken .ctrl rest ws) hph, hold_taken (turn := .ctrl) rfl hpend]

end Sys2Proof.Machine
end

section
/-!
PROOF. STATUS is sticky (spec/60_exceptions.md R241): an event of a callback, an illegal word and every command but WR STATUS
and RESET set flags and clear none (`FlagsGrow`).
-/

namespace Sys2Proof.Machine

/-! ### One flag -/

/-- Flag(b) sets one of the seven flags (R36, R242). -/
theorem flagsGrow_flag (s : State) (f : StatusFlag) :
    FlagsGrow 0x0000007F#32 s.regs.status (s.flag f).regs.status :=
  .or _ _ _ (by cases f <;> decide)

/-! ### The events of a callback -/

theorem readOneOf_regs (s : State) (group : List RegName → Event) (pick : Nat) (rs : List RegName) :
    (s.readOneOf group pick rs).regs = s.regs := by
  unfold State.readOneOf
  split
  · rfl
  · dsimp only
    split <;> rfl

theorem settlePh_regs (s : State) : s.settlePh.regs = s.regs := by
  unfold State.settlePh
  split <;> rfl

/-- Of the events only a note-on and a withheld pop set a flag (R173, R192). -/
theorem flagsGrow_runEvent (s : State) (pick : Nat) (e : Event) :
    FlagsGrow 0x0000007F#32 s.regs.status (s.runEvent pick e).regs.status := by
  cases e with
  | seqTrigger d | requestOn d => exact (flagsGrow_poolNoteOn s d s.cb.octave).mono (by decide)
  | underrun => exact flagsGrow_flag s .jbUnderrun
  | readTiming rs | readPoly rs | readParams rs | readRemote rs =>
    rw [State.runEvent, readOneOf_regs]
    exact .refl _ _
  | seqRelease =>
    rw [State.runEvent, State.seqAdvancePos, State.withSeq_regs, seqReleaseAll_regs]
    exact .refl _ _
  | requestOffs =>
    rw [State.runEvent, requestOffs_regs]
    exact .refl _ _
  | resize =>
    rw [State.runEvent, State.phaseResize_eq]
    exact .refl _ _
  | seqAdvance | seqStep | pop =>
    simp only [State.runEvent]
    split <;> exact .refl _ _
  | zero | drainOn | drainOff | latch | render | mix | emit => exact .refl _ _

theorem flagsGrow_audioEvent (s : State) (pick : Nat) :
    FlagsGrow 0x0000007F#32 s.regs.status (s.audioEvent pick).regs.status := by
  cases htodo : s.cb.todo with
  | nil =>
    rw [State.audioEvent, htodo]
    exact .refl _ _
  | cons e rest =>
    rw [audioEvent_cons htodo, settlePh_regs]
    exact flagsGrow_runEvent (s.withCb { s.cb with todo := rest }) pick e

/-! ### The commands -/

theorem flagsGrow_writeReg (s : State) {name : RegName} (h : name ≠ .status) (data : Word) :
    FlagsGrow 0x0000007F#32 s.regs.status (s.writeReg name data).regs.status := by
  cases hstored : storedPattern name.type data with
  | none =>
    rw [writeReg_of_none s h hstored]
    exact flagsGrow_flag s .badval
  | some w =>
    rw [writeReg_of_some s h hstored]
    have hstatus : (s.regWrite name w).regs.status = s.regs.status := read_write_other s.regs w h.symm
    rw [hstatus]
    exact .refl _ _

theorem flagsGrow_execWr {addr : Addr} {data : Word} {s t : State} (haddr : addr ≠ 0x0000)
    (h : exec (.wr addr data) s = .next t) : FlagsGrow 0x0000007F#32 s.regs.status t.regs.status := by
  by_cases hmapped : ∃ r : RegName, r.addr = addr
  · obtain ⟨r, rfl⟩ := hmapped
    cases hro : r.readOnly with
    | true =>
      cases (exec_wr_readOnly s hro data).symm.trans h
      exact flagsGrow_flag s .badaddr
    | false =>
      cases (exec_wr_addr s hro data).symm.trans h
      exact flagsGrow_writeReg s (fun hstatus => haddr (congrArg RegName.addr hstatus)) data
  · cases (exec_wr_unmapped s (not_exists.mp hmapped) data).symm.trans h
    exact flagsGrow_flag s .badaddr

theorem flagsGrow_jbPush (s : State) (blk : List Word) :
    FlagsGrow 0x0000007F#32 s.regs.status (s.jbPush blk).regs.status := by
  unfold State.jbPush
  dsimp only
  split
  · exact .refl _ _
  · exact flagsGrow_flag (s.withQueue _) .jbEvict

theorem flagsGrow_execCallback {n : Word} {s t : State} (h : exec (.callback n) s = .next t) :
    FlagsGrow 0x0000007F#32 s.regs.status t.regs.status := by
  by_cases hph : s.ph = 0
  · rcases execCallback_cases hph h with rfl | ⟨-, rfl⟩ | rfl
    · exact (flagsGrow_callbackWhole s _).mono (by decide)
    · exact .refl _ _
    · exact flagsGrow_flag (s.withGrain .whole) .illcmd
  · cases (exec_callback_busy hph).symm.trans h
    exact .refl _ _

/-- Every command but WR STATUS and RESET. -/
theorem flagsGrow_exec {i : Instr} {s t : State} (hwr : ∀ data, i ≠ .wr 0x0000 data) (hreset : i ≠ .reset)
    (h : exec i s = .next t) : FlagsGrow 0x0000007F#32 s.regs.status t.regs.status := by
  cases i with
  | reset => exact absurd rfl hreset
  | nop addr data | noteon mask | noteoff mask =>
    cases h
    exact .refl _ _
  | wr addr data => exact flagsGrow_execWr (fun haddr => hwr data (haddr ▸ rfl)) h
  | rd addr =>
    rcases execRd_cases h with rfl | ⟨name, rfl⟩
    · exact flagsGrow_flag s .badaddr
    · exact .refl _ _
  | callback n => exact flagsGrow_execCallback h
  | jbpush nbytes =>
    rcases execJbpush_cases h with rfl | rfl | ⟨-, rfl⟩
    · exact .refl _ _
    · exact flagsGrow_flag (s.takeRx _) .jbMalformed
    · exact flagsGrow_jbPush (s.takeRx _) _

/-- A CTRL command that a step runs stood at the head of CTRL.cmd, on CTRL's turn. -/
theorem ctrlCmd_of_decodeOn {s : State} {turn : Turn} {w : Command} {ws : List Command} {i : Instr}
    (hdec : decodeOn turn.port w = .ok i) (hi : i.port = .ctrl) (hpend : s.io.pending turn.port = w :: ws) :
    turn = .ctrl ∧ s.io.ctrlCmd = encode i :: ws := by
  obtain ⟨hport, hword⟩ := decodeOn_eq_ok hdec
  obtain rfl := Turn.eq_ctrl (hport.symm.trans hi)
  exact ⟨rfl, hword.symm ▸ hpend⟩

/-- Settles O29: case by case of the step. -/
theorem statusIsSticky : Obligations.StatusIsSticky := by
  intro s t h
  cases StepCase.of_step h with
  | idle hsched ht => exact .inl (ht ▸ BitVec.and_self)
  | event turn rest hsched hport hph ht => exact .inl (ht ▸ (flagsGrow_audioEvent (s.withSched rest) turn.pick).1)
  | empty turn rest hsched htakes hpend ht => exact .inl (ht ▸ BitVec.and_self)
  | illegal turn rest w ws e hsched htakes hpend hdec ht => exact .inl (ht ▸ (flagsGrow_flag (s.taken turn rest ws) .illcmd).1)
  | command turn rest w ws i hsched htakes hpend hdec hexec =>
    by_cases hwr : ∃ data, i = .wr 0x0000 data
    · obtain ⟨data, rfl⟩ := hwr
      obtain ⟨rfl, hhead⟩ := ctrlCmd_of_decodeOn hdec rfl hpend
      exact .inr ⟨rest, data, ws, hsched, .inl hhead⟩
    · by_cases hreset : i = .reset
      · subst hreset
        obtain ⟨rfl, hhead⟩ := ctrlCmd_of_decodeOn hdec rfl hpend
        exact .inr ⟨rest, 0, ws, hsched, .inr hhead⟩
      · exact .inl (flagsGrow_exec (not_exists.mp hwr) hreset hexec).1

end Sys2Proof.Machine
end

section
/-!
PROOF. The reset state is silent and stable (spec/70_reset_and_hazards.md R262). A voice at its reset values holds the
parameter values of the reset registers, so the latch leaves it (`Voice.Latched.latch_eq`); it is not active, so no frame of it
is mixed; PLAY and the masks are 0 and no release is pending, so the sequencer only moves POS. The phases follow one by one.
-/

namespace Sys2Proof.Machine

/-! ### The latch of values already held (R205) -/

theorem Osc.Latched.latch_eq {r : RegFile} {j : Fin 3} {o : Osc} (h : o.Latched r j) : o.latch r j = o := by
  obtain ⟨hwave, hoct, hdet, hphoff⟩ := h
  rw [Osc.latch, Osc.setWave, Osc.setOct, Osc.setDetune, Osc.setPhase, ← hwave, ← hoct, ← hdet, ← hphoff]

theorem Envelope.Latched.set_eq {r : RegFile} {e : Envelope} (h : e.Latched r) :
    e.set r.envAttack r.envDecay r.envSustain r.envRelease = e := by
  obtain ⟨hattack, hdecay, hsustain, hrelease⟩ := h
  rw [Envelope.set, ← hattack, ← hdecay, ← hsustain, ← hrelease]

theorem Voice.Latched.latch_eq {r : RegFile} {v : Voice} (h : v.Latched r) : v.latch r = v := by
  obtain ⟨hosc, hftype, hcutoff, hq, hnst, henv, hgain⟩ := h
  have hbank : #v[v.osc[0].latch r 0, v.osc[1].latch r 1, v.osc[2].latch r 2] = v.osc := by
    refine Vector.ext fun j hj => ?_
    have hj3 : j = 0 ∨ j = 1 ∨ j = 2 := by omega
    rcases hj3 with rfl | rfl | rfl
    · exact (hosc 0).latch_eq
    · exact (hosc 1).latch_eq
    · exact (hosc 2).latch_eq
  have hfilter : v.filterSet r.fltType r.fltCutoff r.fltQ r.fltStages = v :=
    Voice.filterSet_of_eq (by rw [hftype, hcutoff, hq, hnst])
  have hlatch : v.latch r =
      { v.filterSet r.fltType r.fltCutoff r.fltQ r.fltStages with
        env := (v.filterSet r.fltType r.fltCutoff r.fltQ r.fltStages).env.set r.envAttack r.envDecay r.envSustain r.envRelease
        gain := f32val r.gain } := by
    rw [Voice.latch, hbank]
    rfl
  rw [hlatch, hfilter, henv.set_eq, ← hgain]

/-! ### A voice at its reset values (R24 to R28) -/

/-- The reset pattern of FLT_CUTOFF is that of 1000 Hz (R25, R48). -/
theorem f32val_cutoff_reset : f32val 0x447A0000#32 = 1000 := by decide +kernel

theorem Osc.latched_reset {r : RegFile} {j : Fin 3} (hwave : r.oscWave[j] = 0#32)
    (hoct : r.oscOct[j] = 0#32) (hdet : r.oscDetune[j] = 0#32) (hphase : r.oscPhase[j] = 0#32) : Osc.reset.Latched r j where
  wave := by rw [hwave]; rfl
  oct := by rw [hoct]; rfl
  det := by
    rw [hdet, f32val_zero]
    exact (clamp_of_mem (x := 0) (by norm_num) (by norm_num)).symm
  phoff := by
    rw [hphase, f32val_zero]
    simp [wrap360_div, Osc.reset]

theorem Envelope.latched_reset (p : Params) (status : Word) :
    Envelope.reset.Latched { RegFile.reset p with status := status } where
  attackT := congrArg f32val (a₁ := 0x3C23D70A#32) rfl
  decayT := congrArg f32val (a₁ := 0x3DCCCCCD#32) rfl
  sustainL := by
    refine Eq.symm (clamp_of_mem (x := f32val 0x3F333333#32) ?_ ?_) <;> rw [sustain_reset] <;> norm_num
  releaseT := congrArg f32val (a₁ := 0x3E4CCCCD#32) rfl

theorem Voice.latched_reset (p : Params) (status : Word) : Voice.reset.Latched { RegFile.reset p with status := status } where
  osc j := by
    have hzero (w : Word) : (Vector.replicate 3 w)[j] = w := Vector.getElem_replicate j.isLt
    have hosc : Voice.reset.osc[j] = Osc.reset := Vector.getElem_replicate j.isLt
    exact hosc ▸ Osc.latched_reset (hzero 0) (hzero 0) (hzero 0) (hzero 0)
  ftype := rfl
  cutoff := f32val_cutoff_reset.symm
  q := congrArg f32val (a₁ := 0x3F34FDF4#32) rfl
  nst := rfl
  env := Envelope.latched_reset p status
  gain := f32val_zero.symm

theorem Voice.reset_inactive {eps : Rat} (h : 0 ≤ eps) : Voice.reset.active eps = false := by
  have hlevel : ¬ eps < Voice.reset.env.level := not_lt.mpr h
  rw [Voice.active, decide_eq_false hlevel]
  rfl

/-- It takes no part in a block, and stays as it is (R175). -/
theorem Voice.mixInto_reset {p : Params} (h : 0 ≤ p.eps) (n : Nat) (out : List Exact) :
    Voice.reset.mixInto p n out = (Voice.reset, out) := by
  have hreclaim : Voice.reset.reclaim p.eps = Voice.reset := by
    rw [Voice.reclaim_eq_ite]
    exact if_neg fun hreleased => Bool.false_ne_true hreleased.2
  rw [Voice.mixInto_of_inactive (Voice.reset_inactive h), hreclaim]

theorem mixVoices_reset {p : Params} (h : 0 ≤ p.eps) (n k : Nat) (out : List Exact) :
    mixVoices p n (List.replicate k Voice.reset) out = (List.replicate k Voice.reset, out) := by
  induction k with
  | zero => rfl
  | succ k ih => rw [List.replicate_succ, mixVoices, Voice.mixInto_reset h, ih]

/-! ### What the phases leave when there is nothing for them to do -/

theorem zeroFirst_replicate_zero (n k : Nat) : zeroFirst n (List.replicate k .zero) = List.replicate k .zero := by
  induction n generalizing k with
  | zero => cases k <;> rfl
  | succ n ih =>
    cases k with
    | zero => rfl
    | succ k => exact congrArg (List.cons _) (ih k)

/-- The release check with no release pending (R181). -/
theorem seqReleaseAll_of_none_pending {s : State} (h : ∀ d : Degree, s.seq.relp[d] = false) : s.seqReleaseAll = s := by
  rw [seqReleaseAll_eq]
  refine foldl_keeps (P := fun t => t = s) (fun t d ht => ?_) _ _ rfl
  rw [ht]
  exact seqReleaseOne_of_not_due fun hdue => Bool.false_ne_true ((h d).symm.trans hdue.1)

theorem RegFile.drained_of_none {r : RegFile} (hon : r.noteOnReq = 0#32) (hoff : r.noteOffReq = 0#32) : r.drained = r := by
  cases r
  subst hon hoff
  rfl

/-- Phase 3 with no note requested (R203). -/
theorem phaseRequests_of_none {s : State} (hon : s.regs.noteOnReq = 0#32) (hoff : s.regs.noteOffReq = 0#32) (oct : Int) :
    s.phaseRequests oct = s := by
  have hdegrees : degreesIn 0#32 = [] := by decide
  rw [phaseRequests_eq, State.requestOns, State.requestOffs, hon, hoff, hdegrees,
    RegFile.drained_of_none hon hoff]
  rfl

/-- Phase 4 at the pool size of the reset (R204). -/
theorem targetVoices_reset {p : Params} (h : p.WF) : targetVoices p (BitVec.ofNat 32 p.nvReset) = p.nvReset := by
  obtain ⟨-, hpos, hmax, hword, -⟩ := h
  have hint : (BitVec.ofNat 32 p.nvReset).toInt = p.nvReset := by
    have hnat : (BitVec.ofNat 32 p.nvReset).toNat = p.nvReset := Nat.mod_eq_of_lt (by omega)
    rw [BitVec.toInt_eq_toNat_of_lt (by omega), hnat]
  have htarget := targetVoices_cast p (BitVec.ofNat 32 p.nvReset)
  rw [hint, if_neg (by omega), if_neg (by omega)] at htarget
  exact Int.ofNat.inj htarget

/-- Each zero word is sent as four zero bytes (R76). -/
theorem flatMap_bytes_zero (n : Nat) :
    (List.replicate n (Sample.bits 0x00000000#32)).flatMap Sample.bytes = List.replicate (4 * n) (.bits 0x00#8) := by
  have hword : Sample.bytes (.bits 0x00000000#32) = List.replicate 4 (.bits 0x00#8) := by decide
  induction n with
  | zero => rfl
  | succ n ih =>
    rw [List.replicate_succ, List.flatMap_cons, ih, hword, List.replicate_append_replicate]
    exact congrArg (List.replicate · _) (by omega)

/-! ### The phases from the reset state -/

/-- The reset state but for POS, STATUS, the ports and the turns to come. -/
def State.silent (p : Params) (pos : BitVec 64) (status : Word) (io : Channels) (sched : List Turn) : State :=
  ((((State.resetOf p).withSeq { Sequencer.reset with pos := pos }).withRegs
    { RegFile.reset p with status := status }).withIo io).withSched sched

section

variable (p : Params) (pos : BitVec 64) (status : Word) (io : Channels) (sched : List Turn) (n : Nat)

theorem phaseZero_silent : (State.silent p pos status io sched).phaseZero n = .silent p pos status io sched :=
  congrArg (State.silent p pos status io sched).withOut (zeroFirst_replicate_zero n p.maxFrames)

/-- PLAY is 0: the sequencer is stopped, and only POS moves. -/
theorem phaseSequencer_silent : (State.silent p pos status io sched).phaseSequencer n =
    .silent p (pos + BitVec.ofNat 64 n) status io sched := by
  have hstopped : isPlaying (State.silent p pos status io sched).regs.play = false := (by decide : isPlaying 0#32 = false)
  have hnone (d : Degree) : (State.silent p pos status io sched).seq.relp[d] = false := Vector.getElem_replicate d.isLt
  have hacc : (State.silent p pos status io sched).seqAdvanceAcc false n = .silent p pos status io sched := rfl
  rw [State.phaseSequencer, seqAdvance_stopped hstopped, hacc, seqReleaseAll_of_none_pending hnone]
  rfl

theorem phaseLatch_silent :
    (State.silent p pos status io sched).phaseLatch (State.silent p pos status io sched).regs =
      .silent p pos status io sched := by
  have hvoices : (List.replicate p.nvReset Voice.reset).map (Voice.latch { RegFile.reset p with status := status }) =
      List.replicate p.nvReset Voice.reset := by
    rw [List.map_replicate, (Voice.latched_reset p status).latch_eq]
  exact congrArg (State.silent p pos status io sched).withVoices hvoices

/-- JB.POP withholds, for the queue is empty. -/
theorem phaseRemote_silent : (State.silent p pos status io sched).phaseRemote n =
    .silent p pos (status ||| 0x00000008#32) io sched :=
  phaseRemote_withheld (Nat.zero_le _) n

variable {p}

theorem phaseResize_silent (h : p.WF) :
    (State.silent p pos status io sched).phaseResize (State.silent p pos status io sched).regs.polyTarget =
      .silent p pos status io sched :=
  if_pos ((targetVoices_reset h).trans List.length_replicate.symm)

theorem phaseRender_silent (h : p.WF) : (State.silent p pos status io sched).phaseRender n =
    .silent p pos status io sched := by
  have hmix := mixVoices_reset (Params.WF.eps h) n p.nvReset (List.replicate p.maxFrames .zero)
  exact congrArg (fun r => ((State.silent p pos status io sched).withVoices r.1).withOut r.2) hmix

theorem phasesAfterRequests_silent (h : p.WF) : (State.silent p pos status io sched).phasesAfterRequests n =
    .silent p pos (status ||| 0x00000008#32) io sched := by
  rw [phasesAfterRequests_eq, phaseResize_silent pos status io sched h, phaseLatch_silent,
    phaseRender_silent pos status io sched n h, phaseRemote_silent]

/-- The block of zeros is sent as zero words, and as their bytes (R209). -/
theorem phaseEmit_silent (h : n ≤ p.maxFrames) : (State.silent p pos status io sched).phaseEmit n =
    .silent p pos status { io with
      audioOut := io.audioOut ++ [List.replicate n (.bits 0x00000000#32)]
      netTx := io.netTx ++ [List.replicate (4 * n) (.bits 0x00#8)] } sched := by
  have hblock : ((List.replicate p.maxFrames Exact.zero).take n).map Exact.emitted =
      List.replicate n (.bits 0x00000000#32) := by
    rw [List.take_replicate, Nat.min_eq_left h, List.map_replicate]
    rfl
  rw [State.phaseEmit, ← flatMap_bytes_zero, ← hblock]
  rfl

/-- A CALLBACK on the silent block: its phases, one by one. -/
theorem callbackWhole_silent (hp : p.WF) (hn : n ≤ p.maxFrames) : (State.silent p pos status io sched).callbackWhole n =
    .silent p (pos + BitVec.ofNat 64 n) (status ||| 0x00000008#32) { io with
      audioOut := io.audioOut ++ [List.replicate n (.bits 0x00000000#32)]
      netTx := io.netTx ++ [List.replicate (4 * n) (.bits 0x00#8)] } sched := by
  rw [State.callbackWhole, phaseZero_silent, phaseSequencer_silent, phaseRequests_of_none rfl rfl,
    phasesAfterRequests_silent _ _ _ _ _ hp, phaseEmit_silent _ _ _ _ _ hn]
  rfl

end

/-- Settles O35: the state it speaks of is the silent block. -/
theorem silentAfterReset : Obligations.SilentAfterReset := fun p pos status io sched n hp hn =>
  (exec_callback_whole (s := .silent p pos status io sched) rfl hn rfl).trans
    (congrArg _ (callbackWhole_silent pos status io sched (u32 n) hp hn))

end Sys2Proof.Machine
end
